-- ==== Sys2Proof/Word.lean ====
section
/-! DEFINITION. The word types of the APSB: samples (binary32 words, R20, R105), command words and response values
(R151, R160), and the bytes of a byte-wide link (R107). -/

namespace Sys2Proof

/-- One sample: an IEEE 754 binary32 value in one 32-bit word (R20, R105). -/
abbrev Word := BitVec 32

/-- A 64-bit command word (R150) or response value (R160). -/
abbrev Word64 := BitVec 64

/-- One byte of a byte-wide link (R107). -/
abbrev Byte := BitVec 8

end Sys2Proof
end

