-- ==== Sys2Proof/Syntax.lean ====
section
/-! DEFINITION. The fifteen commands of the opcode map (R153), one constructor per row, and the ports they name
(R152). An operand field is kept at its width in the command word: INST has 4 bits, A and B have 24 (R151). -/

namespace Sys2Proof

/-- The resampler's mode: `dec` is decimate-by-3 (0), `int` is interpolate-by-3 (1) (R52, R155). -/
inductive RsMode where
  | dec
  | int
  deriving DecidableEq, Repr

/-- A port a command may address (R152): the producer or consumer port of ring `i`, a resampler, a spectral unit. -/
inductive Port where
  | rbp (i : Nat)
  | rbc (i : Nat)
  | rs (j : Nat)
  | ola (k : Nat)
  deriving DecidableEq, Repr

/-- The commands of R153. `inst` is INST, `a` and `b` are the operand fields A and B. -/
inductive Instr where
  /-- RB.INIT (R201): `a` capacity request in frames, `b` channels. -/
  | rbInit (inst : BitVec 4) (a b : BitVec 24)
  /-- RB.WRITE (R211): `a` frames. -/
  | rbWrite (inst : BitVec 4) (a : BitVec 24)
  /-- RB.PAVAIL (R215). -/
  | rbPavail (inst : BitVec 4)
  /-- RB.PSTAT (R216): `a` register index. -/
  | rbPstat (inst : BitVec 4) (a : BitVec 24)
  /-- RB.READ (R221): `a` frames. -/
  | rbRead (inst : BitVec 4) (a : BitVec 24)
  /-- RB.CAVAIL (R225). -/
  | rbCavail (inst : BitVec 4)
  /-- RB.CSTAT (R226): `a` register index. -/
  | rbCstat (inst : BitVec 4) (a : BitVec 24)
  /-- RS.CFG (R261). -/
  | rsCfg (inst : BitVec 4) (mode : RsMode)
  /-- RS.RESET (R262). -/
  | rsReset (inst : BitVec 4)
  /-- RS.RUN (R263): `a` input samples, `b` output capacity. -/
  | rsRun (inst : BitVec 4) (a b : BitVec 24)
  /-- RS.STAT (R275): `a` register index. -/
  | rsStat (inst : BitVec 4) (a : BitVec 24)
  /-- OLA.RESET (R300). -/
  | olaReset (inst : BitVec 4)
  /-- OLA.PUSH (R301): `a` samples. -/
  | olaPush (inst : BitVec 4) (a : BitVec 24)
  /-- OLA.POP (R320): `a` maximum samples. -/
  | olaPop (inst : BitVec 4) (a : BitVec 24)
  /-- OLA.STAT (R330): `a` register index. -/
  | olaStat (inst : BitVec 4) (a : BitVec 24)
  deriving DecidableEq, Repr

/-- INST of a command (R154). -/
def Instr.inst : Instr → BitVec 4
  | .rbInit n _ _ => n
  | .rbWrite n _ => n
  | .rbPavail n => n
  | .rbPstat n _ => n
  | .rbRead n _ => n
  | .rbCavail n => n
  | .rbCstat n _ => n
  | .rsCfg n _ => n
  | .rsReset n => n
  | .rsRun n _ _ => n
  | .rsStat n _ => n
  | .olaReset n => n
  | .olaPush n _ => n
  | .olaPop n _ => n
  | .olaStat n _ => n

/-- The port a command addresses: its UNIT (R152, R153) and INST. -/
def Instr.port : Instr → Port
  | .rbInit n _ _ => .rbp n.toNat
  | .rbWrite n _ => .rbp n.toNat
  | .rbPavail n => .rbp n.toNat
  | .rbPstat n _ => .rbp n.toNat
  | .rbRead n _ => .rbc n.toNat
  | .rbCavail n => .rbc n.toNat
  | .rbCstat n _ => .rbc n.toNat
  | .rsCfg n _ => .rs n.toNat
  | .rsReset n => .rs n.toNat
  | .rsRun n _ _ => .rs n.toNat
  | .rsStat n _ => .rs n.toNat
  | .olaReset n => .ola n.toNat
  | .olaPush n _ => .ola n.toNat
  | .olaPop n _ => .ola n.toNat
  | .olaStat n _ => .ola n.toNat

end Sys2Proof
end

