-- ==== Sys2Proof/Config.lean ====
section
/-! DEFINITION. The parameters of a machine (R9, R28) as one record, and the free values: constants without a body,
of which nothing can be proved. -/

namespace Sys2Proof

/-- The instance of XFORM a configuration names (R311). `given` is any function with the properties X1 and X2;
`ideal` is XFORM_ID; `fft` is the reference computation of R312 with the twiddle tables TW(-1, m) and TW(+1, m),
each a (real, imaginary) pair, for m below OLA_N / 2. -/
inductive Xform where
  | given
  | ideal
  | fft (twForward twInverse : List (Word × Word))
  deriving DecidableEq, Repr

/-- The parameters of R9, in the table's order. NAN_DRAW is a free value below. -/
structure Config where
  /-- N_DOM, the number of clock domains. -/
  nDom : Nat
  /-- N_RB. -/
  nRb : Nat
  /-- N_RS. -/
  nRs : Nat
  /-- N_OLA. -/
  nOla : Nat
  /-- PDOM[i]. -/
  pdom : List Nat
  /-- CDOM[i]. -/
  cdom : List Nat
  /-- MAX_CAP. -/
  maxCap : Nat
  /-- MAX_CH. -/
  maxCh : Nat
  /-- PTR_W. -/
  ptrW : Nat
  /-- SYNC_STAGES: not observable (R9); only the crossing of Machine/Crossing.lean uses it. -/
  syncStages : Nat
  /-- OLA_N. -/
  olaN : Nat
  /-- OLA_HOP. -/
  olaHop : Nat
  /-- OLA_HIST. -/
  olaHist : Nat
  /-- OLA_PAD. -/
  olaPad : Nat
  /-- OLA_RING. -/
  olaRing : Nat
  /-- OLA_EPS, a binary32 word. -/
  olaEps : Word
  /-- HANN, OLA_N binary32 words (R310). -/
  hann : List Word
  /-- XFORM (R311). -/
  xform : Xform
  deriving DecidableEq, Repr

/-- Free: 32 bits from which the NaN of the n-th arithmetic result of the OLA units is made (R21, I1; log entry 6). -/
opaque Config.nanDraw : Nat → BitVec 32

/-- Free: 32 bits from which the NaN of the n-th arithmetic result of one RS.RUN is made. It depends on the mode, A, B
and the offered words alone, because the delivered words do (R276; log entry 5). -/
opaque Config.nanRun : RsMode → Nat → Nat → List Word → Nat → BitVec 32

/-- Free: 32 bits from which the NaN of the n-th arithmetic result inside the reference XFORM is made. It depends on
the input vector alone (X1 of R311; log entry 8). -/
opaque Config.nanXform : List Word → Nat → BitVec 32

/-- Free: 32 bits from which the NaN of the n-th arithmetic result of a host's mixdown is made (R370; log entry 30). -/
opaque Config.nanHost : List Word → Nat → BitVec 32

/-- Free: element k of the given XFORM at an input vector, before X2 is applied (R311; log entry 7). -/
opaque Config.xformGiven : List Word → Nat → BitVec 32

/-- Free: what a storage word that nothing has written reads as (R46, I2 to I4; log entry 10). -/
opaque Config.unwritten : Nat → BitVec 32

/-- Free: the draw of the n-th SYNC move that the fair choice makes (R124, I12; log entry 2). -/
opaque Config.syncDraw : Nat → Nat

end Sys2Proof
end

