-- ==== Sys2Proof/WellFormed.lean ====
section
/-! DEFINITION. When a command word names an instance the machine has (R154). The widths of the operand fields hold by
their types, and the must-be-zero bits (R157, R158) have no place in `Instr`. -/

namespace Sys2Proof

/-- The port's unit has an instance of that number (R154). -/
def Port.wellFormed (c : Config) : Port → Bool
  | .rbp i => decide (i < c.nRb)
  | .rbc i => decide (i < c.nRb)
  | .rs j => decide (j < c.nRs)
  | .ola k => decide (k < c.nOla)

/-- INST is below the instance count of the command's unit (R154). -/
def Instr.wellFormed (c : Config) (i : Instr) : Bool := i.port.wellFormed c

end Sys2Proof
end

