-- ==== Sys2Proof/Decode.lean ====
section
/-! DEFINITION. The command word: its fields (R151), the decoder (R153, R157, R158, R162, R164), the opcode map with its
match and mask words (R153), the encoder, and the byte order of a byte-wide link (R107). -/

namespace Sys2Proof

/-- Why a word spells no command (R401). Each reason is an ILLEGAL fault of the issuing domain, not a stop. -/
inductive DecodeError where
  /-- RSV (bits 51:48) is not zero (R157). -/
  | rsvNotZero
  /-- UNIT is 0x0 or 0x5..0xF (R152). -/
  | reservedUnit
  /-- The (UNIT, OP) pair is not in the opcode map (R153). -/
  | reservedOp
  /-- A must-be-zero operand bit is set (R158). -/
  | operandNotZero
  /-- Fewer than the eight bytes of a command word were given (R150). -/
  | truncated
  deriving DecidableEq, Repr

/-- UNIT, bits 63:60 (R151). -/
def unitOf (w : Word64) : BitVec 4 := w.extractLsb' 60 4

/-- OP, bits 59:56. -/
def opOf (w : Word64) : BitVec 4 := w.extractLsb' 56 4

/-- INST, bits 55:52. -/
def instOf (w : Word64) : BitVec 4 := w.extractLsb' 52 4

/-- RSV, bits 51:48. -/
def rsvOf (w : Word64) : BitVec 4 := w.extractLsb' 48 4

/-- B, bits 47:24. -/
def opB (w : Word64) : BitVec 24 := w.extractLsb' 24 24

/-- A, bits 23:0. -/
def opA (w : Word64) : BitVec 24 := w.extractLsb' 0 24

/-- The port that UNIT and INST name, whatever the rest of the word says (R152, R162). -/
def portOf (w : Word64) : Option Port :=
  match (unitOf w).toNat with
  | 1 => some (.rbp (instOf w).toNat)
  | 2 => some (.rbc (instOf w).toNat)
  | 3 => some (.rs (instOf w).toNat)
  | 4 => some (.ola (instOf w).toNat)
  | _ => none

/-- The command, provided an operand field marked "0" in R153 is zero (R158). -/
def needZero (field : BitVec 24) (i : Instr) : Except DecodeError Instr :=
  if field = 0 then .ok i else .error .operandNotZero

/-- RS.CFG: bit 0 of A is the mode, bits 23:1 must be zero (R155, R158). -/
def decodeCfg (inst : BitVec 4) (a b : BitVec 24) : Except DecodeError Instr :=
  if a = 0 then needZero b (.rsCfg inst .dec)
  else if a = 1 then needZero b (.rsCfg inst .int)
  else .error .operandNotZero

/-- The row of R153 that (UNIT, OP) selects, with its operands. -/
def decodeRow (unit op inst : BitVec 4) (a b : BitVec 24) : Except DecodeError Instr :=
  match unit.toNat, op.toNat with
  | 1, 0 => .ok (.rbInit inst a b)
  | 1, 1 => needZero b (.rbWrite inst a)
  | 1, 2 => if a = 0 then needZero b (.rbPavail inst) else .error .operandNotZero
  | 1, 3 => needZero b (.rbPstat inst a)
  | 1, _ => .error .reservedOp
  | 2, 1 => needZero b (.rbRead inst a)
  | 2, 2 => if a = 0 then needZero b (.rbCavail inst) else .error .operandNotZero
  | 2, 3 => needZero b (.rbCstat inst a)
  | 2, _ => .error .reservedOp
  | 3, 0 => decodeCfg inst a b
  | 3, 1 => if a = 0 then needZero b (.rsReset inst) else .error .operandNotZero
  | 3, 2 => .ok (.rsRun inst a b)
  | 3, 3 => needZero b (.rsStat inst a)
  | 3, _ => .error .reservedOp
  | 4, 0 => if a = 0 then needZero b (.olaReset inst) else .error .operandNotZero
  | 4, 1 => needZero b (.olaPush inst a)
  | 4, 2 => needZero b (.olaPop inst a)
  | 4, 3 => needZero b (.olaStat inst a)
  | 4, _ => .error .reservedOp
  | _, _ => .error .reservedUnit

/-- The decoder (R162): total on every 64-bit word. -/
def decodeWord (w : Word64) : Except DecodeError Instr :=
  if rsvOf w = 0 then decodeRow (unitOf w) (opOf w) (instOf w) (opA w) (opB w)
  else .error .rsvNotZero

/-- A command word from its fields, RSV zero (R151, R157). -/
def packWord (unit op inst : BitVec 4) (b a : BitVec 24) : Word64 :=
  unit ++ op ++ inst ++ (0 : BitVec 4) ++ b ++ a

/-- The word of a command (R153). -/
def encode : Instr → Word64
  | .rbInit n a b => packWord 0x1 0x0 n b a
  | .rbWrite n a => packWord 0x1 0x1 n 0 a
  | .rbPavail n => packWord 0x1 0x2 n 0 0
  | .rbPstat n a => packWord 0x1 0x3 n 0 a
  | .rbRead n a => packWord 0x2 0x1 n 0 a
  | .rbCavail n => packWord 0x2 0x2 n 0 0
  | .rbCstat n a => packWord 0x2 0x3 n 0 a
  | .rsCfg n .dec => packWord 0x3 0x0 n 0 0
  | .rsCfg n .int => packWord 0x3 0x0 n 0 1
  | .rsReset n => packWord 0x3 0x1 n 0 0
  | .rsRun n a b => packWord 0x3 0x2 n b a
  | .rsStat n a => packWord 0x3 0x3 n 0 a
  | .olaReset n => packWord 0x4 0x0 n 0 0
  | .olaPush n a => packWord 0x4 0x1 n 0 a
  | .olaPop n a => packWord 0x4 0x2 n 0 a
  | .olaStat n a => packWord 0x4 0x3 n 0 a

/-- The match and mask words of R153, in the table's order: a word w selects a row when `w AND mask = match`. -/
def opcodeMap : List (Word64 × Word64) :=
  [(0x1000000000000000, 0xFF0F000000000000), (0x1100000000000000, 0xFF0FFFFFFF000000),
   (0x1200000000000000, 0xFF0FFFFFFFFFFFFF), (0x1300000000000000, 0xFF0FFFFFFF000000),
   (0x2100000000000000, 0xFF0FFFFFFF000000)] ++
  [(0x2200000000000000, 0xFF0FFFFFFFFFFFFF), (0x2300000000000000, 0xFF0FFFFFFF000000),
   (0x3000000000000000, 0xFF0FFFFFFFFFFFFE), (0x3100000000000000, 0xFF0FFFFFFFFFFFFF),
   (0x3200000000000000, 0xFF0F000000000000)] ++
  [(0x3300000000000000, 0xFF0FFFFFFF000000), (0x4000000000000000, 0xFF0FFFFFFFFFFFFF),
   (0x4100000000000000, 0xFF0FFFFFFF000000), (0x4200000000000000, 0xFF0FFFFFFF000000),
   (0x4300000000000000, 0xFF0FFFFFFF000000)]

/-- A word selects a row of the opcode map (R153). -/
def selects (w : Word64) (row : Word64 × Word64) : Bool := decide (w &&& row.2 = row.1)

/-! ## The byte-wide link (R107): words of 64 bits (commands, response values) and of 32 bits (data) -/

/-- The first n bytes of a word on a byte-wide link: byte j is bits [8j+7:8j] (R107). -/
def linkBytes {w : Nat} (n : Nat) (v : BitVec w) : List Byte := (List.range n).map fun j => v.extractLsb' (8 * j) 8

/-- The w-bit word that bytes of a byte-wide link carry, lowest byte first (R107). -/
def linkWord (w : Nat) : List Byte → BitVec w
  | [] => 0
  | b :: bs => (linkWord w bs <<< 8) ||| b.setWidth w

/-- The bytes of a command word or a response value (R107, R150, R160). -/
def wordBytes (w : Word64) : List Byte := linkBytes 8 w

/-- The command word or response value that eight bytes carry. -/
def bytesWord (bs : List Byte) : Word64 := linkWord 64 bs

/-- The bytes of a data-in or data-out word (R105, R107). -/
def dataBytes (x : Word) : List Byte := linkBytes 4 x

/-- The bytes of a data-in or data-out stream: its words in order (R106, R107). -/
def streamBytes (xs : List Word) : List Byte := xs.flatMap dataBytes

/-- The first n data words that a byte stream carries (R106, R107). -/
def bytesStream : Nat → List Byte → List Word
  | 0, _ => []
  | n + 1, bs => linkWord 32 (bs.take 4) :: bytesStream n (bs.drop 4)

/-- Decode the front of a byte stream (R107, R150), with the bytes that follow the command word. -/
def decodeBytes (bs : List Byte) : Except DecodeError (Instr × List Byte) :=
  if bs.length < 8 then .error .truncated
  else match decodeWord (bytesWord (bs.take 8)) with
    | .ok i => .ok (i, bs.drop 8)
    | .error e => .error e

/-- The host's question: the command that the word with these bits spells. Every command is one 64-bit word (R150);
bits above `nbits` are zero. -/
def decodeTableWord (nbits w : Nat) : Option Instr :=
  match decodeWord (BitVec.ofNat 64 (w % 2 ^ nbits)) with
  | .ok i => some i
  | .error _ => none

end Sys2Proof
end

