-- ==== Sys2Proof/Machine/F32.lean ====
section
/-! DEFINITION. IEEE 754 binary32 arithmetic, rounding to nearest, ties to even, subnormals kept, no visible flags
(R19, R21). Every finite binary32 value is a whole number of units of 2^-149, so values are handled as exact natural
numbers of that unit and narrowed once at the end. Each operation takes the 32 bits from which the NaN it may return is
made (NAN_DRAW, R21). -/

namespace Sys2Proof.Machine

/-- +0.0 (R19). -/
def fZero : Word := 0x00000000

/-- 1.0 (R19). -/
def fOne : Word := 0x3F800000

/-- 3.0 (R19). -/
def fThree : Word := 0x40400000

/-- The bits of +inf; the magnitude bits of either infinity. -/
def infBits : Nat := 0x7F800000

/-- The 31 magnitude bits of a word: exponent and fraction. -/
def magBits (a : Word) : Nat := a.toNat % 2 ^ 31

/-- The sign bit. -/
def signBit (a : Word) : Bool := a.getLsbD 31

/-- NaN: exponent all ones, fraction not zero. -/
def isNaN (a : Word) : Bool := decide (infBits < magBits a)

/-- An infinity of either sign. -/
def isInf (a : Word) : Bool := decide (magBits a = infBits)

/-- Neither an infinity nor a NaN. -/
def isFinite (a : Word) : Bool := decide (magBits a < infBits)

/-- Zero of either sign. -/
def isZero (a : Word) : Bool := decide (magBits a = 0)

/-- A word from its sign and its magnitude bits. -/
def packF (neg : Bool) (bits : Nat) : Word := BitVec.ofNat 32 ((if neg then 2 ^ 31 else 0) + bits)

/-- The magnitude that finite magnitude bits stand for, in units of 2^-149. -/
def magOfBits (bits : Nat) : Nat :=
  if bits / 2 ^ 23 = 0 then bits % 2 ^ 23 else (2 ^ 23 + bits % 2 ^ 23) * 2 ^ (bits / 2 ^ 23 - 1)

/-- The magnitude of a finite word, in units of 2^-149. -/
def magOf (a : Word) : Nat := magOfBits (magBits a)

/-- Round the quotient `num / den` to the nearest whole number, ties to even. -/
def roundDiv (num den : Nat) : Nat :=
  if 2 * (num % den) > den ∨ (2 * (num % den) = den ∧ num / den % 2 = 1) then num / den + 1 else num / den

/-- The magnitude bits of the binary32 value nearest to `num / den` units of 2^-149, ties to even, infinity on
overflow (R19). The quotient keeps 24 bits; below 2^24 units the spacing is one unit (subnormals included). -/
def roundMag (num den : Nat) : Nat :=
  min ((Nat.log2 (num / den) - 23) * 2 ^ 23 + roundDiv num (den * 2 ^ (Nat.log2 (num / den) - 23))) infBits

/-- A NaN made from 32 free bits: sign and fraction as drawn, fraction 0 replaced by the quiet bit. Every NaN is some
draw's (R21). -/
def asNaN (draw : BitVec 32) : Word :=
  if draw.toNat % 2 ^ 23 = 0 then packF (draw.getLsbD 31) (infBits + 2 ^ 22)
  else packF (draw.getLsbD 31) (infBits + draw.toNat % 2 ^ 23)

/-- The sum of two finite words: equal signs add their magnitudes; otherwise the larger magnitude gives the sign, and an
exact zero is +0. -/
def addFinite (a b : Word) : Word :=
  if signBit a = signBit b then packF (signBit a) (roundMag (magOf a + magOf b) 1)
  else if magOf b < magOf a then packF (signBit a) (roundMag (magOf a - magOf b) 1)
  else if magOf a < magOf b then packF (signBit b) (roundMag (magOf b - magOf a) 1)
  else fZero

/-- fadd (R19). -/
def fadd (draw : BitVec 32) (a b : Word) : Word :=
  if isNaN a || isNaN b then asNaN draw
  else if isInf a then (if isInf b && (signBit a != signBit b) then asNaN draw else a)
  else if isInf b then b
  else addFinite a b

/-- The word with its sign flipped. -/
def fneg (a : Word) : Word := a ^^^ 0x80000000

/-- fsub (R19): IEEE 754 defines the difference as the sum with the negated second operand. -/
def fsub (draw : BitVec 32) (a b : Word) : Word := fadd draw a (fneg b)

/-- fmul (R19). -/
def fmul (draw : BitVec 32) (a b : Word) : Word :=
  if isNaN a || isNaN b then asNaN draw
  else if isInf a || isInf b then
    (if isZero a || isZero b then asNaN draw else packF (signBit a != signBit b) infBits)
  else packF (signBit a != signBit b) (roundMag (magOf a * magOf b) (2 ^ 149))

/-- fdiv (R19). A finite non-zero word over a zero is an infinity. -/
def fdiv (draw : BitVec 32) (a b : Word) : Word :=
  if isNaN a || isNaN b then asNaN draw
  else if isInf a then (if isInf b then asNaN draw else packF (signBit a != signBit b) infBits)
  else if isInf b then packF (signBit a != signBit b) 0
  else if isZero b then (if isZero a then asNaN draw else packF (signBit a != signBit b) infBits)
  else packF (signBit a != signBit b) (roundMag (magOf a * 2 ^ 149) (magOf b))

/-- A word's place in the order of the non-NaN values; both zeros have place 0. -/
def orderKey (a : Word) : Int := if signBit a then -(magBits a : Int) else (magBits a : Int)

/-- flt (R19): the ordered less-than, false if either operand is NaN. -/
def flt (a b : Word) : Bool := !isNaN a && !isNaN b && decide (orderKey a < orderKey b)

/-- int2f (R19): the binary32 value of a small whole number, exact below 2^24. -/
def int2f (n : Nat) : Word := packF false (roundMag (n * 2 ^ 149) 1)

end Sys2Proof.Machine
end

