-- ==== Sys2Proof/Machine/Reference.lean ====
section
/-! DEFINITION. The reference configuration: the default column of R9 and the reference instance of HANN (R310). -/

namespace Sys2Proof.Machine

/-- HANN[0] to HANN[31] of the reference instance. -/
def hannPart0 : List Word :=
  [
   0x00000000, 0x381E87C4, 0x391E863B, 0x39B25423, 0x3A1E8019, 0x3A77A0F6, 0x3AB2449B, 0x3AF29A52,
   0x3B1E6790, 0x3B487014, 0x3B776514, 0x3B95A260, 0x3BB2068A, 0x3BD0DDEF, 0x3BF2275E, 0x3C0AF0C6,
   0x3C1E058C, 0x3C325144, 0x3C47D325, 0x3C5E8A59, 0x3C767600, 0x3C87CA96, 0x3C94F373, 0x3CA2B513,
   0x3CB10EEF, 0x3CC00079, 0x3CCF891C, 0x3CDFA83E, 0x3CF05D41, 0x3D00D3BF, 0x3D09C324, 0x3D12FC79]

/-- HANN[32] to HANN[63] of the reference instance. -/
def hannPart1 : List Word :=
  [
   0x3D1C7F61, 0x3D264B7E, 0x3D306070, 0x3D3ABDD2, 0x3D45633D, 0x3D505049, 0x3D5B8488, 0x3D66FF8D,
   0x3D72C0E4, 0x3D7EC81A, 0x3D858A5C, 0x3D8BD322, 0x3D923E20, 0x3D98CB17, 0x3D9F79C6, 0x3DA649EB,
   0x3DAD3B42, 0x3DB44D87, 0x3DBB8073, 0x3DC2D3C0, 0x3DCA4724, 0x3DD1DA56, 0x3DD98D0A, 0x3DE15EF5,
   0x3DE94FC9, 0x3DF15F37, 0x3DF98CEF, 0x3E00EC51, 0x3E0520FD, 0x3E096453, 0x3E0DB62A, 0x3E121654]

/-- HANN[64] to HANN[95] of the reference instance. -/
def hannPart2 : List Word :=
  [
   0x3E1684A9, 0x3E1B00FB, 0x3E1F8B1E, 0x3E2422E6, 0x3E28C824, 0x3E2D7AAB, 0x3E323A4B, 0x3E3706D7,
   0x3E3BE01F, 0x3E40C5F2, 0x3E45B820, 0x3E4AB678, 0x3E4FC0C8, 0x3E54D6DF, 0x3E59F88A, 0x3E5F2596,
   0x3E645DD0, 0x3E69A105, 0x3E6EEEFF, 0x3E74478B, 0x3E79AA74, 0x3E7F1784, 0x3E824743, 0x3E8507A1,
   0x3E87CCC2, 0x3E8A968A, 0x3E8D64DD, 0x3E9037A0, 0x3E930EB6, 0x3E95EA04, 0x3E98C96D, 0x3E9BACD4]

/-- HANN[96] to HANN[127] of the reference instance. -/
def hannPart3 : List Word :=
  [
   0x3E9E941E, 0x3EA17F2C, 0x3EA46DE3, 0x3EA76026, 0x3EAA55D6, 0x3EAD4ED8, 0x3EB04B0C, 0x3EB34A56,
   0x3EB64C99, 0x3EB951B5, 0x3EBC598E, 0x3EBF6406, 0x3EC270FD, 0x3EC58056, 0x3EC891F3, 0x3ECBA5B5,
   0x3ECEBB7E, 0x3ED1D32F, 0x3ED4ECAA, 0x3ED807CF, 0x3EDB2480, 0x3EDE429F, 0x3EE1620C, 0x3EE482A8,
   0x3EE7A455, 0x3EEAC6F2, 0x3EEDEA63, 0x3EF10E86, 0x3EF4333D, 0x3EF7586A, 0x3EFA7DEC, 0x3EFDA3A4]

/-- HANN[128] to HANN[159] of the reference instance. -/
def hannPart4 : List Word :=
  [
   0x3F0064BA, 0x3F01F79E, 0x3F038A6F, 0x3F051D1D, 0x3F06AF97, 0x3F0841D0, 0x3F09D3B7, 0x3F0B653C,
   0x3F0CF651, 0x3F0E86E5, 0x3F1016E9, 0x3F11A64E, 0x3F133504, 0x3F14C2FC, 0x3F165025, 0x3F17DC72,
   0x3F1967D3, 0x3F1AF237, 0x3F1C7B91, 0x3F1E03D0, 0x3F1F8AE6, 0x3F2110C4, 0x3F22955A, 0x3F241899,
   0x3F259A73, 0x3F271AD8, 0x3F2899B9, 0x3F2A1709, 0x3F2B92B7, 0x3F2D0CB6, 0x3F2E84F6, 0x3F2FFB69]

/-- HANN[160] to HANN[191] of the reference instance. -/
def hannPart5 : List Word :=
  [
   0x3F317001, 0x3F32E2AF, 0x3F345365, 0x3F35C214, 0x3F372EAF, 0x3F389927, 0x3F3A016E, 0x3F3B6776,
   0x3F3CCB32, 0x3F3E2C94, 0x3F3F8B8D, 0x3F40E811, 0x3F424212, 0x3F439982, 0x3F44EE55, 0x3F46407C,
   0x3F478FEC, 0x3F48DC96, 0x3F4A266F, 0x3F4B6D69, 0x3F4CB177, 0x3F4DF28E, 0x3F4F30A0, 0x3F506BA2,
   0x3F51A386, 0x3F52D842, 0x3F5409C9, 0x3F553810, 0x3F56630A, 0x3F578AAC, 0x3F58AEEB, 0x3F59CFBB]

/-- HANN[192] to HANN[223] of the reference instance. -/
def hannPart6 : List Word :=
  [
   0x3F5AED11, 0x3F5C06E2, 0x3F5D1D24, 0x3F5E2FCB, 0x3F5F3ECC, 0x3F604A1E, 0x3F6151B6, 0x3F62558A,
   0x3F63558F, 0x3F6451BC, 0x3F654A07, 0x3F663E67, 0x3F672ED2, 0x3F681B3E, 0x3F6903A2, 0x3F69E7F7,
   0x3F6AC831, 0x3F6BA44A, 0x3F6C7C39, 0x3F6D4FF4, 0x3F6E1F74, 0x3F6EEAB2, 0x3F6FB1A4, 0x3F707443,
   0x3F713289, 0x3F71EC6C, 0x3F72A1E7, 0x3F7352F3, 0x3F73FF87, 0x3F74A79E, 0x3F754B32, 0x3F75EA3B]

/-- HANN[224] to HANN[255] of the reference instance. -/
def hannPart7 : List Word :=
  [
   0x3F7684B4, 0x3F771A97, 0x3F77ABDD, 0x3F783882, 0x3F78C080, 0x3F7943D1, 0x3F79C270, 0x3F7A3C5A,
   0x3F7AB188, 0x3F7B21F6, 0x3F7B8DA1, 0x3F7BF483, 0x3F7C5699, 0x3F7CB3DF, 0x3F7D0C52, 0x3F7D5FEE,
   0x3F7DAEAF, 0x3F7DF893, 0x3F7E3D97, 0x3F7E7DB8, 0x3F7EB8F4, 0x3F7EEF48, 0x3F7F20B3, 0x3F7F4D32,
   0x3F7F74C3, 0x3F7F9766, 0x3F7FB519, 0x3F7FCDDA, 0x3F7FE1A9, 0x3F7FF085, 0x3F7FFA6D, 0x3F7FFF61]

/-- The first half of the reference window. -/
def hannHalf : List Word :=
  hannPart0 ++ hannPart1 ++ hannPart2 ++ hannPart3 ++ hannPart4 ++ hannPart5 ++ hannPart6 ++ hannPart7

/-- The reference instance of HANN at OLA_N = 512 (R310): `f32(0.5 - 0.5 cos(2 pi k / 511))`, each value computed
exactly and rounded once; the window is symmetric. DEDUCED from the formula (log entry 9). -/
def hannReference : List Word := hannHalf ++ hannHalf.reverse

/-- The default column of R9. XFORM has no default bits (R311), so the reference configuration names the given one
(log entry 7). -/
def configReference : Config where
  nDom := 2
  nRb := 3
  nRs := 2
  nOla := 1
  pdom := [0, 0, 0]
  cdom := [0, 0, 1]
  maxCap := 65536
  maxCh := 2
  ptrW := 32
  syncStages := 2
  olaN := 512
  olaHop := 96
  olaHist := 384
  olaPad := 32
  olaRing := 1024
  olaEps := 0x358637BD
  hann := hannReference
  xform := .given

end Sys2Proof.Machine
end

