-- ==== Sys2Proof/Machine/State.lean ====
section
/-! DEFINITION. The state of the block (R42 to R53), the model's own records, and the state after the block reset
(R450, R451). State is plain data. -/

namespace Sys2Proof.Machine

/-- A storage array (R16, R100): pairs of a word index and a word, the indexes strictly rising. An index that is not
listed has never been written (log entry 10). -/
abbrev Mem := List (Nat × Word)

/-- The canonical form: the indexes rise strictly. -/
def Mem.wf : Mem → Bool
  | [] => true
  | [_] => true
  | (a, _) :: (b, v) :: m => decide (a < b) && Mem.wf ((b, v) :: m)

/-- The error conditions of R401 to R405. -/
inductive ErrKind where
  | illegal
  | notInit
  | proto
  | hazard
  | ovr
  deriving DecidableEq, Repr

/-- The status of a response (R161). -/
inductive Status where
  | ok
  | fail
  | illegal
  | error
  deriving DecidableEq, Repr

/-- One ring buffer (R43 to R46). -/
structure Rb where
  init : Bool
  cinit : Bool
  pending : Bool
  cap : Nat
  ch : Nat
  wr : Nat
  rview : Nat
  perr : BitVec 32
  rd : Nat
  wview : Nat
  cerr : BitVec 32
  mem : Mem
  deriving DecidableEq, Repr

/-- One resampler (R52). -/
structure Rs where
  cfgd : Bool
  mode : RsMode
  err : BitVec 32
  deriving DecidableEq, Repr

/-- One spectral processor (R53). -/
structure Ola where
  rdy : Bool
  hop : Mem
  fill : Nat
  hist : Mem
  acc : Mem
  nrm : Mem
  wo : Nat
  ro : Nat
  avail : Nat
  pushed : BitVec 64
  popped : BitVec 64
  hops : BitVec 64
  err : BitVec 32
  deriving DecidableEq, Repr

/-- A command as its host offers it: the command word and the data-in words (R106, R150). -/
structure Request where
  word : Word64
  offered : List Word
  deriving DecidableEq, Repr

/-- The command on the port of the domain that issued it. -/
structure Command where
  dom : Nat
  word : Word64
  offered : List Word
  deriving DecidableEq, Repr

/-- A completed command: its response (R160), how many offered words were taken from the front of the data-in stream,
and the data-out words (R106). -/
structure Completion where
  st : Status
  val : Word64
  taken : Nat
  out : List Word
  deriving DecidableEq, Repr

/-- One domain's command fabric: `ferr` (R42), the commands its host has still to issue, oldest first, and the
completions its host has received, oldest first (R110, R430; log entry 3). -/
structure Fabric where
  ferr : BitVec 32
  queue : List Request
  done : List Completion
  deriving DecidableEq, Repr

/-- A recorded fault (R407): the condition, the issuing domain, the port charged (`none` is `ferr`), the command word. -/
structure FaultRecord where
  kind : ErrKind
  dom : Nat
  port : Option Port
  word : Word64
  deriving DecidableEq, Repr

/-- Who moves: an agent of R23, with the draw of its choice where it has one (R124), or the block reset input (R450). -/
inductive Event where
  /-- HOST[d] issues its next command. -/
  | host (d : Nat)
  /-- INITACK[i]. -/
  | initAck (i : Nat)
  /-- SYNC_W2R[i]; the draw picks v. -/
  | syncW2R (i draw : Nat)
  /-- SYNC_R2W[i]; the draw picks v. -/
  | syncR2W (i draw : Nat)
  /-- The block reset input is asserted and released. -/
  | blockReset
  deriving DecidableEq, Repr

/-- The whole machine. `cfg` never changes; `sched`, `draws` and `faults` are the model's (log entries 1, 6, 13, and
R407 for `faults`). -/
structure State where
  cfg : Config
  fabs : List Fabric
  rbs : List Rb
  rss : List Rs
  olas : List Ola
  cur : Command
  faults : List FaultRecord
  sched : List Event
  draws : Nat
  deriving DecidableEq, Repr

/-- Why a step stops. No command stops: a fault of the spec (R400) is a next state. -/
inductive Fault where
  /-- Raised by `step` alone: the schedule names a domain or a ring the machine does not have, so no agent of R23 is
  named. Safe: the schedule is the model's own data, and the hardware has no such move. -/
  | noSuchAgent
  deriving DecidableEq, Repr

/-- Why a command has no meaning. -/
inductive Refusal where
  /-- An instruction that has no meaning yet. Raised by no arm of `exec`. Safe: the machine stops. -/
  | notModelled (mnemonic : String)
  deriving DecidableEq, Repr

/-- A ring after the block reset (R43 to R46, R451). -/
def Rb.reset : Rb where
  init := false
  cinit := false
  pending := false
  cap := 0
  ch := 0
  wr := 0
  rview := 0
  perr := 0
  rd := 0
  wview := 0
  cerr := 0
  mem := []

/-- A resampler after the block reset (R52, R451). -/
def Rs.reset : Rs where
  cfgd := false
  mode := .dec
  err := 0

/-- A spectral processor after the block reset (R53, R451); its arrays are absent (log entry 10). -/
def Ola.reset : Ola where
  rdy := false
  hop := []
  fill := 0
  hist := []
  acc := []
  nrm := []
  wo := 0
  ro := 0
  avail := 0
  pushed := 0
  popped := 0
  hops := 0
  err := 0

/-- A fabric at the start of a run: `ferr` is 0 (R42), its host has issued nothing. -/
def Fabric.reset : Fabric where
  ferr := 0
  queue := []
  done := []

/-- Nothing issued yet (log entry 4). -/
def Command.none : Command where
  dom := 0
  word := 0
  offered := []

/-- The machine of a configuration after the block reset (R450), at the start of a run. -/
def State.resetOf (c : Config) : State where
  cfg := c
  fabs := List.replicate c.nDom Fabric.reset
  rbs := List.replicate c.nRb Rb.reset
  rss := List.replicate c.nRs Rs.reset
  olas := List.replicate c.nOla Ola.reset
  cur := Command.none
  faults := []
  sched := []
  draws := 0

/-- The reference configuration after the block reset (R9, R451). -/
def State.reset : State := State.resetOf configReference

end Sys2Proof.Machine
end

