-- ==== Sys2Proof/Machine/Ops.lean ====
section
/-! DEFINITION. The named operations over storage, cursors, units and fabrics: reading and writing an array (R16), the
cursor arithmetic (R14, R101, R210), routing a command to its port (R152, R154, R163), completing a command (R18, R160)
and raising an error condition (R18, R407). -/

namespace Sys2Proof.Machine

/-! ## Storage arrays -/

/-- The word at an index, if anything has written it. -/
def Mem.read : Mem → Nat → Option Word
  | [], _ => none
  | (k, v) :: m, a => if a = k then some v else Mem.read m a

/-- MemWrite of one word (R16): the canonical form stays canonical. -/
def Mem.write : Mem → Nat → Word → Mem
  | [], a, w => [(a, w)]
  | (k, v) :: m, a, w =>
    if a < k then (a, w) :: (k, v) :: m else if a = k then (a, w) :: m else (k, v) :: Mem.write m a w

/-- MemRead of one word (R16): a word nothing has written is a free value (R46, I2 to I4; log entry 10). -/
def Mem.word (m : Mem) (a : Nat) : Word := (Mem.read m a).getD (Config.unwritten a)

/-- An array of n words, all +0.0 (R300). -/
def Mem.zeros (n : Nat) : Mem := (List.range n).map fun a => (a, fZero)

/-! ## Cursors -/

/-- dist_W(a, b): the forward distance from a to b on a W-bit cursor (R14). -/
def dist (w a b : Nat) : Nat := (b + (2 ^ w - a % 2 ^ w)) % 2 ^ w

/-- A W-bit cursor moved forward by n (R120). -/
def advance (w a n : Nat) : Nat := (a + n) % 2 ^ w

/-- The least power of two that is at least n, for n at least 1 (R14). -/
def nextPow2 (n : Nat) : Nat := if n ≤ 1 then 1 else 2 ^ (Nat.log2 (n - 1) + 1)

/-- slot(f) = f mod cap (R101). -/
def Rb.slot (rb : Rb) (f : Nat) : Nat := f % rb.cap

/-- availableToRead of the producer's snapshot (R210). -/
def Rb.psnapR (w : Nat) (rb : Rb) : Nat := dist w rb.rview rb.wr

/-- availableToWrite of the producer's snapshot (R210). -/
def Rb.psnapW (w : Nat) (rb : Rb) : Nat := rb.cap - rb.psnapR w

/-- availableToRead of the consumer's snapshot (R210). -/
def Rb.csnapR (w : Nat) (rb : Rb) : Nat := dist w rb.rd rb.wview

/-- availableToWrite of the consumer's snapshot (R210). -/
def Rb.csnapW (w : Nat) (rb : Rb) : Nat := rb.cap - rb.csnapR w

/-! ## Units -/

/-- Ring i. -/
def State.rb (s : State) (i : Nat) : Rb := s.rbs.getD i Rb.reset

/-- Replace ring i. -/
def State.setRb (s : State) (i : Nat) (r : Rb) : State := { s with rbs := s.rbs.set i r }

/-- Resampler j. -/
def State.rs (s : State) (j : Nat) : Rs := s.rss.getD j Rs.reset

/-- Replace resampler j. -/
def State.setRs (s : State) (j : Nat) (r : Rs) : State := { s with rss := s.rss.set j r }

/-- Spectral processor k. -/
def State.ola (s : State) (k : Nat) : Ola := s.olas.getD k Ola.reset

/-- Replace spectral processor k. -/
def State.setOla (s : State) (k : Nat) (o : Ola) : State := { s with olas := s.olas.set k o }

/-- The fabric of domain d. -/
def State.fab (s : State) (d : Nat) : Fabric := s.fabs.getD d Fabric.reset

/-- Replace the fabric of domain d. -/
def State.setFab (s : State) (d : Nat) (f : Fabric) : State := { s with fabs := s.fabs.set d f }

/-! ## Placement and routing -/

/-- PDOM[i]. -/
def producerDomain (c : Config) (i : Nat) : Nat := c.pdom.getD i 0

/-- CDOM[i]. -/
def consumerDomain (c : Config) (i : Nat) : Nat := c.cdom.getD i 0

/-- Both ports of ring i live in one domain (R125). -/
def sameDomain (c : Config) (i : Nat) : Bool := decide (producerDomain c i = consumerDomain c i)

/-- The domain a port lives in, if its instance exists (R152, R154, R133). -/
def homeDomain (c : Config) : Port → Option Nat
  | .rbp i => if i < c.nRb then some (producerDomain c i) else none
  | .rbc i => if i < c.nRb then some (consumerDomain c i) else none
  | .rs j => if j < c.nRs then some 0 else none
  | .ola k => if k < c.nOla then some 0 else none

/-- The port exists and lives in the domain that issues the current command (R162, R163). -/
def State.routes (s : State) (p : Port) : Bool := decide (homeDomain s.cfg p = some s.cur.dom)

/-! ## Completing a command -/

/-- The 2-bit value ST of a status (R161). -/
def Status.code : Status → BitVec 2
  | .ok => 0
  | .fail => 1
  | .illegal => 2
  | .error => 3

/-- The response of a completed command as the port carries it: ST and VAL (R160). -/
def Completion.response (c : Completion) : BitVec 2 × Word64 := (c.st.code, c.val)

/-- Deliver a completion to the host of domain d. -/
def State.complete (s : State) (d : Nat) (c : Completion) : State :=
  s.setFab d { s.fab d with done := (s.fab d).done ++ [c] }

/-- respond(st, val) of the current command, with what it took and delivered (R18, R106, R160). -/
def State.respond (s : State) (st : Status) (val : Word64) (taken : Nat) (out : List Word) : State :=
  s.complete s.cur.dom { st := st, val := val, taken := taken, out := out }

/-! ## Raising an error condition: the one way a command is refused. There is no return from it (R411, R412). -/

/-- The bit of a condition in an error register (R58). -/
def errBit : ErrKind → BitVec 32
  | .illegal => 0x1
  | .notInit => 0x2
  | .proto => 0x4
  | .hazard => 0x8
  | .ovr => 0x10

/-- The status a condition responds with: 2 for ILLEGAL, 3 otherwise (R407). -/
def errStatus : ErrKind → Status
  | .illegal => .illegal
  | .notInit => .error
  | .proto => .error
  | .hazard => .error
  | .ovr => .error

/-- Set the condition's bit in the charged register: a port's (R58), or the issuing domain's `ferr` (R42). -/
def State.setErr (s : State) (e : ErrKind) : Option Port → State
  | some (.rbp i) => s.setRb i { s.rb i with perr := (s.rb i).perr ||| errBit e }
  | some (.rbc i) => s.setRb i { s.rb i with cerr := (s.rb i).cerr ||| errBit e }
  | some (.rs j) => s.setRs j { s.rs j with err := (s.rs j).err ||| errBit e }
  | some (.ola k) => s.setOla k { s.ola k with err := (s.ola k).err ||| errBit e }
  | none => s.setFab s.cur.dom { s.fab s.cur.dom with ferr := (s.fab s.cur.dom).ferr ||| errBit e }

/-- Append the fault tuple (R407). -/
def State.record (s : State) (e : ErrKind) (p : Option Port) : State :=
  { s with faults := s.faults ++ [{ kind := e, dom := s.cur.dom, port := p, word := s.cur.word }] }

/-- raise E, charged to a port or, with `none`, to the issuing domain's `ferr` (R18, R407): the error bit, the fault
tuple and the refusal, with VAL 0 and no data moved; nothing else changes. -/
def State.raise (s : State) (e : ErrKind) (p : Option Port) : State :=
  ((s.setErr e p).record e p).respond (errStatus e) 0 0 []

/-- The register an ILLEGAL word is charged to: the port it names, if that exists in the issuing domain (R162). -/
def State.chargedTo (s : State) : Option Port → Option Port
  | some p => if s.routes p then some p else none
  | none => none

/-- Run a command on its port, or refuse it when the port does not exist in the issuing domain (R162, R163). -/
def State.onPort (s : State) (p : Port) (t : State) : State :=
  if s.routes p then t else s.raise .illegal none

end Sys2Proof.Machine
end

