-- ==== Sys2Proof/Machine/Flags.lean ====
section
/-! DEFINITION. The flags: FULL and EMPTY (R49, R50), hardware outputs too, and the flag words of the STAT registers
(R55 to R57). -/

namespace Sys2Proof.Machine

/-- FULL: the producer's snapshot has no room (R49). -/
def Rb.full (w : Nat) (rb : Rb) : Bool := rb.init && decide (dist w rb.rview rb.wr = rb.cap)

/-- EMPTY: the consumer's snapshot has no frame, or the ring is not initialised (R50). -/
def Rb.empty (rb : Rb) : Bool := !rb.cinit || decide (rb.wview = rb.rd)

/-- A flag word: bit 0 and bit 1, other bits 0. -/
def flagWord (bit0 bit1 : Bool) : Word64 := (BitVec.ofBool bit1 ++ BitVec.ofBool bit0).setWidth 64

/-- PFLAGS (R55). -/
def Rb.pflags (w : Nat) (rb : Rb) : Word64 := flagWord rb.init (rb.full w)

/-- CFLAGS (R56). -/
def Rb.cflags (rb : Rb) : Word64 := flagWord rb.cinit rb.empty

/-- The mode as a bit: DEC is 0, INT is 1 (R52). -/
def modeBit : RsMode → Bool
  | .dec => false
  | .int => true

/-- MODE (R57). -/
def Rs.modeWord (r : Rs) : Word64 := flagWord (modeBit r.mode) r.cfgd

/-- STATE of an OLA unit (R57). -/
def Ola.stateWord (o : Ola) : Word64 := flagWord o.rdy false

end Sys2Proof.Machine
end

