-- ==== Sys2Proof/Machine/Operands.lean ====
section
/-! DEFINITION. The operand and result forms: counts and register indexes (R155, R156), the offered data-in words (R17,
R106), the response value forms (R160) and the register maps of the STAT commands (R55 to R57). -/

namespace Sys2Proof.Machine

/-- An operand field as a count or index: unsigned, unscaled (R155, R156). -/
def count (a : BitVec 24) : Nat := a.toNat

/-- Word n of the current command's data-in stream (R17). -/
def State.dataIn (s : State) (n : Nat) : Word := s.cur.offered.getD n 0

/-- Whether the offered sequence has exactly the needed length (R106). -/
def State.offers (s : State) (needed : Nat) : Bool := decide (s.cur.offered.length = needed)

/-- A count as the response value (R160). -/
def countVal (n : Nat) : Word64 := BitVec.ofNat 64 n

/-- A register of the given width, zero-extended to 64 bits (R55 to R57, section 7 of 10_state.md). -/
def regVal (width n : Nat) : Word64 := (BitVec.ofNat width n).setWidth 64

/-- The packed availability: availW in bits 63:32, availR in bits 31:0 (R160). -/
def availVal (availR availW : Nat) : Word64 := BitVec.ofNat 32 availW ++ BitVec.ofNat 32 availR

/-- The producer-port status registers (R55); `none` is a reserved index. -/
def Rb.producerReg (w : Nat) (rb : Rb) : Nat → Option Word64
  | 0 => some (regVal 25 rb.cap)
  | 1 => some (regVal 4 rb.ch)
  | 2 => some (regVal 32 rb.wr)
  | 3 => some (regVal 32 rb.rview)
  | 4 => some (rb.pflags w)
  | 5 => some (rb.perr.setWidth 64)
  | _ => none

/-- The consumer-port status registers (R56). -/
def Rb.consumerReg (rb : Rb) : Nat → Option Word64
  | 0 => some (regVal 25 rb.cap)
  | 1 => some (regVal 4 rb.ch)
  | 2 => some (regVal 32 rb.rd)
  | 3 => some (regVal 32 rb.wview)
  | 4 => some rb.cflags
  | 5 => some (rb.cerr.setWidth 64)
  | _ => none

/-- The resampler status registers (R57). -/
def Rs.reg (r : Rs) : Nat → Option Word64
  | 0 => some r.modeWord
  | 1 => some (r.err.setWidth 64)
  | _ => none

/-- The spectral status registers (R57). -/
def Ola.reg (c : Config) (o : Ola) : Nat → Option Word64
  | 0 => some o.pushed
  | 1 => some o.popped
  | 2 => some o.hops
  | 3 => some (regVal 32 o.avail)
  | 4 => some (regVal 32 o.fill)
  | 5 => some (regVal 32 o.wo)
  | 6 => some (regVal 32 o.ro)
  | 7 => some (o.err.setWidth 64)
  | 8 => some (countVal c.olaN)
  | 9 => some (countVal c.olaHop)
  | 10 => some (countVal c.olaHist)
  | 11 => some (countVal c.olaPad)
  | 12 => some (countVal c.olaRing)
  | 13 => some (c.olaEps.setWidth 64)
  | 14 => some o.stateWord
  | _ => none

/-- What a STAT command does once nothing else refuses it: the register as the response value, or ILLEGAL for a reserved
index (R216, R226, R275, R330). -/
def State.answerReg (s : State) (p : Port) : Option Word64 → State
  | some v => s.respond .ok v 0 []
  | none => s.raise .illegal (some p)

end Sys2Proof.Machine
end

