-- ==== Sys2Proof/Machine/Agents.lean ====
section
/-! DEFINITION. What moves besides the commands themselves: a host taking its next command (R430), the word the decoder
refuses (R162), the cursor views (R124), the INIT acknowledge (R206), the block reset (R450) and the fair choice of an
agent (R27, log entry 2). -/

namespace Sys2Proof.Machine

/-! ## HOST[d] -/

/-- HOST[d] waits for the acknowledge of an RB.INIT it issued (R205, R430). -/
def State.held (s : State) (d : Nat) : Bool :=
  (List.range s.cfg.nRb).any fun i => decide (producerDomain s.cfg i = d) && (s.rb i).pending

/-- The command HOST[d] would issue now. -/
def State.nextRequest (s : State) (d : Nat) : Option Request :=
  if s.held d then none else (s.fab d).queue.head?

/-- HOST[d] issues a command: it leaves the queue and stands on the port (R110, R430). -/
def State.takeRequest (s : State) (d : Nat) (r : Request) : State :=
  { s.setFab d { s.fab d with queue := (s.fab d).queue.tail } with
    cur := { dom := d, word := r.word, offered := r.offered } }

/-- A word that spells no command: ILLEGAL, charged to the port it names if that exists in the domain, otherwise to
`ferr` (R162, R164). -/
def State.refuseWord (s : State) : State := s.raise .illegal (s.chargedTo (portOf s.cur.word))

/-! ## SYNC_W2R[i] and SYNC_R2W[i] -/

/-- The view a draw picks: every v with 0 < dist(view, v) <= dist(view, cursor) is some draw's, and no other (R124). -/
def syncTarget (w view cursor draw : Nat) : Nat := advance w view (1 + draw % dist w view cursor)

/-- SYNC_W2R[i] has a move (R124, R125). -/
def State.w2rEnabled (s : State) (i : Nat) : Bool :=
  !sameDomain s.cfg i && !(s.rb i).pending && decide ((s.rb i).wview ≠ (s.rb i).wr)

/-- SYNC_R2W[i] has a move (R124, R125). -/
def State.r2wEnabled (s : State) (i : Nat) : Bool :=
  !sameDomain s.cfg i && !(s.rb i).pending && decide ((s.rb i).rview ≠ (s.rb i).rd)

/-- A turn of SYNC_W2R[i]. -/
def State.syncW2R (s : State) (i draw : Nat) : State :=
  if s.w2rEnabled i then
    s.setRb i { s.rb i with wview := syncTarget s.cfg.ptrW (s.rb i).wview (s.rb i).wr draw }
  else s

/-- A turn of SYNC_R2W[i]. -/
def State.syncR2W (s : State) (i draw : Nat) : State :=
  if s.r2wEnabled i then
    s.setRb i { s.rb i with rview := syncTarget s.cfg.ptrW (s.rb i).rview (s.rb i).rd draw }
  else s

/-! ## INITACK[i] -/

/-- The consumer phase of RB.INIT on the ring (R206). -/
def Rb.acknowledged (rb : Rb) : Rb :=
  { rb with rd := 0, wview := 0, init := true, cinit := true, pending := false }

/-- A turn of INITACK[i]: the consumer phase, and the completion of the pending command of domain P (R206). -/
def State.initAck (s : State) (i : Nat) : State :=
  if (s.rb i).pending then
    (s.setRb i (s.rb i).acknowledged).complete (producerDomain s.cfg i)
      { st := .ok, val := countVal (s.rb i).cap, taken := 0, out := [] }
  else s

/-! ## The block reset -/

/-- The block reset input, asserted and released: every state element of R450 takes its reset value. The hosts' queues
and received completions, the fault set and the schedule are no state of the block and stay (log entry 15). -/
def State.blockReset (s : State) : State :=
  { State.resetOf s.cfg with
    fabs := s.fabs.map fun f => { f with ferr := 0 }
    faults := s.faults
    sched := s.sched
    draws := s.draws }

/-! ## Which agents there are, and the fair choice -/

/-- The agent exists in this machine (R23). -/
def State.agentExists (s : State) : Event → Bool
  | .host d => decide (d < s.cfg.nDom)
  | .initAck i => decide (i < s.cfg.nRb)
  | .syncW2R i _ => decide (i < s.cfg.nRb)
  | .syncR2W i _ => decide (i < s.cfg.nRb)
  | .blockReset => true

/-- The agent has a move now. -/
def State.enabled (s : State) : Event → Bool
  | .host d => (s.nextRequest d).isSome
  | .initAck i => (s.rb i).pending
  | .syncW2R i _ => s.w2rEnabled i
  | .syncR2W i _ => s.r2wEnabled i
  | .blockReset => false

/-- Every agent of the machine, with the given draw for its choice (R23). The hosts come last, so that a host which keeps
polling starves neither SYNC nor INITACK (R27, R233, R414). -/
def State.agents (s : State) (draw : Nat) : List Event :=
  (List.range s.cfg.nRb).map .initAck ++ (List.range s.cfg.nRb).map (.syncW2R · draw) ++
    (List.range s.cfg.nRb).map (.syncR2W · draw) ++ (List.range s.cfg.nDom).map .host

/-- When the schedule says nothing: the first agent that has a move, with a free draw (R27, log entry 2). -/
def State.fairEvent (s : State) : Option Event := (s.agents (Config.syncDraw s.draws)).find? s.enabled

/-- The domain whose host would issue a word: the home of the port it names, else domain 0. -/
def State.issuingDomain (s : State) (w : Word64) : Nat :=
  match portOf w with
  | some p => (homeDomain s.cfg p).getD 0
  | none => 0

/-- Put a command at the head of HOST[d]'s queue and give HOST[d] the next turn. -/
def State.submit (s : State) (d : Nat) (r : Request) : State :=
  { s.setFab d { s.fab d with queue := r :: (s.fab d).queue } with sched := .host d :: s.sched }

end Sys2Proof.Machine
end

