-- ==== Sys2Proof/Machine/Resampler.lean ====
section
/-! DEFINITION. The resampler commands: RS.CFG, RS.RESET, RS.RUN, RS.STAT (42_resampler.md). `draw n` gives the NaN of
the n-th arithmetic result of a call (R21). -/

namespace Sys2Proof.Machine

/-- mean3 (R265); its three results are numbered from n. -/
def mean3 (draw : Nat → BitVec 32) (n : Nat) (a b c : Word) : Word :=
  fdiv (draw (n + 2)) (fadd (draw (n + 1)) (fadd (draw n) a b) c) fThree

/-- The first n outputs of decimate mode (R264). -/
def decimate (draw : Nat → BitVec 32) (x : List Word) (n : Nat) : List Word :=
  (List.range n).map fun i => mean3 draw (3 * i) (x.getD (3 * i) 0) (x.getD (3 * i + 1) 0) (x.getD (3 * i + 2) 0)

/-- interp(x, A, j) with A the length of x (R268, R269); its four results are numbered from 4 j. -/
def interp (draw : Nat → BitVec 32) (x : List Word) (j : Nat) : Word :=
  let i := j / 3
  let xi := x.getD i 0
  if j % 3 = 0 ∨ i + 1 = x.length then xi
  else fadd (draw (4 * j + 3)) xi
    (fdiv (draw (4 * j + 2)) (fmul (draw (4 * j + 1)) (fsub (draw (4 * j)) (x.getD (i + 1) 0) xi) (int2f (j % 3))) fThree)

/-- The first n outputs of interpolate mode (R267). -/
def interpolate (draw : Nat → BitVec 32) (x : List Word) (n : Nat) : List Word := (List.range n).map (interp draw x)

/-- How many words an RS.RUN of a samples with output capacity b delivers (R263). -/
def runCount : RsMode → Nat → Nat → Nat
  | .dec, a, b => min (a / 3) b
  | .int, a, b => min (3 * a) b

/-- The words an RS.RUN delivers: a function of the mode, A, B and the offered words alone (R263, R276). -/
def runOut (mode : RsMode) (a b : Nat) (x : List Word) : List Word :=
  match mode with
  | .dec => decimate (Config.nanRun .dec a b x) x (runCount .dec a b)
  | .int => interpolate (Config.nanRun .int a b x) x (runCount .int a b)

/-- RS.CFG (R261). -/
def execRsCfg (inst : BitVec 4) (mode : RsMode) (s : State) : Host.Outcome State Fault Refusal :=
  let j := inst.toNat
  .next <| s.onPort (.rs j) <|
    (s.setRs j { s.rs j with mode := mode, cfgd := true }).respond .ok 0 0 []

/-- RS.RESET (R262): no architectural state to clear. -/
def execRsReset (inst : BitVec 4) (s : State) : Host.Outcome State Fault Refusal :=
  .next <| s.onPort (.rs inst.toNat) <| s.respond .ok 0 0 []

/-- RS.RUN (R263 to R270). -/
def execRsRun (inst : BitVec 4) (a b : BitVec 24) (s : State) : Host.Outcome State Fault Refusal :=
  let j := inst.toNat
  let r := s.rs j
  .next <| s.onPort (.rs j) <|
    if !r.cfgd then s.raise .notInit (some (.rs j))
    else if !s.offers (count a) then s.raise .proto (some (.rs j))
    else s.respond .ok (countVal (runCount r.mode (count a) (count b))) (count a)
      (runOut r.mode (count a) (count b) s.cur.offered)

/-- RS.STAT (R275). -/
def execRsStat (inst : BitVec 4) (a : BitVec 24) (s : State) : Host.Outcome State Fault Refusal :=
  let j := inst.toNat
  .next <| s.onPort (.rs j) <| s.answerReg (.rs j) ((s.rs j).reg (count a))

end Sys2Proof.Machine
end

