-- ==== Sys2Proof/Machine/RingProducer.lean ====
section
/-! DEFINITION. The producer-port commands of a ring: RB.INIT, RB.WRITE, RB.PAVAIL, RB.PSTAT (41_ring_buffer.md). -/

namespace Sys2Proof.Machine

/-- The capacity an RB.INIT request gives (R203). -/
def initCap (a : Nat) : Nat := nextPow2 (max a 2)

/-- Whether RB.INIT's arguments pass the check of R202. -/
def initAccepts (c : Config) (a b : Nat) : Bool :=
  decide (a ≠ 0) && decide (b ≠ 0) && decide (initCap a ≤ c.maxCap) && decide (b ≤ c.maxCh)

/-- The ring after an accepted RB.INIT's own step (R204): the producer phase, and in a same-domain ring the consumer
phase with it. The storage words become unwritten. -/
def Rb.initialised (same : Bool) (cap ch : Nat) (rb : Rb) : Rb :=
  if same then
    { rb with cap := cap, ch := ch, wr := 0, rview := 0, rd := 0, wview := 0, init := true, cinit := true, mem := [] }
  else
    { rb with cap := cap, ch := ch, wr := 0, rview := 0, init := false, cinit := false, pending := true, mem := [] }

/-- RB.INIT (R201 to R204). In a cross-domain ring the response comes with INITACK (R206). -/
def execRbInit (inst : BitVec 4) (a b : BitVec 24) (s : State) : Host.Outcome State Fault Refusal :=
  let i := inst.toNat
  .next <| s.onPort (.rbp i) <|
    if initAccepts s.cfg (count a) (count b) then
      let t := s.setRb i ((s.rb i).initialised (sameDomain s.cfg i) (initCap (count a)) (count b))
      if sameDomain s.cfg i then t.respond .ok (countVal (initCap (count a))) 0 [] else t
    else s.respond .fail 0 0 []

/-- The storage index of channel c of frame f (R101). -/
def Rb.wordIndex (rb : Rb) (f c : Nat) : Nat := rb.slot f * rb.ch + c

/-- Store k frames from the data-in words, frame-major, channel 0 first, at frame numbers from wr (R211, R213). -/
def Rb.storeFrames (rb : Rb) (data : Nat → Word) (k : Nat) : Mem :=
  (List.range (k * rb.ch)).foldl
    (fun m n => Mem.write m (rb.wordIndex (rb.wr + n / rb.ch) (n % rb.ch)) (data n)) rb.mem

/-- The ring after k frames were written (R211, R212, R125): store, then publish. -/
def Rb.written (w : Nat) (same : Bool) (data : Nat → Word) (k : Nat) (rb : Rb) : Rb :=
  { rb with
    mem := rb.storeFrames data k
    wr := advance w rb.wr k
    wview := if same then advance w rb.wr k else rb.wview }

/-- The frames an RB.WRITE of a frames moves (R211). -/
def Rb.writeCount (w a : Nat) (rb : Rb) : Nat := min a (rb.psnapW w)

/-- RB.WRITE (R211 to R214). -/
def execRbWrite (inst : BitVec 4) (a : BitVec 24) (s : State) : Host.Outcome State Fault Refusal :=
  let i := inst.toNat
  let rb := s.rb i
  let k := rb.writeCount s.cfg.ptrW (count a)
  .next <| s.onPort (.rbp i) <|
    if !rb.init then s.raise .notInit (some (.rbp i))
    else if !s.offers (count a * rb.ch) then s.raise .proto (some (.rbp i))
    else (s.setRb i (rb.written s.cfg.ptrW (sameDomain s.cfg i) s.dataIn k)).respond .ok (countVal k) (k * rb.ch) []

/-- RB.PAVAIL (R215). -/
def execRbPavail (inst : BitVec 4) (s : State) : Host.Outcome State Fault Refusal :=
  let i := inst.toNat
  let rb := s.rb i
  .next <| s.onPort (.rbp i) <|
    if !rb.init then s.raise .notInit (some (.rbp i))
    else s.respond .ok (availVal (rb.psnapR s.cfg.ptrW) (rb.psnapW s.cfg.ptrW)) 0 []

/-- RB.PSTAT (R216). -/
def execRbPstat (inst : BitVec 4) (a : BitVec 24) (s : State) : Host.Outcome State Fault Refusal :=
  let i := inst.toNat
  .next <| s.onPort (.rbp i) <| s.answerReg (.rbp i) ((s.rb i).producerReg s.cfg.ptrW (count a))

end Sys2Proof.Machine
end

