-- ==== Sys2Proof/Machine/RingConsumer.lean ====
section
/-! DEFINITION. The consumer-port commands of a ring: RB.READ, RB.CAVAIL, RB.CSTAT (41_ring_buffer.md). -/

namespace Sys2Proof.Machine

/-- The words of k frames from rd, frame-major, channel 0 first (R221). -/
def Rb.loadFrames (rb : Rb) (k : Nat) : List Word :=
  (List.range (k * rb.ch)).map fun n => Mem.word rb.mem (rb.wordIndex (rb.rd + n / rb.ch) (n % rb.ch))

/-- The ring after k frames were read (R221, R222, R125). -/
def Rb.consumed (w : Nat) (same : Bool) (k : Nat) (rb : Rb) : Rb :=
  { rb with
    rd := advance w rb.rd k
    rview := if same then advance w rb.rd k else rb.rview }

/-- The frames an RB.READ of a frames moves (R221). -/
def Rb.readCount (w a : Nat) (rb : Rb) : Nat := min a (rb.csnapR w)

/-- RB.READ (R221 to R223). -/
def execRbRead (inst : BitVec 4) (a : BitVec 24) (s : State) : Host.Outcome State Fault Refusal :=
  let i := inst.toNat
  let rb := s.rb i
  let k := rb.readCount s.cfg.ptrW (count a)
  .next <| s.onPort (.rbc i) <|
    if rb.pending then s.raise .hazard (some (.rbc i))
    else if !rb.cinit then s.raise .notInit (some (.rbc i))
    else (s.setRb i (rb.consumed s.cfg.ptrW (sameDomain s.cfg i) k)).respond .ok (countVal k) 0 (rb.loadFrames k)

/-- RB.CAVAIL (R225). -/
def execRbCavail (inst : BitVec 4) (s : State) : Host.Outcome State Fault Refusal :=
  let i := inst.toNat
  let rb := s.rb i
  .next <| s.onPort (.rbc i) <|
    if rb.pending then s.raise .hazard (some (.rbc i))
    else if !rb.cinit then s.raise .notInit (some (.rbc i))
    else s.respond .ok (availVal (rb.csnapR s.cfg.ptrW) (rb.csnapW s.cfg.ptrW)) 0 []

/-- RB.CSTAT (R226). -/
def execRbCstat (inst : BitVec 4) (a : BitVec 24) (s : State) : Host.Outcome State Fault Refusal :=
  let i := inst.toNat
  .next <| s.onPort (.rbc i) <|
    if (s.rb i).pending then s.raise .hazard (some (.rbc i))
    else s.answerReg (.rbc i) ((s.rb i).consumerReg (count a))

end Sys2Proof.Machine
end

