-- ==== Sys2Proof/Machine/Xform.lean ====
section
/-! DEFINITION. XFORM, the forward FFT, identity, inverse FFT composite of a hop cycle (R305, R311, R312). -/

namespace Sys2Proof.Machine

/-- A complex binary32 value: real and imaginary part. -/
abbrev Cplx := Word × Word

/-- Element k of the given XFORM (R311). X1 holds because it is a function of the input vector; X2 because an all +0.0
input keeps only the sign bit of the free value. -/
def xformGivenAt (a : List Word) (k : Nat) : Word :=
  if a.all (fun x => decide (x = fZero)) then Config.xformGiven a k &&& 0x80000000 else Config.xformGiven a k

/-- cmul of R312: four multiplies and two adds; `draw` numbers its six results from n. -/
def cmul (draw : Nat → BitVec 32) (n : Nat) (x y : Cplx) : Cplx :=
  (fsub (draw (n + 4)) (fmul (draw n) x.1 y.1) (fmul (draw (n + 1)) x.2 y.2),
   fadd (draw (n + 5)) (fmul (draw (n + 2)) x.1 y.2) (fmul (draw (n + 3)) x.2 y.1))

/-- cadd of R312. -/
def cadd (draw : Nat → BitVec 32) (n : Nat) (x y : Cplx) : Cplx :=
  (fadd (draw n) x.1 y.1, fadd (draw (n + 1)) x.2 y.2)

/-- csub of R312. -/
def csub (draw : Nat → BitVec 32) (n : Nat) (x y : Cplx) : Cplx :=
  (fsub (draw n) x.1 y.1, fsub (draw (n + 1)) x.2 y.2)

/-- The index k of the given number of bits, reversed (R312). -/
def bitReverse : Nat → Nat → Nat
  | 0, _ => 0
  | b + 1, k => k % 2 * 2 ^ b + bitReverse b (k / 2)

/-- Element k of a complex vector. -/
def celem (z : List Cplx) (k : Nat) : Cplx := z.getD k (fZero, fZero)

/-- `permute Z by bit-reversal` (R312). -/
def bitReversed (z : List Cplx) : List Cplx :=
  (List.range z.length).map fun k => celem z (bitReverse (Nat.log2 z.length) k)

/-- One output of the butterfly whose lower element is `lo`, at half-length `half`, with w = TW(t * (OLA_N / len)):
the upper half takes the difference (R312). The ten results of a butterfly are numbered from n. -/
def butterfly (draw : Nat → BitVec 32) (n : Nat) (tw : List Cplx) (z : List Cplx) (half lo : Nat) (upper : Bool) : Cplx :=
  let w := celem tw (lo % (2 * half) * (z.length / (2 * half)))
  let v := cmul draw n (celem z (lo + half)) w
  if upper then csub draw (n + 8) (celem z lo) v else cadd draw (n + 6) (celem z lo) v

/-- One butterfly stage, `len = 2 * half` (R312); the butterflies of a stage touch disjoint elements. -/
def fftStage (draw : Nat → BitVec 32) (n : Nat) (tw : List Cplx) (half : Nat) (z : List Cplx) : List Cplx :=
  (List.range z.length).map fun p =>
    if p % (2 * half) < half then butterfly draw (n + 10 * p) tw z half p false
    else butterfly draw (n + 10 * (p - half)) tw z half (p - half) true

/-- The butterfly stages, len = 2, 4, .. OLA_N, after the permutation (R312). -/
def fftStages (draw : Nat → BitVec 32) (n : Nat) (tw : List Cplx) (z : List Cplx) : List Cplx :=
  (List.range (Nat.log2 z.length)).foldl
    (fun y st => fftStage draw (n + 10 * z.length * st) tw (2 ^ st) y) (bitReversed z)

/-- f32(1 / n) for n a power of two, exact (R312). -/
def reciprocal (n : Nat) : Word := packF false (roundMag (2 ^ 149) n)

/-- `Re(fft(fft(a + 0i, -1), +1))` with the final 1/N scale (R312). -/
def xformFft (fwd inv : List Cplx) (a : List Word) : List Word :=
  let draw := Config.nanXform a
  let per := 10 * a.length * Nat.log2 a.length
  let y := fftStages draw 0 fwd (a.map fun x => (x, fZero))
  let z := fftStages draw per inv y
  (List.range z.length).map fun k => fmul (draw (2 * per + k)) (celem z k).1 (reciprocal a.length)

/-- XFORM of the configuration (R305, R311). -/
def xform (c : Config) (a : List Word) : List Word :=
  match c.xform with
  | .given => (List.range a.length).map (xformGivenAt a)
  | .ideal => a
  | .fft fwd inv => xformFft fwd inv a

end Sys2Proof.Machine
end

