-- ==== Sys2Proof/Machine/Spectral.lean ====
section
/-! DEFINITION. The spectral processor commands: OLA.RESET, OLA.PUSH with the hop cycle, OLA.POP, OLA.STAT
(43_spectral.md). Arithmetic results are numbered from the state's `draws` counter, so that each may draw its own NaN
(R21, log entry 6). -/

namespace Sys2Proof.Machine

/-- HANN[k] (R310). -/
def hannAt (c : Config) (k : Nat) : Word := c.hann.getD k fZero

/-! ## OLA.RESET -/

/-- The unit after OLA.RESET (R300): the error register and the hop array are left as they are. -/
def Ola.streaming (c : Config) (o : Ola) : Ola :=
  { o with
    fill := 0
    hist := Mem.zeros c.olaHist
    acc := Mem.zeros c.olaRing
    nrm := Mem.zeros c.olaRing
    wo := 0
    ro := 0
    avail := 0
    pushed := 0
    popped := 0
    hops := 0
    rdy := true }

/-- OLA.RESET (R300). -/
def execOlaReset (inst : BitVec 4) (s : State) : Host.Outcome State Fault Refusal :=
  let k := inst.toNat
  .next <| s.onPort (.ola k) <| (s.setOla k ((s.ola k).streaming s.cfg)).respond .ok 0 0 []

/-! ## The hop cycle -/

/-- Step 1, frame assembly (R303): zeros, history, new hop. -/
def Ola.frameWord (c : Config) (o : Ola) (k : Nat) : Word :=
  if k < c.olaPad then fZero
  else if k < c.olaPad + c.olaHist then Mem.word o.hist (k - c.olaPad)
  else Mem.word o.hop (k - c.olaPad - c.olaHist)

/-- Step 2, analysis window (R304). -/
def Ola.windowed (c : Config) (base : Nat) (o : Ola) : List Word :=
  (List.range c.olaN).map fun k => fmul (Config.nanDraw (base + 5 * k)) (o.frameWord c k) (hannAt c k)

/-- Step 4 for one array (R306): the n cells from `wo`, modulo the ring, each replaced by a function of its value. -/
def accumulate (ring wo n : Nat) (term : Nat → Word → Word) (m : Mem) : Mem :=
  (List.range n).foldl (fun m k => Mem.write m ((wo + k) % ring) (term k (Mem.word m ((wo + k) % ring)))) m

/-- What step 4 makes of an accumulator cell at frame index k, given the transformed frame y (R306). -/
def accTerm (c : Config) (base : Nat) (y : List Word) (k : Nat) (v : Word) : Word :=
  fadd (Config.nanDraw (base + 5 * k + 2)) v (fmul (Config.nanDraw (base + 5 * k + 1)) (y.getD k fZero) (hannAt c k))

/-- What step 4 makes of a normalisation cell at frame index k (R306): the squared window is added at every k. -/
def nrmTerm (c : Config) (base : Nat) (k : Nat) (v : Word) : Word :=
  fadd (Config.nanDraw (base + 5 * k + 4)) v (fmul (Config.nanDraw (base + 5 * k + 3)) (hannAt c k) (hannAt c k))

/-- Step 6, the history roll (R308). -/
def Ola.rolledHist (c : Config) (o : Ola) : Mem :=
  (List.range c.olaHist).map fun k =>
    (k, if k < c.olaHist - c.olaHop then Mem.word o.hist (k + c.olaHop)
        else Mem.word o.hop (k - (c.olaHist - c.olaHop)))

/-- How many results of a hop cycle may draw a NaN (R304, R306). -/
def cycleDraws (c : Config) : Nat := 5 * c.olaN

/-- hop_cycle() (R303 to R308), its results numbered from `base`. -/
def Ola.hopCycle (c : Config) (base : Nat) (o : Ola) : Ola :=
  let y := xform c (o.windowed c base)
  { o with
    acc := accumulate c.olaRing o.wo c.olaN (accTerm c base y) o.acc
    nrm := accumulate c.olaRing o.wo c.olaN (nrmTerm c base) o.nrm
    wo := (o.wo + c.olaHop) % c.olaRing
    avail := o.avail + c.olaHop
    hops := o.hops + 1
    hist := o.rolledHist c }

/-! ## OLA.PUSH -/

/-- One sample of OLA.PUSH's loop (R301), with the draw counter. -/
def pushSample (c : Config) (st : Ola × Nat) (x : Word) : Ola × Nat :=
  let o := { st.1 with hop := Mem.write st.1.hop st.1.fill x }
  if st.1.fill + 1 = c.olaHop then ({ o.hopCycle c st.2 with fill := 0 }, st.2 + cycleDraws c)
  else ({ o with fill := st.1.fill + 1 }, st.2)

/-- OLA.PUSH's loop over its data-in words, then the pushed counter (R301). -/
def pushAll (c : Config) (o : Ola) (draws : Nat) (xs : List Word) : Ola × Nat :=
  let r := xs.foldl (pushSample c) (o, draws)
  ({ r.1 with pushed := r.1.pushed + BitVec.ofNat 64 xs.length }, r.2)

/-- The hop cycles an OLA.PUSH of a samples runs (R301). -/
def Ola.pushCycles (c : Config) (o : Ola) (a : Nat) : Nat := (o.fill + a) / c.olaHop

/-- The last cycle of an OLA.PUSH of a samples would overrun the accumulator ring (R301, R309). -/
def Ola.overruns (c : Config) (o : Ola) (a : Nat) : Bool :=
  decide (1 ≤ o.pushCycles c a) && decide (c.olaRing < o.avail + (o.pushCycles c a - 1) * c.olaHop + c.olaN)

/-- OLA.PUSH (R301, R302, R309). -/
def execOlaPush (inst : BitVec 4) (a : BitVec 24) (s : State) : Host.Outcome State Fault Refusal :=
  let k := inst.toNat
  let o := s.ola k
  let r := pushAll s.cfg o s.draws s.cur.offered
  .next <| s.onPort (.ola k) <|
    if !o.rdy then s.raise .notInit (some (.ola k))
    else if !s.offers (count a) then s.raise .proto (some (.ola k))
    else if o.overruns s.cfg (count a) then s.raise .ovr (some (.ola k))
    else ({ s.setOla k r.1 with draws := r.2 }).respond .ok (countVal (o.pushCycles s.cfg (count a))) (count a) []

/-! ## OLA.POP -/

/-- The word a pop delivers from the cell at `ro` (R320, R321). -/
def Ola.popWord (c : Config) (draw : Nat) (o : Ola) : Word :=
  if flt (Mem.word o.nrm o.ro) c.olaEps then fZero
  else fdiv (Config.nanDraw draw) (Mem.word o.acc o.ro) (Mem.word o.nrm o.ro)

/-- The unit after the cell at `ro` is consumed: cleared, and `ro` moved on (R320, R322). -/
def Ola.popCell (c : Config) (o : Ola) : Ola :=
  { o with
    acc := Mem.write o.acc o.ro fZero
    nrm := Mem.write o.nrm o.ro fZero
    ro := (o.ro + 1) % c.olaRing }

/-- OLA.POP's loop for m samples (R320): the unit and the delivered words. -/
def popLoop (c : Config) : Nat → Nat → Ola → Ola × List Word
  | 0, _, o => (o, [])
  | m + 1, draw, o =>
    let r := popLoop c m (draw + 1) (o.popCell c)
    (r.1, o.popWord c draw :: r.2)

/-- The samples an OLA.POP of at most a delivers (R320). -/
def Ola.popCount (o : Ola) (a : Nat) : Nat := min a o.avail

/-- The unit and the delivered words after m samples are popped (R320). -/
def popAll (c : Config) (draws m : Nat) (o : Ola) : Ola × List Word :=
  let r := popLoop c m draws o
  ({ r.1 with avail := r.1.avail - m, popped := r.1.popped + BitVec.ofNat 64 m }, r.2)

/-- OLA.POP (R320 to R323). -/
def execOlaPop (inst : BitVec 4) (a : BitVec 24) (s : State) : Host.Outcome State Fault Refusal :=
  let k := inst.toNat
  let o := s.ola k
  let m := o.popCount (count a)
  let r := popAll s.cfg s.draws m o
  .next <| s.onPort (.ola k) <|
    if !o.rdy then s.raise .notInit (some (.ola k))
    else ({ s.setOla k r.1 with draws := s.draws + m }).respond .ok (countVal m) 0 r.2

/-! ## OLA.STAT -/

/-- OLA.STAT (R330). -/
def execOlaStat (inst : BitVec 4) (a : BitVec 24) (s : State) : Host.Outcome State Fault Refusal :=
  let k := inst.toNat
  .next <| s.onPort (.ola k) <| s.answerReg (.ola k) ((s.ola k).reg s.cfg (count a))

end Sys2Proof.Machine
end

