-- ==== Sys2Proof/Machine/Dispatch.lean ====
section
/-! DEFINITION. One arm per command: its meaning on the current command's data-in words, issuing domain and word. -/

namespace Sys2Proof.Machine

def exec (i : Instr) (s : State) : Host.Outcome State Fault Refusal :=
  match i with
  | .rbInit inst a b => Sys2Proof.Machine.execRbInit inst a b s
  | .rbWrite inst a => Sys2Proof.Machine.execRbWrite inst a s
  | .rbPavail inst => Sys2Proof.Machine.execRbPavail inst s
  | .rbPstat inst a => Sys2Proof.Machine.execRbPstat inst a s
  | .rbRead inst a => Sys2Proof.Machine.execRbRead inst a s
  | .rbCavail inst => Sys2Proof.Machine.execRbCavail inst s
  | .rbCstat inst a => Sys2Proof.Machine.execRbCstat inst a s
  | .rsCfg inst mode => Sys2Proof.Machine.execRsCfg inst mode s
  | .rsReset inst => Sys2Proof.Machine.execRsReset inst s
  | .rsRun inst a b => Sys2Proof.Machine.execRsRun inst a b s
  | .rsStat inst a => Sys2Proof.Machine.execRsStat inst a s
  | .olaReset inst => Sys2Proof.Machine.execOlaReset inst s
  | .olaPush inst a => Sys2Proof.Machine.execOlaPush inst a s
  | .olaPop inst a => Sys2Proof.Machine.execOlaPop inst a s
  | .olaStat inst a => Sys2Proof.Machine.execOlaStat inst a s

end Sys2Proof.Machine
end

