-- ==== Sys2Proof/Machine/Step.lean ====
section
/-! DEFINITION. One step of the machine: the agent whose turn it is moves (R23, R24). -/

namespace Sys2Proof.Machine

/-- The command on the port is decoded and executed, or refused as ILLEGAL (R162). -/
def runCommand (s : State) : Host.Outcome State Fault Refusal :=
  match decodeWord s.cur.word with
  | .ok i => exec i s
  | .error _ => .next s.refuseWord

/-- A turn of HOST[d]: it issues its next command, if it has one and is not held (R430). -/
def hostTurn (d : Nat) (s : State) : Host.Outcome State Fault Refusal :=
  match s.nextRequest d with
  | some r => runCommand (s.takeRequest d r)
  | none => .next s

/-- A turn of the agent an event names. An agent without a move leaves the state as it is (log entry 19). -/
def runEvent (e : Event) (s : State) : Host.Outcome State Fault Refusal :=
  if s.agentExists e then
    match e with
    | .host d => hostTurn d s
    | .initAck i => .next (s.initAck i)
    | .syncW2R i draw => .next (s.syncW2R i draw)
    | .syncR2W i draw => .next (s.syncR2W i draw)
    | .blockReset => .next s.blockReset
  else .fault .noSuchAgent

/-- One step: the agent the schedule names; when it names none, the fair choice; when no agent has a move, the block is
idle (R441). -/
def step (s : State) : Host.Outcome State Fault Refusal :=
  match s.sched with
  | e :: rest => runEvent e { s with sched := rest }
  | [] =>
    match s.fairEvent with
    | some e => runEvent e { s with draws := s.draws + 1 }
    | none => .next s

/-- The state with a word at the head of the command queue of the host that would issue it, and that host's turn next.
Every command is one 64-bit word (R150); bits above `nbits` are zero, and no data-in word is offered. -/
def State.withFetchWord (s : State) (nbits w : Nat) : State :=
  s.submit (s.issuingDomain (BitVec.ofNat 64 (w % 2 ^ nbits))) { word := BitVec.ofNat 64 (w % 2 ^ nbits), offered := [] }

end Sys2Proof.Machine
end

