-- ==== Sys2Proof/Machine/Crossing.lean ====
section
/-! DEFINITION. The Gray-coded cursor crossing as hardware structure (R120 to R123): one direction of one cross-domain
ring, as a small machine of its own. It is not part of `State`, because a model holds only the view (R47); the view rule
of Machine/Agents.lean (R124) stands for it. -/

namespace Sys2Proof.Machine

/-- The Gray code of a binary cursor: b XOR (b >> 1) (R121). -/
def gray {w : Nat} (b : BitVec w) : BitVec w := b ^^^ (b >>> 1)

/-- Gray back to binary: bit j is the XOR of bits j and above, so the word is the XOR of all its right shifts (R123). -/
def ungray {w : Nat} (g : BitVec w) : BitVec w := (List.range w).foldl (fun acc k => acc ^^^ (g >>> k)) 0

/-- One direction of the crossing: the cursor, its published copy (R121), the copy's value before its last change since
the last sample, and the synchroniser chain of Gray words, newest first (R122). -/
structure Crossing (w : Nat) where
  cursor : BitVec w
  bpub : BitVec w
  before : BitVec w
  chain : List (BitVec w)
  deriving DecidableEq, Repr

/-- After the block reset, with the given number of synchroniser stages (R450). -/
def Crossing.reset (w stages : Nat) : Crossing w where
  cursor := 0
  bpub := 0
  before := 0
  chain := List.replicate stages 0

/-- A command adds its frame count to the cursor in one step (R120). -/
def Crossing.command {w : Nat} (n : Nat) (x : Crossing w) : Crossing w := { x with cursor := x.cursor + BitVec.ofNat w n }

/-- A clock edge of the cursor's domain: the published copy steps by one towards the cursor (R121). -/
def Crossing.sourceEdge {w : Nat} (x : Crossing w) : Crossing w :=
  if x.bpub = x.cursor then x else { x with before := x.bpub, bpub := x.bpub + 1 }

/-- A clock edge of the other domain: the chain samples the exported Gray word. A sample that straddles a change takes the
value before it (`late`) or the value after it, never a mixture (R122). -/
def Crossing.sampleEdge {w : Nat} (late : Bool) (x : Crossing w) : Crossing w :=
  { x with before := x.bpub, chain := gray (if late then x.before else x.bpub) :: x.chain.dropLast }

/-- The view: the oldest word of the chain, back in binary (R123). -/
def Crossing.view {w : Nat} (x : Crossing w) : BitVec w := ungray (x.chain.getLastD 0)

/-- How far a value is ahead of the view. -/
def Crossing.ahead {w : Nat} (x : Crossing w) (b : BitVec w) : Nat := (b - x.view).toNat

/-- The order of a crossing: from the view through the chain and the published copy to the cursor nothing runs backward.
The list goes from the cursor down to the oldest sample. -/
def Crossing.inOrder {w : Nat} (x : Crossing w) : Prop :=
  x.chain ≠ [] ∧
  List.Pairwise (fun a b => b ≤ a) ((x.cursor :: x.bpub :: x.before :: x.chain.map ungray).map x.ahead)

end Sys2Proof.Machine
end

