-- ==== Sys2Proof/Machine/Engine.lean ====
section
/-! DEFINITION. The reference host of 44_host_pipeline.md, the DuplexEngine, as three threads over the machine's own step:
the control thread (`start()` and `stop()`), the worker and the playback callback. It is not block behaviour (R6): `step`
does not use it. Which thread moves next, what the devices answer, the agents of the block and the time are inputs, one
`Move` each (log entry 30). -/

namespace Sys2Proof.Machine.Engine

/-! ## The collaborators (R360) -/

/-- The processing variants (R361). -/
inductive Variant where
  | passthrough
  | resampleOnly
  | resampleAndSpectral
  deriving DecidableEq, Repr

/-- What the engine asks of its collaborators (R360). -/
inductive DeviceCall where
  | captureStart
  | captureStop
  /-- `read(buffer, maxFrames, timeoutNanos)`. -/
  | captureRead (maxFrames timeoutNanos : Nat)
  | playbackStart
  | playbackStop
  deriving DecidableEq, Repr

/-- What a collaborator answers (R360). -/
inductive DeviceAnswer where
  /-- A start or stop that worked. -/
  | done
  /-- A start or stop that failed; a read that timed out or failed. -/
  | failed
  /-- The interleaved words a read delivered. -/
  | frames (xs : List Word)
  deriving DecidableEq, Repr

/-- What `start()` finds: whether a source and a sink are attached, and the negotiated device parameters CH, FPB and RATE
(R360, R365). -/
structure Attached where
  capture : Bool
  playback : Bool
  channels : Nat
  burst : Nat
  rate : Nat
  deriving DecidableEq, Repr

/-- The diagnostic snapshot (R372): ring occupancies, cumulative counts, and the spectral counters since the previous
snapshot. -/
structure Snapshot where
  rings : List Nat
  overflow : BitVec 64
  underflow : BitVec 64
  hops : Word64
  pushed : Word64
  popped : Word64
  deriving DecidableEq, Repr

/-- What the engine hands to the outside. -/
inductive Note where
  /-- `start()` returned success or failure (R364). -/
  | started (ok : Bool)
  /-- `stop()` returned (R367). -/
  | stopped
  /-- `pullTo` returned: the words it delivered and the count it reported (R374). -/
  | played (out : List Word) (count : Nat)
  /-- A diagnostic snapshot (R372). -/
  | snapshot (s : Snapshot)
  /-- A stream did not stop: a diagnostic only (R367). -/
  | stopFailed (c : DeviceCall)
  deriving DecidableEq, Repr

/-! ## Host memory -/

/-- The engine's own state, shared by its threads (R361, R363, R364, R371, R372, R377); times are in milliseconds, the read
timeout in nanoseconds. `diagPeriod` is DIAG_PERIOD, at most 1000. -/
structure Duplex where
  variant : Variant
  readTimeout : Nat
  diagPeriod : Nat
  running : Bool
  channels : Nat
  burst : Nat
  rate : Nat
  overflow : BitVec 64
  underflow : BitVec 64
  started : Nat
  lastDiag : Nat
  lastHops : Word64
  lastPushed : Word64
  lastPopped : Word64
  deriving DecidableEq, Repr

/-- The engine before any `start()`. READ_TIMEOUT is an open parameter (R363, I23); the default variant is
ResampleAndSpectral (R361, D48); DIAG_PERIOD is its largest value (R363; log entry 33). -/
def Duplex.stopped (readTimeout : Nat) (variant : Variant := .resampleAndSpectral) : Duplex where
  variant := variant
  readTimeout := readTimeout
  diagPeriod := 1000
  running := false
  channels := 0
  burst := 0
  rate := 0
  overflow := 0
  underflow := 0
  started := 0
  lastDiag := 0
  lastHops := 0
  lastPushed := 0
  lastPopped := 0

/-- The overflow counter after a write of n frames of which k were taken (R371). -/
def Duplex.missed (e : Duplex) (n k : Nat) : Duplex := { e with overflow := e.overflow + BitVec.ofNat 64 (n - k) }

/-! ## Host constants (R363) -/

def capReq (rate : Nat) : Nat := rate / 5

def capReqMid (rate burst hop : Nat) : Nat := max (rate / 15) (burst / 3 + hop)

def primeBursts : Nat := 4

def warmupMs : Nat := 300

/-- The largest count of one command (R156). -/
def maxCount : Nat := 2 ^ 24 - 1

/-- A count split into counts one command can carry (R156, R374). -/
def pieces (n : Nat) : List Nat :=
  List.replicate (n / maxCount) maxCount ++ (if n % maxCount = 0 ∧ n ≠ 0 then [] else [n % maxCount])

/-! ## Threads -/

/-- The loop heads of the worker (R368, R369). -/
inductive Loop where
  /-- `loop while running`. -/
  | worker
  /-- `while (RB.CAVAIL rb0).availR >= FPB and (RB.PAVAIL rb2).availW >= FPB`. -/
  | drain
  /-- `while (RB.CAVAIL rb1).availR >= OLA_HOP`. -/
  | hops
  deriving DecidableEq, Repr

/-- A thread: its next action and what follows it. The threads' actions interleave in any order (R377). -/
inductive Thread where
  /-- The thread has returned. -/
  | finished
  /-- Issue a command in the thread's domain. -/
  | command (i : Instr) (data : List Word) (next : Completion → Thread)
  /-- Wait for the completion after the ones already seen (R205, R430). -/
  | await (seen : Nat) (next : Completion → Thread)
  /-- Call a collaborator. -/
  | device (c : DeviceCall) (next : DeviceAnswer → Thread)
  /-- Read and update host memory; what follows sees the value before the update. -/
  | memory (update : Duplex → Duplex) (next : Duplex → Thread)
  /-- `now()`. -/
  | clock (next : Nat → Thread)
  /-- Hand something to the outside. -/
  | note (n : Note) (next : Thread)
  /-- Spawn the worker thread. -/
  | spawn (next : Thread)
  /-- Wait until the worker thread has returned. -/
  | join (next : Thread)
  /-- Go to a loop head. -/
  | loop (l : Loop)

/-- The thread has returned. -/
def Thread.isFinished : Thread → Bool
  | .finished => true
  | _ => false

/-- A part of a thread that gives a value to what follows it. -/
abbrev Prog (α : Type) := Cont Thread α

/-- The thread that runs a program and returns. -/
def Prog.thread (p : Prog Unit) : Thread := p fun _ => .finished

def call (i : Instr) (data : List Word) : Prog Completion := fun k => .command i data k

def device (c : DeviceCall) : Prog DeviceAnswer := fun k => .device c k

def update (f : Duplex → Duplex) : Prog Unit := fun k => .memory f fun _ => k ()

def memory : Prog Duplex := fun k => .memory id k

def clock : Prog Nat := fun k => .clock k

def note (n : Note) : Prog Unit := fun k => .note n (k ())

def spawn : Prog Unit := fun k => .spawn (k ())

def join : Prog Unit := fun k => .join (k ())

/-- Leave the program for a loop head. -/
def jump (l : Loop) : Prog Unit := fun _ => .loop l

/-- availR of a packed response (R160). -/
def availR (c : Completion) : Nat := (c.val.extractLsb' 0 32).toNat

/-- availW of a packed response (R160). -/
def availW (c : Completion) : Nat := (c.val.extractLsb' 32 32).toNat

/-- A count in an operand field (R156). A count that does not fit cannot be expressed; `start()` lets none arise
(`expressible`). -/
def field (n : Nat) : BitVec 24 := BitVec.ofNat 24 n

/-! ## start() and stop(), on HOST[0] -/

/-- The greatest counts of the commands of an engine of this variant that cannot be split as R156 has it: the RB.INITs of
R365, and of R369 and R381 the RS.RUNs and the hop. -/
def unsplit (v : Variant) (hop : Nat) (a : Attached) : List Nat :=
  [capReq a.rate, capReqMid a.rate a.burst hop, a.channels] ++
    match v with
    | .passthrough => []
    | .resampleOnly => [a.burst]
    | .resampleAndSpectral => [a.burst, 3 * hop]

/-- These counts fit a command. The spec does not say what the host does where one does not: `start()` returns failure
then. DESIGN CHOICE, log entry 34. -/
def expressible (v : Variant) (hop : Nat) (a : Attached) : Bool :=
  (unsplit v hop a).all fun n => decide (n ≤ maxCount)

/-- RB.READs of the given counts: the frames read and their words (R156). -/
def readRing (i : BitVec 4) : List Nat → Prog (Nat × List Word)
  | [] => return (0, [])
  | n :: ns => do
    let c ← call (.rbRead i (field n)) []
    let (k, data) ← readRing i ns
    return (c.val.toNat + k, c.out ++ data)

/-- RB.WRITEs of the given counts of frames of ch words: the frames taken (R156). -/
def writeRing (i : BitVec 4) (ch : Nat) (xs : List Word) : List Nat → Prog Nat
  | [] => return 0
  | n :: ns => do
    let c ← call (.rbWrite i (field n)) (xs.take (n * ch))
    let k ← writeRing i ch (xs.drop (n * ch)) ns
    return c.val.toNat + k

/-- Priming: bursts of silence into rb2 (R366). -/
def prime (a : Attached) : Prog Unit := do
  let n := primeBursts * a.burst
  let _ ← writeRing 2 a.channels (List.replicate (n * a.channels) fZero) (pieces n)

/-- The RB.INITs of R365, up to the first that fails: whether none failed. -/
def initRings (hop : Nat) (a : Attached) : Prog Bool := do
  let c ← call (.rbInit 0 (field (capReq a.rate)) (field a.channels)) []
  if c.st ≠ .ok then return false
  let c ← call (.rbInit 1 (field (capReqMid a.rate a.burst hop)) (field 1)) []
  if c.st ≠ .ok then return false
  let c ← call (.rbInit 2 (field (capReq a.rate)) (field a.channels)) []
  return decide (c.st = .ok)

/-- The unit commands and the counters of R365. The counters of the last snapshot start at 0, as OLA.RESET leaves the
unit's own (log entry 33). -/
def prepare (a : Attached) : Prog Unit := do
  prime a
  let _ ← call (.rsCfg 0 .dec) []
  let _ ← call (.rsCfg 1 .int) []
  let _ ← call (.olaReset 0) []
  let t ← clock
  update fun e => { e with
    overflow := 0, underflow := 0, started := t, lastDiag := t, lastHops := 0, lastPushed := 0, lastPopped := 0 }

/-- The devices' start, with the rollback of R364 and R365. -/
def startDevices : Prog Bool := do
  if (← device .captureStart) = .failed then return false
  if (← device .playbackStart) = .failed then
    let _ ← device .captureStop
    return false
  return true

/-- The steps of R365 after the attached devices are known to be there. -/
def startAttached (v : Variant) (hop : Nat) (a : Attached) : Prog Bool := do
  update fun e => { e with channels := a.channels, burst := a.burst, rate := a.rate }
  if !expressible v hop a then return false
  if !(← initRings hop a) then return false
  prepare a
  if !(← startDevices) then return false
  update fun e => { e with running := true }
  spawn
  return true

/-- `start()` (R364, R365). The spec gives it from Stopped only: on an engine that is Running it returns failure and does
nothing. DESIGN CHOICE, log entry 32. -/
def start (hop : Nat) (a : Attached) : Prog Unit := do
  let e ← memory
  if e.running || !a.capture || !a.playback then note (.started false)
  else note (.started (← startAttached e.variant hop a))

/-- Stop a stream; a failure is a diagnostic only (R367). -/
def requestStop (c : DeviceCall) : Prog Unit := do
  if (← device c) = .failed then note (.stopFailed c)

/-- `stop()` (R367): idempotent; it clears `running`, joins the worker, stops both streams, and issues no command. -/
def stop : Prog Unit := do
  let e ← memory
  if e.running then
    update fun e => { e with running := false }
    join
    requestStop .captureStop
    requestStop .playbackStop
  note .stopped

/-! ## The worker, on HOST[0] -/

/-- Channel c of interleaved frames (R369). -/
def deinterleave (ch c : Nat) (xs : List Word) : List Word :=
  (List.range (xs.length / ch)).map fun f => xs.getD (f * ch + c) fZero

/-- Interleave channels of n samples (R369, R381). -/
def interleave (n : Nat) (channels : List (List Word)) : List Word :=
  (List.range n).flatMap fun t => channels.map fun u => u.getD t fZero

/-- The mixdown of one time instant (R370): the sum left to right, divided by the count; one channel is unchanged. -/
def mix (draw : Nat → BitVec 32) : List Word → Word
  | [] => fZero
  | [v] => v
  | v :: vs =>
    fdiv (draw 0) (((List.range vs.length).zip vs).foldl (fun acc p => fadd (draw (p.1 + 1)) acc p.2) v)
      (int2f (vs.length + 1))

/-- Mix decimated channels of n samples to mono (R369, R370). -/
def mixdown (n : Nat) (channels : List (List Word)) : List Word :=
  (List.range n).map fun t =>
    let xs := channels.map fun u => u.getD t fZero
    mix (Config.nanHost xs) xs

/-- What a capture read gave: the count of frames, at most `maxFrames`, and their words; `none` is a timeout or an error
(R360, R368, R376). -/
def captured (channels maxFrames : Nat) : DeviceAnswer → Option (Nat × List Word)
  | .frames xs =>
    let n := min (xs.length / channels) maxFrames
    some (n, xs.take (n * channels))
  | .done => none
  | .failed => none

/-- The body of the worker loop up to its inner loop (R368): `running` is read once per iteration (R378), a read asks for
FPB frames. -/
def workerBody : Prog Unit := do
  let e ← memory
  if e.running then
    match captured e.channels e.burst (← device (.captureRead e.burst e.readTimeout)) with
    | none => jump .worker
    | some (n, xs) =>
      let k ← writeRing 0 e.channels xs (pieces n)
      update (·.missed n k)
      jump .drain

/-- Decimate one channel of a burst with rs0 (R369). -/
def decimateChannel (e : Duplex) (x : List Word) (c : Nat) : Prog (List Word) := do
  let r ← call (.rsRun 0 (field e.burst) (field (e.burst / 3))) (deinterleave e.channels c x)
  return r.out

/-- Take one channel of a burst down and up again, before the next channel (R381). -/
def roundTripChannel (e : Duplex) (x : List Word) (c : Nat) : Prog (List Word) := do
  let d ← decimateChannel e x c
  let r ← call (.rsRun 1 (field (e.burst / 3)) (field (3 * (e.burst / 3)))) d
  return r.out

/-- Write n frames to the output ring and count what it refuses (R369, R371, R381). -/
def writeOutput (e : Duplex) (n : Nat) (xs : List Word) : Prog Unit := do
  let k ← writeRing 2 e.channels xs (pieces n)
  update (·.missed n k)

/-- `drain_burst()` of a variant (R369, R381), which goes on at the loop over hops or at the loop over bursts. -/
def drainBurst (e : Duplex) : Prog Unit := do
  let (_, x) ← readRing 0 (pieces e.burst)
  let d := e.burst / 3
  match e.variant with
  | .passthrough =>
    writeOutput e e.burst x
    jump .drain
  | .resampleOnly =>
    let us ← (List.range e.channels).mapM (roundTripChannel e x)
    writeOutput e (3 * d) (interleave (3 * d) us)
    jump .drain
  | .resampleAndSpectral =>
    let ds ← (List.range e.channels).mapM (decimateChannel e x)
    let _ ← call (.rbWrite 1 (field d)) (mixdown d ds)
    jump .hops

/-- One hop through the spectral processor into the output ring (R369). -/
def spectralHop (hop : Nat) (e : Duplex) : Prog Unit := do
  let h ← call (.rbRead 1 (field hop)) []
  let _ ← call (.olaPush 0 (field hop)) h.out
  let y ← call (.olaPop 0 (field hop)) []
  let m := y.val.toNat
  let u ← call (.rsRun 1 (field m) (field (3 * m))) y.out
  writeOutput e (3 * m) (interleave (3 * m) (List.replicate e.channels u.out))

/-- The loop over hops (R369). -/
def hopsBody (hop : Nat) : Prog Unit := do
  let a ← call (.rbCavail 1) []
  if hop ≤ availR a then
    spectralHop hop (← memory)
    jump .hops
  else jump .drain

/-- A diagnostic snapshot (R372): the reads, and host memory with the counters to compare the next one with. -/
def emitDiagnostics (t : Nat) : Prog Unit := do
  let r0 ← call (.rbCavail 0) []
  let r1 ← call (.rbCavail 1) []
  let r2 ← call (.rbPavail 2) []
  let h ← call (.olaStat 0 2) []
  let p ← call (.olaStat 0 0) []
  let q ← call (.olaStat 0 1) []
  let e ← memory
  update fun e => { e with lastDiag := t, lastHops := h.val, lastPushed := p.val, lastPopped := q.val }
  note (.snapshot {
    rings := [availR r0, availR r1, availR r2]
    overflow := e.overflow
    underflow := e.underflow
    hops := h.val - e.lastHops
    pushed := p.val - e.lastPushed
    popped := q.val - e.lastPopped })

/-- `maybe_emit_diagnostics()` (R368, R372): a snapshot when DIAG_PERIOD has passed since the last. -/
def maybeEmitDiagnostics : Prog Unit := do
  let t ← clock
  let e ← memory
  if e.lastDiag + e.diagPeriod ≤ t then emitDiagnostics t

/-- The loop over bursts (R368); when it ends the diagnostics follow and the worker loop goes round. -/
def drainBody : Prog Unit := do
  let a ← call (.rbCavail 0) []
  let b ← call (.rbPavail 2) []
  let e ← memory
  if e.burst ≤ availR a ∧ e.burst ≤ availW b then drainBurst e
  else
    maybeEmitDiagnostics
    jump .worker

/-- What stands at a loop head. -/
def loopBody (hop : Nat) : Loop → Thread
  | .worker => workerBody.thread
  | .drain => drainBody.thread
  | .hops => (hopsBody hop).thread

/-! ## The playback pull, on HOST[1] -/

/-- What `pullTo` makes of the k frames it read (R374): the delivered words and the engine with its underflow count. -/
def pullResult (e : Duplex) (now n k : Nat) (data : List Word) : Duplex × List Word :=
  (if e.started + warmupMs ≤ now then { e with underflow := e.underflow + BitVec.ofNat 64 (n - k) } else e,
   data ++ List.replicate ((n - k) * e.channels) fZero)

/-- `pullTo(out, numFrames)` (R374); it reports the full count. -/
def pullTo (n : Nat) : Prog Unit := do
  let (k, data) ← readRing 2 (pieces n)
  let t ← clock
  let e ← memory
  update fun e => (pullResult e t n k data).1
  note (.played (pullResult e t n k data).2 n)

/-! ## The threads together (R377) -/

/-- The machine, host memory, the time, the device calls and the notes so far, whether the sink calls `pullTo`, and the
three threads. HOST[0] runs the control thread and the worker, HOST[1] the callback (R362). -/
structure World where
  machine : State
  host : Duplex
  now : Nat
  devices : List DeviceCall
  notes : List Note
  rendering : Bool
  control : Thread
  worker : Thread
  callback : Thread

/-- Before the first `start()`. -/
def World.boot (s : State) (e : Duplex) : World where
  machine := s
  host := e
  now := 0
  devices := []
  notes := []
  rendering := false
  control := .finished
  worker := .finished
  callback := .finished

/-- One event of the machine, the schedule left as it was. -/
def turn (s : State) (e : Event) : Option State :=
  match step { s with sched := e :: s.sched } with
  | .next t => some t
  | _ => none

/-- HOST[d] issues a command now. -/
def issue (s : State) (d : Nat) (r : Request) : Option State :=
  match step (s.submit d r) with
  | .next t => some t
  | _ => none

/-- A thread of domain d that has seen so many completions goes on with the next one, if it is there. -/
def resume (s : State) (d seen : Nat) (next : Completion → Thread) : Thread :=
  match (s.fab d).done[seen]? with
  | some c => next c
  | none => .await seen next

/-- The sink calls `pullTo` from a start that worked to a stop that worked (R360) or to the next `start()`
(`World.callStart`). -/
def renders (c : DeviceCall) (a : DeviceAnswer) (before : Bool) : Bool :=
  match c, a with
  | _, .failed => before
  | .playbackStart, _ => true
  | .playbackStop, _ => false
  | _, _ => before

/-- A turn of a thread of domain d: its next action. A device call it makes is answered as given. A thread that cannot
move (its host is held, no completion, no end of the worker) stays as it is. `none` where the machine stops. -/
def Thread.turn (d : Nat) (a : DeviceAnswer) (w : World) : Thread → Option (Thread × World)
  | .finished => some (.finished, w)
  | .command i data next =>
    if w.machine.held d then some (.command i data next, w)
    else (issue w.machine d { word := encode i, offered := data }).map fun s =>
      (resume s d (w.machine.fab d).done.length next, { w with machine := s })
  | .await seen next => some (resume w.machine d seen next, w)
  | .device c next =>
    some (next a, { w with devices := w.devices ++ [c], rendering := renders c a w.rendering })
  | .memory f next => some (next w.host, { w with host := f w.host })
  | .clock next => some (next w.now, w)
  | .note n next => some (next, { w with notes := w.notes ++ [n] })
  | .spawn next => some (next, { w with worker := .loop .worker })
  | .join next => some (if w.worker.isFinished then next else .join next, w)
  | .loop l => some (loopBody w.machine.cfg.olaHop l, w)

/-- What happens next. -/
inductive Move where
  /-- The application calls `start()` with what is attached. -/
  | start (a : Attached)
  /-- The application calls `stop()`, or tears the engine down (R367). -/
  | stop
  /-- The sink calls `pullTo` for so many frames (R360). -/
  | pull (frames : Nat)
  /-- A turn of the control thread. -/
  | control (a : DeviceAnswer)
  /-- A turn of the worker. -/
  | worker (a : DeviceAnswer)
  /-- A turn of the callback. -/
  | callback
  /-- A turn of an agent of the block. -/
  | agent (e : Event)
  /-- So many milliseconds pass. -/
  | tick (ms : Nat)
  deriving DecidableEq, Repr

/-- `start()` may run: no call of the application is under way, and, unless the engine is Running and the call fails, no
callback is running (R365). -/
def World.mayStart (w : World) : Bool := w.control.isFinished && (w.host.running || w.callback.isFinished)

/-- The application calls `start()`. On a Stopped engine the sink does not render from here to the start of playback, as
R365 and R374 have it, even where an earlier request to stop it failed (R367): the spec does not say what such a sink
does. DESIGN CHOICE, log entry 35. -/
def World.callStart (w : World) (a : Attached) : World :=
  { w with
    rendering := w.host.running && w.rendering
    control := (Engine.start w.machine.cfg.olaHop a).thread }

/-- One move. A call that comes while the thread it runs on is busy has to wait: it changes nothing. -/
def World.move (w : World) : Move → Option World
  | .start a => some (if w.mayStart then w.callStart a else w)
  | .stop => some (if w.control.isFinished then { w with control := Engine.stop.thread } else w)
  | .pull n => some (if w.rendering && w.callback.isFinished then { w with callback := (pullTo n).thread } else w)
  | .control a => (w.control.turn 0 a w).map fun p => { p.2 with control := p.1 }
  | .worker a => (w.worker.turn 0 a w).map fun p => { p.2 with worker := p.1 }
  | .callback => (w.callback.turn 1 .done w).map fun p => { p.2 with callback := p.1 }
  | .agent e => (Engine.turn w.machine e).map fun s => { w with machine := s }
  | .tick ms => some { w with now := w.now + ms }

/-- Some moves in turn. -/
def World.moves (w : World) (ms : List Move) : Option World := ms.foldlM World.move w

end Sys2Proof.Machine.Engine
end

