-- ==== Sys2Proof/Safety.lean ====
section
/-! DEFINITION. What claims are stated in: legal parameters (R9), the invariants of a ring (R48, R103, R124, R125), of a
spectral unit (R54, R322, R340) and of the machine, what a command leaves unchanged, and when a run is at an end
(R406, R432). -/

namespace Sys2Proof.Machine

/-! ## Legal parameters -/

/-- The constraints of R9, and what R310 says of HANN and R311 of XFORM. OLA_RING is at most 2^32 because the offsets into the ring are
32-bit registers (R53; DEDUCED, log entry 24). -/
structure Legal (c : Config) : Prop where
  domains : 1 ≤ c.nDom
  rings : 1 ≤ c.nRb ∧ c.nRb ≤ 16
  resamplers : 1 ≤ c.nRs ∧ c.nRs ≤ 16
  spectral : 1 ≤ c.nOla ∧ c.nOla ≤ 16
  placed : ∀ i < c.nRb, producerDomain c i < c.nDom ∧ consumerDomain c i < c.nDom
  capacity : ∃ k, 1 ≤ k ∧ k ≤ 24 ∧ c.maxCap = 2 ^ k
  channels : 1 ≤ c.maxCh ∧ c.maxCh ≤ 15
  pointers : Nat.log2 c.maxCap + 1 ≤ c.ptrW ∧ c.ptrW ≤ 32
  stages : 2 ≤ c.syncStages
  length : ∃ k, c.olaN = 2 ^ k
  parts : c.olaN = c.olaPad + c.olaHist + c.olaHop
  hops : 1 ≤ c.olaHop ∧ c.olaHop ≤ c.olaHist
  accumulator : c.olaN + c.olaHop ≤ c.olaRing ∧ c.olaRing ≤ 2 ^ 32
  epsilon : isFinite c.olaEps = true ∧ flt fZero c.olaEps = true
  windowLength : c.hann.length = c.olaN
  windowSymmetric : ∀ k < c.olaN, hannAt c k = hannAt c (c.olaN - 1 - k)
  windowEnds : hannAt c 0 = fZero
  /-- `+0.0 <= HANN[k] <= 1.0`, read in the order of `flt` (R19): no NaN, not less than +0.0, not greater than 1.0. The
  spec defines no binary32 `<=`; under this reading -0.0 is a legal window word. DESIGN CHOICE, log entry 31. -/
  windowRange : ∀ k < c.olaN,
    isNaN (hannAt c k) = false ∧ flt (hannAt c k) fZero = false ∧ flt fOne (hannAt c k) = false
  /-- X2 of R311. It holds of XFORM_ID and of the given XFORM anyway, and of the computation of R312 when its twiddle
  factors are finite. -/
  transform : ∀ y ∈ xform c (List.replicate c.olaN fZero), isZero y = true

/-! ## Invariants -/

/-- An error register holds nothing but the five bits of R58. -/
def errClean (e : BitVec 32) : Prop := e &&& 0xFFFFFFE0 = 0

/-- The frames read since INIT, as R45 defines the read cursor. While an RB.INIT is pending that is none, although R204
leaves the register as it was and R206 clears it (DEDUCED, log entry 12). -/
def Rb.rdSinceInit (rb : Rb) : Nat := if rb.pending then 0 else rb.rd

/-- The consumer's view of the frames written since INIT, likewise (R45, log entry 12). -/
def Rb.wviewSinceInit (rb : Rb) : Nat := if rb.pending then 0 else rb.wview

/-- What every step keeps of ring i. R204 resets wr one step before R206 resets rd, so the cursors are those since INIT
(log entry 12). -/
structure RingInv (c : Config) (i : Nat) (rb : Rb) : Prop where
  /-- The capacity is a power of two in 2..MAX_CAP, or 0 before the first INIT (R43). -/
  capacity : rb.cap = 0 ∨ ∃ k, 1 ≤ k ∧ rb.cap = 2 ^ k
  capacityMax : rb.cap ≤ c.maxCap
  channelsMax : rb.ch ≤ c.maxCh
  /-- An initialised ring has a capacity and channels (R43, R202). -/
  configured : rb.init = true → 2 ≤ rb.cap ∧ 1 ≤ rb.ch
  /-- The two sides are initialised together (R204, R206). -/
  sides : rb.init = rb.cinit
  /-- A pending INIT: cross-domain, configured, nothing written (R204, R205). -/
  pending : rb.pending = true →
    sameDomain c i = false ∧ rb.init = false ∧ 2 ≤ rb.cap ∧ 1 ≤ rb.ch ∧ rb.wr = 0 ∧ rb.rview = 0 ∧ rb.mem = []
  /-- The cursors and views are PTR_W bits wide (R44, R45). -/
  widths : rb.wr < 2 ^ c.ptrW ∧ rb.rview < 2 ^ c.ptrW ∧ rb.rd < 2 ^ c.ptrW ∧ rb.wview < 2 ^ c.ptrW
  /-- At every step, from rview through rd and wview to wr nothing runs backward, and the whole way is at most the
  capacity: R48, and that a view never passes its cursor (R124). -/
  order : dist c.ptrW rb.rview rb.rdSinceInit + dist c.ptrW rb.rdSinceInit rb.wviewSinceInit +
    dist c.ptrW rb.wviewSinceInit rb.wr ≤ rb.cap
  /-- The consumer's registers are never further apart than the largest capacity, while an INIT is pending either: then
  they are as the capacity before it left them (R48, R204). -/
  consumer : dist c.ptrW rb.rd rb.wview ≤ c.maxCap
  /-- A same-domain ring has exact views (R125). -/
  exact : sameDomain c i = true → rb.wview = rb.wr ∧ rb.rview = rb.rd
  /-- Every word of every unread frame has been written (R103, R131). -/
  written : rb.pending = false → ∀ f < dist c.ptrW rb.rd rb.wr, ∀ ch < rb.ch,
    (Mem.read rb.mem (rb.wordIndex (rb.rd + f) ch)).isSome = true
  /-- The storage is in canonical form and inside the first cap * ch words (R46). -/
  canonical : Mem.wf rb.mem = true
  inside : ∀ p ∈ rb.mem, p.1 < rb.cap * rb.ch
  errors : errClean rb.perr ∧ errClean rb.cerr

/-- The normalisation of stream position p after n hop frames (R54): the squared window values of the frames that overlap
p, frame f starting at OLA_HOP * f, added in the order of the frames to +0.0. No result of these operations is a NaN, so
the draw is of no account. -/
def normAt (c : Config) (n p : Nat) : Word :=
  (List.range n).foldl (fun acc f =>
    if f * c.olaHop ≤ p ∧ p < f * c.olaHop + c.olaN then
      fadd 0 acc (fmul 0 (hannAt c (p - f * c.olaHop)) (hannAt c (p - f * c.olaHop)))
    else acc) fZero

/-- What every step keeps of a spectral unit. -/
structure SpectralInv (c : Config) (o : Ola) : Prop where
  /-- The ranges of R53. -/
  fillRange : o.fill < c.olaHop
  woRange : o.wo < c.olaRing
  roRange : o.ro < c.olaRing
  /-- No cycle ever started with avail + OLA_N above OLA_RING (R309). -/
  room : o.avail + c.olaN ≤ c.olaRing + c.olaHop
  /-- wo = (ro + avail) mod OLA_RING (R54, R340). -/
  offsets : o.wo = (o.ro + o.avail) % c.olaRing
  /-- pushed = OLA_HOP * hops + fill, modulo 2^64 (R54, R302). -/
  pushedCount : o.pushed = BitVec.ofNat 64 c.olaHop * o.hops + BitVec.ofNat 64 o.fill
  /-- What was popped and what is available make up the hops so far, modulo 2^64 (R340). -/
  poppedCount : BitVec.ofNat 64 c.olaHop * o.hops = o.popped + BitVec.ofNat 64 o.avail
  /-- Once OLA.RESET has run, every array word a cycle or a pop reads is defined (R300, R451). -/
  histDefined : o.rdy = true → ∀ k < c.olaHist, (Mem.read o.hist k).isSome = true
  hopDefined : ∀ k < o.fill, (Mem.read o.hop k).isSome = true
  accDefined : o.rdy = true → ∀ p < c.olaRing, (Mem.read o.acc p).isSome = true
  nrmDefined : o.rdy = true → ∀ p < c.olaRing, (Mem.read o.nrm p).isSome = true
  /-- The ring is self-cleaning (R322, R54): a cell that no unpopped frame covers holds +0.0. -/
  clean : o.rdy = true → ∀ j, o.avail + c.olaN ≤ j + c.olaHop → j < c.olaRing →
    Mem.read o.acc ((o.ro + j) % c.olaRing) = some fZero ∧ Mem.read o.nrm ((o.ro + j) % c.olaRing) = some fZero
  /-- R54's normalisation, whole: with n the frames and p the popped samples since OLA.RESET, both unbounded, the cell of
  every position from p to p + OLA_RING holds the sum of the squared window values of the frames that overlap it; and no
  more was popped than pushed. -/
  normalised : o.rdy = true → ∃ n p, o.hops = BitVec.ofNat 64 n ∧ o.popped = BitVec.ofNat 64 p ∧
    n * c.olaHop = p + o.avail ∧ o.ro = p % c.olaRing ∧
    ∀ j < c.olaRing, Mem.read o.nrm ((o.ro + j) % c.olaRing) = some (normAt c n (p + j))
  canonical : Mem.wf o.hop = true ∧ Mem.wf o.hist = true ∧ Mem.wf o.acc = true ∧ Mem.wf o.nrm = true
  errors : errClean o.err

/-- The lists of units have the lengths the configuration says. -/
structure Sized (s : State) : Prop where
  fabs : s.fabs.length = s.cfg.nDom
  rbs : s.rbs.length = s.cfg.nRb
  rss : s.rss.length = s.cfg.nRs
  olas : s.olas.length = s.cfg.nOla

/-- What every step keeps of the machine. -/
structure Inv (s : State) : Prop where
  legal : Legal s.cfg
  sized : Sized s
  rings : ∀ i < s.cfg.nRb, RingInv s.cfg i (s.rb i)
  resamplers : ∀ j < s.cfg.nRs, errClean (s.rs j).err
  spectral : ∀ k < s.cfg.nOla, SpectralInv s.cfg (s.ola k)
  /-- `ferr` holds nothing but its bit 0 (R42). -/
  fabrics : ∀ d < s.cfg.nDom, (s.fab d).ferr &&& 0xFFFFFFFE = 0

/-- Each domain has at most one RB.INIT pending: one command at a time (R205, R430). -/
def OnePending (s : State) : Prop :=
  ∀ i < s.cfg.nRb, ∀ j < s.cfg.nRb, (s.rb i).pending = true → (s.rb j).pending = true →
    producerDomain s.cfg i = producerDomain s.cfg j → i = j

/-- The schedule names only agents the machine has. -/
def SchedOk (s : State) : Prop := ∀ e ∈ s.sched, s.agentExists e = true

/-! ## Commands: when a port takes one, what it answers, what it leaves unchanged -/

/-- The current command of state s is on a port that exists and lives in the issuing domain (R162, R163). -/
structure Admitted (s : State) (p : Port) : Prop where
  sized : Sized s
  domain : s.cur.dom < s.cfg.nDom
  home : homeDomain s.cfg p = some s.cur.dom

/-- From s to t exactly one completion was delivered: this one, to the issuing domain (R160). -/
def Answers (s t : State) (c : Completion) : Prop :=
  (t.fab s.cur.dom).done = (s.fab s.cur.dom).done ++ [c] ∧ ∀ d, d ≠ s.cur.dom → (t.fab d).done = (s.fab d).done

/-- From s to t no completion was delivered. -/
def AnswersNothing (s t : State) : Prop := ∀ d, (t.fab d).done = (s.fab d).done

/-- What no accepted command changes: the parameters, the command on the port, the fault set, the schedule, every `ferr`
and every queue. -/
structure KeepsRecords (s t : State) : Prop where
  cfg : t.cfg = s.cfg
  cur : t.cur = s.cur
  faults : t.faults = s.faults
  sched : t.sched = s.sched
  ferr : ∀ d, (t.fab d).ferr = (s.fab d).ferr
  queue : ∀ d, (t.fab d).queue = (s.fab d).queue

/-- Besides its completion, a command changed nothing outside ring i. -/
structure OnlyRing (i : Nat) (s t : State) : Prop where
  records : KeepsRecords s t
  rings : ∀ j, j ≠ i → t.rb j = s.rb j
  rss : t.rss = s.rss
  olas : t.olas = s.olas
  draws : t.draws = s.draws

/-- Besides its completion, a command changed nothing outside resampler j. -/
structure OnlyResampler (j : Nat) (s t : State) : Prop where
  records : KeepsRecords s t
  others : ∀ n, n ≠ j → t.rs n = s.rs n
  rbs : t.rbs = s.rbs
  olas : t.olas = s.olas
  draws : t.draws = s.draws

/-- Besides its completion, a command changed nothing outside spectral unit k (the draw counter is the model's own). -/
structure OnlySpectral (k : Nat) (s t : State) : Prop where
  records : KeepsRecords s t
  others : ∀ n, n ≠ k → t.ola n = s.ola n
  rbs : t.rbs = s.rbs
  rss : t.rss = s.rss

/-- Besides its completion, a command changed nothing. -/
structure OnlyAnswer (s t : State) : Prop where
  records : KeepsRecords s t
  rbs : t.rbs = s.rbs
  rss : t.rss = s.rss
  olas : t.olas = s.olas
  draws : t.draws = s.draws

/-! ## The ring as a queue of frames -/

/-- Frame number f of a ring: its ch words, channel 0 first (R22, R101); a word nothing has written is `none`. -/
def Rb.frame (rb : Rb) (f : Nat) : List (Option Word) :=
  (List.range rb.ch).map fun c => Mem.read rb.mem (rb.wordIndex f c)

/-- The frames written and not yet read, oldest first. -/
def Rb.unread (w : Nat) (rb : Rb) : List (List (Option Word)) :=
  (List.range (dist w rb.rd rb.wr)).map fun f => rb.frame (rb.rd + f)

/-- Words grouped into n frames of ch words (R22). -/
def framesOf (ch n : Nat) (xs : List Word) : List (List (Option Word)) :=
  (List.range n).map fun f => (List.range ch).map fun c => xs[f * ch + c]?

/-! ## Runs -/

/-- Every ring is at rest: no INIT pending, every view at its cursor (R232, R432). -/
def Quiescent (s : State) : Prop :=
  ∀ i < s.cfg.nRb, (s.rb i).pending = false ∧ (s.rb i).wview = (s.rb i).wr ∧ (s.rb i).rview = (s.rb i).rd

/-- A run is at an end: every host has issued its commands and every ring is at rest (R432). -/
def AtEnd (s : State) : Prop := s.sched = [] ∧ (∀ d < s.cfg.nDom, (s.fab d).queue = []) ∧ Quiescent s

/-- A successful final state: at an end with an empty fault set (R406). -/
def Successful (s : State) : Prop := AtEnd s ∧ s.faults = []

end Sys2Proof.Machine
end

