-- ==== Sys2Proof/Certificates/Slice0/Obligations.lean ====
section
/-! DEFINITION. The statements for the provers. -/

open Sys2Proof Sys2Proof.Machine

/-! ## Encoding -/

/-- The example words of R168 decode to the commands they stand for. -/
def Obligations.ExampleWordsDecode : Prop :=
  decodeWord 0x1000000002000064 = .ok (.rbInit 0 100 2) ∧ decodeWord 0x11000000000000C8 = .ok (.rbWrite 0 200) ∧
  decodeWord 0x21200000000000C0 = .ok (.rbRead 2 192) ∧ decodeWord 0x3010000000000001 = .ok (.rsCfg 1 .int) ∧
  decodeWord 0x320000006400000A = .ok (.rsRun 0 10 100) ∧ decodeWord 0x4200000000000060 = .ok (.olaPop 0 96)

/-- Decoding the word of a command gives the command, for every command and every operand value (R151, R153, R155). -/
def Obligations.DecodeOfEncodeIsTheCommand : Prop := ∀ i : Instr, decodeWord (encode i) = .ok i

/-- A word that decodes is the word of its command: no two words spell one command, and every bit counts (R153, R157,
R158). -/
def Obligations.EncodeOfDecodeIsTheWord : Prop := ∀ (w : Word64) (i : Instr), decodeWord w = .ok i → encode i = w

/-- A word decodes exactly when it selects a row of the opcode map by match and mask, and it then selects one row only
(R153, R162, R164). -/
def Obligations.DecoderAgreesWithOpcodeMap : Prop :=
  ∀ w : Word64, ((∃ i, decodeWord w = .ok i) ↔ ∃ row ∈ opcodeMap, selects w row = true) ∧
    ∀ r₁ ∈ opcodeMap, ∀ r₂ ∈ opcodeMap, selects w r₁ = true → selects w r₂ = true → r₁ = r₂

/-- On a byte-wide link byte j of a word is its bits [8j+7:8j] (R107), for words of 64 bits and of 32: decoding the eight
bytes of a command word, lowest first, decodes the word and leaves the bytes after it; the bytes of a response value give
the value; the bytes of a data stream give its words. -/
def Obligations.ByteLinkIsLittleEndian : Prop :=
  (∀ (w : Word64) (rest : List Byte), (wordBytes w).length = 8 ∧
    (∀ j < 8, (wordBytes w)[j]? = some (w.extractLsb' (8 * j) 8)) ∧ bytesWord (wordBytes w) = w ∧
    (∀ i, decodeWord w = .ok i → decodeBytes (wordBytes w ++ rest) = .ok (i, rest)) ∧
    (∀ e, decodeWord w = .error e → decodeBytes (wordBytes w ++ rest) = .error e)) ∧
  (∀ x : Word, (dataBytes x).length = 4 ∧ ∀ j < 4, (dataBytes x)[j]? = some (x.extractLsb' (8 * j) 8)) ∧
  ∀ (xs : List Word) (rest : List Byte), bytesStream xs.length (streamBytes xs ++ rest) = xs

/-! ## A step -/

/-- When it is HOST[d]'s turn and its next command word decodes to i, the step is exec of i, with the command taken off
the queue and put on the port, and the turn taken off the schedule (R162, R430). -/
def Obligations.StepExecutesDecodedCommand : Prop :=
  ∀ (s : State) (d : Nat) (rest : List Event) (r : Request) (i : Instr),
    s.sched = .host d :: rest → d < s.cfg.nDom → s.nextRequest d = some r → decodeWord r.word = .ok i →
    step s = exec i { s with
      sched := rest
      cur := { dom := d, word := r.word, offered := r.offered }
      fabs := s.fabs.set d { s.fab d with queue := (s.fab d).queue.tail } }

/-- A word that spells no command is ILLEGAL, charged to the port it names when that exists in the issuing domain and
to `ferr` otherwise (R162, R401). -/
def Obligations.StepRefusesReservedWord : Prop :=
  ∀ (s : State) (d : Nat) (rest : List Event) (r : Request) (e : DecodeError),
    s.sched = .host d :: rest → d < s.cfg.nDom → s.nextRequest d = some r → decodeWord r.word = .error e →
    let u : State := { s with
      sched := rest
      cur := { dom := d, word := r.word, offered := r.offered }
      fabs := s.fabs.set d { s.fab d with queue := (s.fab d).queue.tail } }
    (∀ p, portOf r.word = some p → homeDomain s.cfg p = some d → step s = .next (u.raise .illegal (some p))) ∧
    ((∀ p, portOf r.word = some p → homeDomain s.cfg p ≠ some d) → step s = .next (u.raise .illegal none))

/-! ## Error conditions -/

/-- What raising a condition does (R407): the bit of the charged register (R58), the fault tuple, the response with ST 2
for ILLEGAL and 3 otherwise (the codes of R161), VAL 0 and no data words, and nothing else. -/
def Obligations.RaiseRecordsAndRefuses : Prop :=
  ∀ (s : State) (e : ErrKind) (p : Option Port), Sized s → s.cur.dom < s.cfg.nDom →
    (∀ q, p = some q → homeDomain s.cfg q = some s.cur.dom) →
    let t := s.raise e p
    let bit : BitVec 32 := match e with
      | .illegal => 1 | .notInit => 2 | .proto => 4 | .hazard => 8 | .ovr => 16
    Answers s t { st := if e = .illegal then .illegal else .error, val := 0, taken := 0, out := [] } ∧
    (t.fab s.cur.dom).done.getLast?.map Completion.response = some (if e = .illegal then 2 else 3, 0) ∧
    t.faults = s.faults ++ [{ kind := e, dom := s.cur.dom, port := p, word := s.cur.word }] ∧
    t.cfg = s.cfg ∧ t.cur = s.cur ∧ t.sched = s.sched ∧ t.draws = s.draws ∧
    (∀ d, (t.fab d).queue = (s.fab d).queue) ∧
    (∀ d, (t.fab d).ferr = if p = none ∧ d = s.cur.dom then (s.fab d).ferr ||| bit else (s.fab d).ferr) ∧
    (∀ i, t.rb i = { s.rb i with
      perr := if p = some (.rbp i) then (s.rb i).perr ||| bit else (s.rb i).perr
      cerr := if p = some (.rbc i) then (s.rb i).cerr ||| bit else (s.rb i).cerr }) ∧
    (∀ j, t.rs j = { s.rs j with err := if p = some (.rs j) then (s.rs j).err ||| bit else (s.rs j).err }) ∧
    (∀ k, t.ola k = { s.ola k with err := if p = some (.ola k) then (s.ola k).err ||| bit else (s.ola k).err })

/-- A command issued in a domain its port does not live in, or naming an instance that does not exist, is ILLEGAL and sets
bit 0 of the issuing domain's `ferr`, whatever the command (R154, R163). -/
def Obligations.WrongDomainIsIllegal : Prop :=
  ∀ (i : Instr) (s : State), homeDomain s.cfg i.port ≠ some s.cur.dom →
    exec i s = .next (s.raise .illegal none) ∧
    (Sized s → s.cur.dom < s.cfg.nDom →
      ((s.raise .illegal none).fab s.cur.dom).ferr = (s.fab s.cur.dom).ferr ||| 1)

/-- NOTINIT (R402): each tabled command raises it on its state, no other command ever raises it, and a tabled one raises
it on no other state. -/
def Obligations.NotInitAsTabled : Prop :=
  ∀ (s : State) (n : BitVec 4) (a b : BitVec 24),
    (homeDomain s.cfg (.rbp n.toNat) = some s.cur.dom → (s.rb n.toNat).init = false →
      exec (.rbWrite n a) s = .next (s.raise .notInit (some (.rbp n.toNat))) ∧
      exec (.rbPavail n) s = .next (s.raise .notInit (some (.rbp n.toNat)))) ∧
    (homeDomain s.cfg (.rbc n.toNat) = some s.cur.dom → (s.rb n.toNat).pending = false → (s.rb n.toNat).cinit = false →
      exec (.rbRead n a) s = .next (s.raise .notInit (some (.rbc n.toNat))) ∧
      exec (.rbCavail n) s = .next (s.raise .notInit (some (.rbc n.toNat)))) ∧
    (homeDomain s.cfg (.rs n.toNat) = some s.cur.dom → (s.rs n.toNat).cfgd = false →
      exec (.rsRun n a b) s = .next (s.raise .notInit (some (.rs n.toNat)))) ∧
    (homeDomain s.cfg (.ola n.toNat) = some s.cur.dom → (s.ola n.toNat).rdy = false →
      exec (.olaPush n a) s = .next (s.raise .notInit (some (.ola n.toNat))) ∧
      exec (.olaPop n a) s = .next (s.raise .notInit (some (.ola n.toNat)))) ∧
    (∀ m, ∀ i ∈ [Instr.rbInit n a b, .rbPstat n a, .rbCstat n a, .rsCfg n m, .rsStat n a, .olaStat n a, .rsReset n,
        .olaReset n],
      ∀ t, exec i s = .next t → ∀ f ∈ t.faults, f ∈ s.faults ∨ f.kind ≠ .notInit) ∧
    (∀ (i : Instr) (t : State) (f : FaultRecord), exec i s = .next t → t.faults = s.faults ++ [f] → f.kind = .notInit →
      match i with
      | .rbWrite m _ | .rbPavail m => (s.rb m.toNat).init = false
      | .rbRead m _ | .rbCavail m => (s.rb m.toNat).cinit = false
      | .rsRun m _ _ => (s.rs m.toNat).cfgd = false
      | .olaPush m _ | .olaPop m _ => (s.ola m.toNat).rdy = false
      | _ => False)

/-- A data-in command whose offered sequence is not exactly its needed length raises PROTO; a command without data-in
ignores any offered words and takes none (R403). -/
def Obligations.ProtoOnWrongLength : Prop :=
  ∀ (s : State) (n : BitVec 4) (a b : BitVec 24),
    (homeDomain s.cfg (.rbp n.toNat) = some s.cur.dom → (s.rb n.toNat).init = true →
      s.cur.offered.length ≠ a.toNat * (s.rb n.toNat).ch →
      exec (.rbWrite n a) s = .next (s.raise .proto (some (.rbp n.toNat)))) ∧
    (homeDomain s.cfg (.rs n.toNat) = some s.cur.dom → (s.rs n.toNat).cfgd = true → s.cur.offered.length ≠ a.toNat →
      exec (.rsRun n a b) s = .next (s.raise .proto (some (.rs n.toNat)))) ∧
    (homeDomain s.cfg (.ola n.toNat) = some s.cur.dom → (s.ola n.toNat).rdy = true → s.cur.offered.length ≠ a.toNat →
      exec (.olaPush n a) s = .next (s.raise .proto (some (.ola n.toNat)))) ∧
    (∀ (m : RsMode), ∀ i ∈ [Instr.rbInit n a b, .rbPavail n, .rbPstat n a, .rbRead n a, .rbCavail n, .rbCstat n a,
        .rsCfg n m, .rsReset n, .rsStat n a, .olaReset n, .olaPop n a, .olaStat n a],
      ∀ (xs : List Word) (t : State), exec i s = .next t →
        exec i { s with cur := { s.cur with offered := xs } } = .next { t with cur := { t.cur with offered := xs } } ∧
        ∀ c, Answers s t c → c.taken = 0)

/-- A consumer-port command of a ring whose RB.INIT is pending raises HAZARD, whatever else holds (R404, R410). -/
def Obligations.HazardWhileInitPending : Prop :=
  ∀ (s : State) (n : BitVec 4) (a : BitVec 24),
    homeDomain s.cfg (.rbc n.toNat) = some s.cur.dom → (s.rb n.toNat).pending = true →
    ∀ i ∈ [Instr.rbRead n a, .rbCavail n, .rbCstat n a],
      exec i s = .next (s.raise .hazard (some (.rbc n.toNat)))

/-- An OLA.PUSH whose last hop cycle would start with avail + OLA_N above OLA_RING raises OVR and runs no cycle (R309,
R405). -/
def Obligations.OverrunIsRefused : Prop :=
  ∀ (s : State) (n : BitVec 4) (a : BitVec 24),
    let o := s.ola n.toNat
    let c := (o.fill + a.toNat) / s.cfg.olaHop
    homeDomain s.cfg (.ola n.toNat) = some s.cur.dom → o.rdy = true → s.cur.offered.length = a.toNat →
    1 ≤ c → s.cfg.olaRing < o.avail + (c - 1) * s.cfg.olaHop + s.cfg.olaN →
    exec (.olaPush n a) s = .next (s.raise .ovr (some (.ola n.toNat)))

/-! ## RB.INIT -/

/-- The capacity RB.INIT gives is the least power of two that is at least the request and at least 2 (R203). -/
def Obligations.CapacityRoundsUpToPowerOfTwo : Prop :=
  ∀ a : Nat, (∃ k, initCap a = 2 ^ k) ∧ a ≤ initCap a ∧ 2 ≤ initCap a ∧ ∀ k, a ≤ 2 ^ k → 2 ≤ 2 ^ k → initCap a ≤ 2 ^ k

/-- RB.INIT with a zero argument, a capacity above MAX_CAP or a channel count above MAX_CH answers FAIL with VAL 0 and
changes nothing (R202, R408). -/
def Obligations.InitRefusesBadArguments : Prop :=
  ∀ (s : State) (n : BitVec 4) (a b : BitVec 24), Admitted s (.rbp n.toNat) →
    (a = 0 ∨ b = 0 ∨ s.cfg.maxCap < nextPow2 (max a.toNat 2) ∨ s.cfg.maxCh < b.toNat) →
    ∃ t, exec (.rbInit n a b) s = .next t ∧ OnlyAnswer s t ∧
      Answers s t { st := .fail, val := 0, taken := 0, out := [] }

/-- An accepted RB.INIT of a same-domain ring, in its own step (R201, R204): capacity, channels, every cursor and view 0,
both sides initialised, FULL 0, EMPTY 1, the capacity as the response; the error registers stay. What the storage holds
afterwards is unspecified, so nothing is said of it. -/
def Obligations.InitOfSameDomainRing : Prop :=
  ∀ (s : State) (n : BitVec 4) (a b : BitVec 24), Admitted s (.rbp n.toNat) →
    producerDomain s.cfg n.toNat = consumerDomain s.cfg n.toNat →
    a ≠ 0 → b ≠ 0 → nextPow2 (max a.toNat 2) ≤ s.cfg.maxCap → b.toNat ≤ s.cfg.maxCh →
    ∃ t, exec (.rbInit n a b) s = .next t ∧ OnlyRing n.toNat s t ∧
      Answers s t { st := .ok, val := BitVec.ofNat 64 (nextPow2 (max a.toNat 2)), taken := 0, out := [] } ∧
      t.rb n.toNat = { s.rb n.toNat with
        cap := nextPow2 (max a.toNat 2), ch := b.toNat, wr := 0, rview := 0, rd := 0, wview := 0
        init := true, cinit := true, mem := (t.rb n.toNat).mem } ∧
      (t.rb n.toNat).full s.cfg.ptrW = false ∧ (t.rb n.toNat).empty = true

/-- An accepted RB.INIT of a cross-domain ring, the producer phase (R204): no response yet, the INIT pending, both sides
uninitialised, the consumer's cursor and view not touched. -/
def Obligations.InitOfCrossDomainRing : Prop :=
  ∀ (s : State) (n : BitVec 4) (a b : BitVec 24), Admitted s (.rbp n.toNat) →
    producerDomain s.cfg n.toNat ≠ consumerDomain s.cfg n.toNat →
    a ≠ 0 → b ≠ 0 → nextPow2 (max a.toNat 2) ≤ s.cfg.maxCap → b.toNat ≤ s.cfg.maxCh →
    ∃ t, exec (.rbInit n a b) s = .next t ∧ OnlyRing n.toNat s t ∧ AnswersNothing s t ∧
      t.rb n.toNat = { s.rb n.toNat with
        cap := nextPow2 (max a.toNat 2), ch := b.toNat, wr := 0, rview := 0
        init := false, cinit := false, pending := true, mem := (t.rb n.toNat).mem }

/-- INITACK (R206): the consumer phase, and the completion of the pending RB.INIT in the producer's domain. -/
def Obligations.InitAckCompletesInit : Prop :=
  ∀ (s : State) (i : Nat) (rest : List Event), s.sched = .initAck i :: rest → i < s.cfg.nRb → Sized s →
    producerDomain s.cfg i < s.cfg.nDom → (s.rb i).pending = true →
    ∃ t, step s = .next t ∧ t.sched = rest ∧
      t.rb i = { s.rb i with rd := 0, wview := 0, init := true, cinit := true, pending := false } ∧
      (∀ j, j ≠ i → t.rb j = s.rb j) ∧ t.rss = s.rss ∧ t.olas = s.olas ∧ t.faults = s.faults ∧ t.cfg = s.cfg ∧
      (∀ d, (t.fab d).ferr = (s.fab d).ferr ∧ (t.fab d).queue = (s.fab d).queue ∧
        (t.fab d).done = if d = producerDomain s.cfg i then
          (s.fab d).done ++ [{ st := .ok, val := BitVec.ofNat 64 (s.rb i).cap, taken := 0, out := [] }]
        else (s.fab d).done)

/-- While an RB.INIT is pending, its host issues nothing and the ring's SYNC agents have no move (R205): their turns
change nothing. -/
def Obligations.PendingInitHoldsHostAndViews : Prop :=
  ∀ (s : State) (i : Nat) (rest : List Event), i < s.cfg.nRb → producerDomain s.cfg i < s.cfg.nDom →
    (s.rb i).pending = true →
    (s.sched = .host (producerDomain s.cfg i) :: rest → step s = .next { s with sched := rest }) ∧
    ∀ draw, s.sched = .syncW2R i draw :: rest ∨ s.sched = .syncR2W i draw :: rest →
      step s = .next { s with sched := rest }

/-! ## Frames in and out -/

/-- RB.WRITE (R211, R212): k = min(A, availableToWrite) frames go to the slots from wr on, wr moves by k, k is the
response, k * ch words are taken; in a same-domain ring the view moves with the cursor; every other word of the storage
and everything else stays. -/
def Obligations.WriteStoresFramesAndAdvances : Prop :=
  ∀ (s : State) (n : BitVec 4) (a : BitVec 24), Admitted s (.rbp n.toNat) → (s.rb n.toNat).init = true →
    s.cur.offered.length = a.toNat * (s.rb n.toNat).ch →
    let rb := s.rb n.toNat
    let k := min a.toNat (rb.cap - dist s.cfg.ptrW rb.rview rb.wr)
    ∃ t, exec (.rbWrite n a) s = .next t ∧ OnlyRing n.toNat s t ∧
      Answers s t { st := .ok, val := BitVec.ofNat 64 k, taken := k * rb.ch, out := [] } ∧
      t.rb n.toNat = { rb with
        wr := (rb.wr + k) % 2 ^ s.cfg.ptrW
        wview := if producerDomain s.cfg n.toNat = consumerDomain s.cfg n.toNat then (rb.wr + k) % 2 ^ s.cfg.ptrW
          else rb.wview
        mem := (t.rb n.toNat).mem } ∧
      (∀ f < k, ∀ c < rb.ch,
        Mem.read (t.rb n.toNat).mem (rb.wordIndex (rb.wr + f) c) = s.cur.offered[f * rb.ch + c]?) ∧
      (∀ x, (∀ f < k, ∀ c < rb.ch, rb.wordIndex (rb.wr + f) c ≠ x) →
        Mem.read (t.rb n.toNat).mem x = Mem.read rb.mem x)

/-- RB.READ (R221, R222): k = min(A, availableToRead) frames are delivered from the slots from rd on, frame-major, channel
0 first, bit for bit; rd moves by k, k is the response; in a same-domain ring the producer's view moves with it; every
word of the storage and everything else stays. -/
def Obligations.ReadDeliversFramesAndAdvances : Prop :=
  ∀ (s : State) (n : BitVec 4) (a : BitVec 24), Admitted s (.rbc n.toNat) → (s.rb n.toNat).pending = false →
    (s.rb n.toNat).cinit = true →
    let rb := s.rb n.toNat
    let k := min a.toNat (dist s.cfg.ptrW rb.rd rb.wview)
    ∃ t out, exec (.rbRead n a) s = .next t ∧ OnlyRing n.toNat s t ∧
      Answers s t { st := .ok, val := BitVec.ofNat 64 k, taken := 0, out := out } ∧
      out.length = k * rb.ch ∧
      (∀ f < k, ∀ c < rb.ch, ∀ v, Mem.read rb.mem (rb.wordIndex (rb.rd + f) c) = some v →
        out[f * rb.ch + c]? = some v) ∧
      t.rb n.toNat = { rb with
        rd := (rb.rd + k) % 2 ^ s.cfg.ptrW
        rview := if producerDomain s.cfg n.toNat = consumerDomain s.cfg n.toNat then (rb.rd + k) % 2 ^ s.cfg.ptrW
          else rb.rview }

/-- RB.WRITE appends its first VAL frames to the frames not yet read, in order (R213, R231). -/
def Obligations.WriteAppendsToUnreadFrames : Prop :=
  ∀ (s t : State) (n : BitVec 4) (a : BitVec 24), Inv s → homeDomain s.cfg (.rbp n.toNat) = some s.cur.dom →
    (s.rb n.toNat).init = true → s.cur.offered.length = a.toNat * (s.rb n.toNat).ch →
    exec (.rbWrite n a) s = .next t →
    (t.rb n.toNat).unread s.cfg.ptrW = (s.rb n.toNat).unread s.cfg.ptrW ++
      framesOf (s.rb n.toNat).ch (min a.toNat ((s.rb n.toNat).cap - dist s.cfg.ptrW (s.rb n.toNat).rview (s.rb n.toNat).wr))
        s.cur.offered

/-- RB.READ delivers the oldest frames not yet read, each exactly once, and never a word that nothing has written (R103,
R131, R134, R231). -/
def Obligations.ReadTakesOldestUnreadFrames : Prop :=
  ∀ (s t : State) (n : BitVec 4) (a : BitVec 24) (c : Completion), Inv s →
    homeDomain s.cfg (.rbc n.toNat) = some s.cur.dom → (s.rb n.toNat).cinit = true →
    exec (.rbRead n a) s = .next t → Answers s t c →
    (s.rb n.toNat).unread s.cfg.ptrW =
      framesOf (s.rb n.toNat).ch (min a.toNat (dist s.cfg.ptrW (s.rb n.toNat).rd (s.rb n.toNat).wview)) c.out ++
        (t.rb n.toNat).unread s.cfg.ptrW

/-- Nothing but a command of the ring's own ports, issued in this step, or the block reset changes the frames a ring holds:
no SYNC move, no acknowledge, no command of another port (R131, R132, R134). -/
def Obligations.OnlyRingCommandsChangeUnreadFrames : Prop :=
  ∀ (s t : State) (i : Nat), (s.rb i).pending = false → step s = .next t →
    (t.rb i).unread s.cfg.ptrW ≠ (s.rb i).unread s.cfg.ptrW →
    (∃ d r, (s.sched.head? = some (.host d) ∨ s.sched = [] ∧ s.fairEvent = some (.host d)) ∧
      s.nextRequest d = some r ∧ (portOf r.word = some (.rbp i) ∨ portOf r.word = some (.rbc i))) ∨
    s.sched.head? = some .blockReset

/-! ## Snapshots, flags, views -/

/-- RB.PAVAIL and RB.CAVAIL answer {availW, availR} of their port's snapshot and change nothing (R210, R215, R225). -/
def Obligations.AvailabilityIsTheSnapshot : Prop :=
  ∀ (s : State) (n : BitVec 4), Inv s → s.cur.dom < s.cfg.nDom →
    let rb := s.rb n.toNat
    (homeDomain s.cfg (.rbp n.toNat) = some s.cur.dom → rb.init = true →
      ∃ t v, exec (.rbPavail n) s = .next t ∧ OnlyAnswer s t ∧ Answers s t { st := .ok, val := v, taken := 0, out := [] } ∧
        v.toNat = (rb.cap - dist s.cfg.ptrW rb.rview rb.wr) * 2 ^ 32 + dist s.cfg.ptrW rb.rview rb.wr) ∧
    (homeDomain s.cfg (.rbc n.toNat) = some s.cur.dom → rb.pending = false → rb.cinit = true →
      ∃ t v, exec (.rbCavail n) s = .next t ∧ OnlyAnswer s t ∧ Answers s t { st := .ok, val := v, taken := 0, out := [] } ∧
        v.toNat = (rb.cap - dist s.cfg.ptrW rb.rd rb.wview) * 2 ^ 32 + dist s.cfg.ptrW rb.rd rb.wview)

/-- At every step the true distance and the two snapshots' distances are at most the capacity (R48), with the cursors
since INIT (log entry 12), and the producer's snapshot sums to the capacity (R230). With no INIT pending those cursors are
the registers, the consumer's snapshot sums to the capacity too (R230), and each is a lower bound on what its port acts on
(R210); and whatever a SYNC move draws, it raises the count its port polls, so that a port which saw 0 sees more as soon as
the view has moved (R233). -/
def Obligations.SnapshotsSumAndAreConservative : Prop :=
  ∀ (c : Config) (i : Nat) (rb : Rb), Legal c → RingInv c i rb →
    dist c.ptrW rb.rdSinceInit rb.wr ≤ rb.cap ∧ dist c.ptrW rb.rview rb.wr ≤ rb.cap ∧
    dist c.ptrW rb.rdSinceInit rb.wviewSinceInit ≤ rb.cap ∧ rb.psnapR c.ptrW + rb.psnapW c.ptrW = rb.cap ∧
    (rb.pending = false → rb.rdSinceInit = rb.rd ∧ rb.wviewSinceInit = rb.wview ∧
    rb.csnapR c.ptrW + rb.csnapW c.ptrW = rb.cap ∧
    rb.psnapW c.ptrW ≤ rb.cap - dist c.ptrW rb.rd rb.wr ∧ rb.csnapR c.ptrW ≤ dist c.ptrW rb.rd rb.wr ∧
    ∀ draw, (rb.rview ≠ rb.rd →
        rb.psnapW c.ptrW < { rb with rview := syncTarget c.ptrW rb.rview rb.rd draw }.psnapW c.ptrW) ∧
      (rb.wview ≠ rb.wr →
        rb.csnapR c.ptrW < { rb with wview := syncTarget c.ptrW rb.wview rb.wr draw }.csnapR c.ptrW))

/-- FULL is 1 exactly when the producer's snapshot has no room, EMPTY exactly when the consumer's snapshot has no frame or
the ring is not initialised; neither reads 0 when the true ring is full or empty (R49, R50, R51). -/
def Obligations.FullAndEmptyAreConservative : Prop :=
  ∀ (c : Config) (i : Nat) (rb : Rb), Legal c → RingInv c i rb →
    (rb.full c.ptrW = true ↔ rb.init = true ∧ rb.psnapW c.ptrW = 0) ∧
    (rb.empty = true ↔ rb.cinit = false ∨ rb.csnapR c.ptrW = 0) ∧
    (rb.init = true → dist c.ptrW rb.rd rb.wr = rb.cap → rb.full c.ptrW = true) ∧
    (rb.init = true → dist c.ptrW rb.rd rb.wr = 0 → rb.empty = true)

/-- The views a SYNC move can reach are exactly the v with 0 < dist(view, v) <= dist(view, cursor) (R124). -/
def Obligations.SyncDrawsReachEveryAllowedView : Prop :=
  ∀ (w view cursor v : Nat), view < 2 ^ w → cursor < 2 ^ w → v < 2 ^ w → view ≠ cursor →
    ((∃ draw, syncTarget w view cursor draw = v) ↔ 0 < dist w view v ∧ dist w view v ≤ dist w view cursor)

/-- A turn of SYNC_W2R or SYNC_R2W moves the ring's view and nothing else; it has a move exactly when the ports live in
different domains, no INIT is pending and the view differs from the cursor (R124, R125). -/
def Obligations.SyncTurnMovesOnlyTheView : Prop :=
  ∀ (s : State) (i draw : Nat) (rest : List Event), i < s.cfg.nRb → Sized s →
    let rb := s.rb i
    let crossing := producerDomain s.cfg i ≠ consumerDomain s.cfg i ∧ rb.pending = false
    (s.sched = .syncW2R i draw :: rest →
      (crossing ∧ rb.wview ≠ rb.wr →
        step s = .next { s with
          sched := rest, rbs := s.rbs.set i { rb with wview := syncTarget s.cfg.ptrW rb.wview rb.wr draw } }) ∧
      (¬ (crossing ∧ rb.wview ≠ rb.wr) → step s = .next { s with sched := rest })) ∧
    (s.sched = .syncR2W i draw :: rest →
      (crossing ∧ rb.rview ≠ rb.rd →
        step s = .next { s with
          sched := rest, rbs := s.rbs.set i { rb with rview := syncTarget s.cfg.ptrW rb.rview rb.rd draw } }) ∧
      (¬ (crossing ∧ rb.rview ≠ rb.rd) → step s = .next { s with sched := rest }))

/-! ## The Gray-coded crossing -/

/-- The view conversion inverts the Gray code (R121, R123). -/
def Obligations.UngrayInvertsGray : Prop := ∀ (w : Nat) (b : BitVec w), ungray (gray b) = b

/-- The exported Gray word changes in exactly one bit when the published copy steps by one, the wrap included (R121). -/
def Obligations.GrayStepChangesOneBit : Prop :=
  ∀ (w : Nat) (b : BitVec w), 0 < w → ∃ i < w, gray b ^^^ gray (b + 1) = BitVec.twoPow w i

/-- The structure of R120 to R123 refines the view rule of R124: from a crossing in order, a command that does not lap the
view, a source edge and a sample edge, early or late, lead to a crossing in order; only a sample edge moves the view, and
it moves it, if at all, to a value on the way to the cursor. What a sample shows, the published copy's value or the one
before its last change, is the model's form of R122 (DESIGN CHOICE, log entry 29). -/
def Obligations.CrossingRefinesViewRule : Prop :=
  ∀ (w : Nat) (x : Crossing w), x.inOrder →
    (∀ n, x.ahead x.cursor + n < 2 ^ w → (x.command n).inOrder ∧ (x.command n).view = x.view) ∧
    (x.sourceEdge.inOrder ∧ x.sourceEdge.view = x.view ∧ x.sourceEdge.cursor = x.cursor) ∧
    ∀ late, (x.sampleEdge late).inOrder ∧ (x.sampleEdge late).cursor = x.cursor ∧
      x.ahead (x.sampleEdge late).view ≤ x.ahead x.cursor

/-! ## Status registers -/

/-- RB.PSTAT answers the register of R55, zero-extended, and changes nothing; a reserved index is ILLEGAL (R216). -/
def Obligations.ProducerStatusRegisters : Prop :=
  ∀ (s : State) (n : BitVec 4) (a : BitVec 24), Inv s → Admitted s (.rbp n.toNat) →
    let rb := s.rb n.toNat
    (a.toNat ≤ 5 → ∃ t v, exec (.rbPstat n a) s = .next t ∧ OnlyAnswer s t ∧
      Answers s t { st := .ok, val := v, taken := 0, out := [] } ∧
      (a = 0 → v.toNat = rb.cap) ∧ (a = 1 → v.toNat = rb.ch) ∧ (a = 2 → v.toNat = rb.wr) ∧
      (a = 3 → v.toNat = rb.rview) ∧
      (a = 4 → v.toNat = (if rb.init then 1 else 0) +
        (if rb.init = true ∧ dist s.cfg.ptrW rb.rview rb.wr = rb.cap then 2 else 0)) ∧
      (a = 5 → v.toNat = rb.perr.toNat)) ∧
    (5 < a.toNat → exec (.rbPstat n a) s = .next (s.raise .illegal (some (.rbp n.toNat))))

/-- RB.CSTAT answers the register of R56, zero-extended, and changes nothing; a reserved index is ILLEGAL (R226). -/
def Obligations.ConsumerStatusRegisters : Prop :=
  ∀ (s : State) (n : BitVec 4) (a : BitVec 24), Inv s → Admitted s (.rbc n.toNat) → (s.rb n.toNat).pending = false →
    let rb := s.rb n.toNat
    (a.toNat ≤ 5 → ∃ t v, exec (.rbCstat n a) s = .next t ∧ OnlyAnswer s t ∧
      Answers s t { st := .ok, val := v, taken := 0, out := [] } ∧
      (a = 0 → v.toNat = rb.cap) ∧ (a = 1 → v.toNat = rb.ch) ∧ (a = 2 → v.toNat = rb.rd) ∧
      (a = 3 → v.toNat = rb.wview) ∧
      (a = 4 → v.toNat = (if rb.cinit then 1 else 0) + (if rb.cinit = false ∨ rb.wview = rb.rd then 2 else 0)) ∧
      (a = 5 → v.toNat = rb.cerr.toNat)) ∧
    (5 < a.toNat → exec (.rbCstat n a) s = .next (s.raise .illegal (some (.rbc n.toNat))))

/-- OLA.STAT answers the register of R57, zero-extended, and changes nothing; a reserved index is ILLEGAL (R330). -/
def Obligations.SpectralStatusRegisters : Prop :=
  ∀ (s : State) (n : BitVec 4) (a : BitVec 24), Inv s → Admitted s (.ola n.toNat) →
    let o := s.ola n.toNat
    (a.toNat ≤ 14 → ∃ t v, exec (.olaStat n a) s = .next t ∧ OnlyAnswer s t ∧
      Answers s t { st := .ok, val := v, taken := 0, out := [] } ∧
      (a = 0 → v = o.pushed) ∧ (a = 1 → v = o.popped) ∧ (a = 2 → v = o.hops) ∧ (a = 3 → v.toNat = o.avail) ∧
      (a = 4 → v.toNat = o.fill) ∧ (a = 5 → v.toNat = o.wo) ∧ (a = 6 → v.toNat = o.ro) ∧
      (a = 7 → v.toNat = o.err.toNat) ∧ (a = 8 → v.toNat = s.cfg.olaN) ∧ (a = 9 → v.toNat = s.cfg.olaHop) ∧
      (a = 10 → v.toNat = s.cfg.olaHist) ∧ (a = 11 → v.toNat = s.cfg.olaPad) ∧ (a = 12 → v.toNat = s.cfg.olaRing) ∧
      (a = 13 → v.toNat = s.cfg.olaEps.toNat) ∧ (a = 14 → v.toNat = if o.rdy then 1 else 0)) ∧
    (14 < a.toNat → exec (.olaStat n a) s = .next (s.raise .illegal (some (.ola n.toNat))))

/-! ## The resampler -/

/-- RS.CFG selects the mode and marks it selected, RS.RESET changes nothing, both answer OK with VAL 0; RS.CFG leaves the
error register (R261, R262). -/
def Obligations.ResamplerConfigAndReset : Prop :=
  ∀ (s : State) (n : BitVec 4) (m : RsMode), Admitted s (.rs n.toNat) →
    (∃ t, exec (.rsCfg n m) s = .next t ∧ OnlyResampler n.toNat s t ∧
      Answers s t { st := .ok, val := 0, taken := 0, out := [] } ∧
      t.rs n.toNat = { s.rs n.toNat with mode := m, cfgd := true }) ∧
    ∃ t, exec (.rsReset n) s = .next t ∧ OnlyAnswer s t ∧ Answers s t { st := .ok, val := 0, taken := 0, out := [] }

/-- RS.STAT answers MODE or ERR of R57, zero-extended, and changes nothing; a reserved index is ILLEGAL (R275). -/
def Obligations.ResamplerStatusRegisters : Prop :=
  ∀ (s : State) (n : BitVec 4) (a : BitVec 24), Admitted s (.rs n.toNat) →
    let r := s.rs n.toNat
    (a.toNat ≤ 1 → ∃ t v, exec (.rsStat n a) s = .next t ∧ OnlyAnswer s t ∧
      Answers s t { st := .ok, val := v, taken := 0, out := [] } ∧
      (a = 0 → v.toNat = (if r.mode = .int then 1 else 0) + (if r.cfgd then 2 else 0)) ∧
      (a = 1 → v.toNat = r.err.toNat)) ∧
    (1 < a.toNat → exec (.rsStat n a) s = .next (s.raise .illegal (some (.rs n.toNat))))

/-- RS.RUN in decimate mode (R263, R264, R265): n = min(A div 3, B) means of triples, each ((a + b) + c) / 3.0 in
binary32, whatever NaN a result that is NaN draws; all A words are taken and no state changes. -/
def Obligations.DecimateDeliversMeansOfTriples : Prop :=
  ∀ (s : State) (n : BitVec 4) (a b : BitVec 24), Admitted s (.rs n.toNat) → (s.rs n.toNat).cfgd = true →
    (s.rs n.toNat).mode = .dec → s.cur.offered.length = a.toNat →
    let k := min (a.toNat / 3) b.toNat
    ∃ t out, exec (.rsRun n a b) s = .next t ∧ OnlyAnswer s t ∧
      Answers s t { st := .ok, val := BitVec.ofNat 64 k, taken := a.toNat, out := out } ∧ out.length = k ∧
      ∀ i < k, ∀ x y z, s.cur.offered[3 * i]? = some x → s.cur.offered[3 * i + 1]? = some y →
        s.cur.offered[3 * i + 2]? = some z →
        ∃ d₁ d₂ d₃, out[i]? = some (fdiv d₃ (fadd d₂ (fadd d₁ x y) z) 0x40400000)

/-- RS.RUN in interpolate mode (R263, R267, R268, R269): n = min(3 A, B) outputs; output j belongs to input i = j div 3 at
phase p = j mod 3; phase 0 and the last input's outputs are that input bit for bit, and the others are
x[i] + ((x[i+1] - x[i]) * p) / 3.0 in binary32; all A words are taken and no state changes. -/
def Obligations.InterpolateRampsAndHolds : Prop :=
  ∀ (s : State) (n : BitVec 4) (a b : BitVec 24), Admitted s (.rs n.toNat) → (s.rs n.toNat).cfgd = true →
    (s.rs n.toNat).mode = .int → s.cur.offered.length = a.toNat →
    let k := min (3 * a.toNat) b.toNat
    ∃ t out, exec (.rsRun n a b) s = .next t ∧ OnlyAnswer s t ∧
      Answers s t { st := .ok, val := BitVec.ofNat 64 k, taken := a.toNat, out := out } ∧ out.length = k ∧
      ∀ j < k, ((j % 3 = 0 ∨ j / 3 + 1 = a.toNat) → out[j]? = s.cur.offered[j / 3]?) ∧
        (j % 3 ≠ 0 → ∀ x y, s.cur.offered[j / 3]? = some x → s.cur.offered[j / 3 + 1]? = some y →
          ∃ d₁ d₂ d₃ d₄, out[j]? = some (fadd d₄ x (fdiv d₃ (fmul d₂ (fsub d₁ y x)
            (if j % 3 = 1 then 0x3F800000 else 0x40000000)) 0x40400000)))

/-- The words RS.RUN delivers depend only on the mode, A, B and the offered words, and it changes no resampler's state
(R276). That this holds of the NaN words of computed results too is the model's reading of R276 beside I1 (DEDUCED, log
entry 5). -/
def Obligations.RunIsStateless : Prop :=
  ∀ (s₁ s₂ t₁ t₂ : State) (n₁ n₂ : BitVec 4) (a b : BitVec 24) (c₁ c₂ : Completion),
    Admitted s₁ (.rs n₁.toNat) → Admitted s₂ (.rs n₂.toNat) →
    (s₁.rs n₁.toNat).cfgd = true → (s₂.rs n₂.toNat).cfgd = true →
    (s₁.rs n₁.toNat).mode = (s₂.rs n₂.toNat).mode → s₁.cur.offered = s₂.cur.offered →
    s₁.cur.offered.length = a.toNat →
    exec (.rsRun n₁ a b) s₁ = .next t₁ → exec (.rsRun n₂ a b) s₂ = .next t₂ → Answers s₁ t₁ c₁ → Answers s₂ t₂ c₂ →
    c₁ = c₂ ∧ t₁.rss = s₁.rss

/-! ## Binary32 -/

/-- Narrowing an exact quotient rounds to nearest, ties to even (R19): no finite binary32 magnitude is nearer, of two
equally near ones the one with the even last bit is taken, and the result is infinite exactly from half a unit above the
largest finite magnitude on. -/
def Obligations.RoundingIsToNearestEven : Prop :=
  ∀ num den : Nat, 0 < den →
    (roundMag num den = infBits ↔ den * ((2 ^ 25 - 1) * 2 ^ 252) ≤ num) ∧
    (roundMag num den < infBits → ∀ b < infBits,
      |(num : Int) - den * magOfBits (roundMag num den)| ≤ |(num : Int) - den * magOfBits b| ∧
      (b ≠ roundMag num den →
        |(num : Int) - den * magOfBits (roundMag num den)| = |(num : Int) - den * magOfBits b| →
        roundMag num den % 2 = 0))

/-- The drawn words are exactly the NaNs, and a sum, difference, product or quotient either is a NaN whatever the draw,
and then is the drawn one, or does not depend on the draw (R21). -/
def Obligations.OnlyNaNResultsAreDrawn : Prop :=
  (∀ d, isNaN (asNaN d) = true) ∧ (∀ w, isNaN w = true → ∃ d, asNaN d = w) ∧
  ∀ op ∈ [fadd, fsub, fmul, fdiv], ∀ a b,
    (∀ d, op d a b = asNaN d) ∨ ∃ r, isNaN r = false ∧ ∀ d, op d a b = r

/-! ## The spectral processor -/

/-- OLA.RESET (R300): every buffer and counter cleared, the history and both accumulators +0.0 throughout, the unit ready;
the error register stays. -/
def Obligations.SpectralResetClearsTheStream : Prop :=
  ∀ (s : State) (n : BitVec 4), Admitted s (.ola n.toNat) →
    ∃ t, exec (.olaReset n) s = .next t ∧ OnlySpectral n.toNat s t ∧
      Answers s t { st := .ok, val := 0, taken := 0, out := [] } ∧
      (let o := t.ola n.toNat
       o.rdy = true ∧ o.fill = 0 ∧ o.wo = 0 ∧ o.ro = 0 ∧ o.avail = 0 ∧ o.pushed = 0 ∧ o.popped = 0 ∧ o.hops = 0 ∧
       o.err = (s.ola n.toNat).err ∧ (∀ k < s.cfg.olaHist, Mem.read o.hist k = some 0) ∧
       ∀ p < s.cfg.olaRing, Mem.read o.acc p = some 0 ∧ Mem.read o.nrm p = some 0)

/-- OLA.PUSH, the counters (R301, R307): c = (fill + A) div OLA_HOP hop cycles, which is the response; all A words are
taken; the registers that no cycle writes stay. -/
def Obligations.PushRunsItsHopCycles : Prop :=
  ∀ (s : State) (n : BitVec 4) (a : BitVec 24), Inv s → Admitted s (.ola n.toNat) → (s.ola n.toNat).rdy = true →
    s.cur.offered.length = a.toNat →
    let o := s.ola n.toNat
    let c := (o.fill + a.toNat) / s.cfg.olaHop
    ¬ (1 ≤ c ∧ s.cfg.olaRing < o.avail + (c - 1) * s.cfg.olaHop + s.cfg.olaN) →
    ∃ t, exec (.olaPush n a) s = .next t ∧ OnlySpectral n.toNat s t ∧
      Answers s t { st := .ok, val := BitVec.ofNat 64 c, taken := a.toNat, out := [] } ∧
      (let o' := t.ola n.toNat
       o'.fill = (o.fill + a.toNat) % s.cfg.olaHop ∧ o'.avail = o.avail + c * s.cfg.olaHop ∧
       o'.wo = (o.wo + c * s.cfg.olaHop) % s.cfg.olaRing ∧ o'.hops = o.hops + BitVec.ofNat 64 c ∧
       o'.pushed = o.pushed + BitVec.ofNat 64 a.toNat ∧
       o'.ro = o.ro ∧ o'.popped = o.popped ∧ o'.rdy = o.rdy ∧ o'.err = o.err)

/-- An OLA.PUSH that does not fill the hop accumulator stores its samples bit for bit behind those already there, and
changes no other array word (R301, R302). The spec leaves the hop words at and above fill + A unspecified (I4); that they
stay is the model's choice (DESIGN CHOICE, log entry 25). -/
def Obligations.ShortPushOnlyStoresSamples : Prop :=
  ∀ (s : State) (n : BitVec 4) (a : BitVec 24), Admitted s (.ola n.toNat) → (s.ola n.toNat).rdy = true →
    s.cur.offered.length = a.toNat → (s.ola n.toNat).fill + a.toNat < s.cfg.olaHop →
    ∃ t, exec (.olaPush n a) s = .next t ∧ OnlySpectral n.toNat s t ∧
      Answers s t { st := .ok, val := 0, taken := a.toNat, out := [] } ∧
      (let o := s.ola n.toNat
       let o' := t.ola n.toNat
       o' = { o with
         fill := o.fill + a.toNat, pushed := o.pushed + BitVec.ofNat 64 a.toNat, hop := o'.hop } ∧
       (∀ j < a.toNat, Mem.read o'.hop (o.fill + j) = s.cur.offered[j]?) ∧
       ∀ x, x < o.fill ∨ o.fill + a.toNat ≤ x → Mem.read o'.hop x = Mem.read o.hop x)

/-- The hop cycle, at an OLA.PUSH that fills the accumulator exactly (R303 to R308): the frame is the pad, the history and the
hop; it is windowed, transformed, windowed again and added into the accumulator cells from wo on, the squared window into
the normalisation cells, whatever NaN a result that is NaN draws; the history rolls by one hop; no other cell changes. A
push that runs more cycles leaves what the pushes of its parts leave, one after the other
(PushingInPartsIsPushingAtOnce). -/
def Obligations.HopCycleOverlapAddsTheFrame : Prop :=
  ∀ (s t : State) (n : BitVec 4) (a : BitVec 24), Inv s → Admitted s (.ola n.toNat) → (s.ola n.toNat).rdy = true →
    s.cur.offered.length = a.toNat → (s.ola n.toNat).fill + a.toNat = s.cfg.olaHop →
    (s.ola n.toNat).avail + s.cfg.olaN ≤ s.cfg.olaRing →
    exec (.olaPush n a) s = .next t →
    let c := s.cfg
    let o := s.ola n.toNat
    let o' := t.ola n.toNat
    let hopWord := fun k => if k < o.fill then Mem.read o.hop k else s.cur.offered[k - o.fill]?
    let frame := fun k => if k < c.olaPad then some 0
      else if k < c.olaPad + c.olaHist then Mem.read o.hist (k - c.olaPad) else hopWord (k - c.olaPad - c.olaHist)
    (∃ w : List Word, w.length = c.olaN ∧
      (∀ k < c.olaN, ∃ d x, frame k = some x ∧ w[k]? = some (fmul d x (hannAt c k))) ∧
      ∀ k < c.olaN, ∃ d₁ d₂ v, Mem.read o.acc ((o.wo + k) % c.olaRing) = some v ∧
        Mem.read o'.acc ((o.wo + k) % c.olaRing) = some (fadd d₂ v (fmul d₁ ((xform c w).getD k 0) (hannAt c k)))) ∧
    (∀ k < c.olaN, ∃ d₁ d₂ v, Mem.read o.nrm ((o.wo + k) % c.olaRing) = some v ∧
      Mem.read o'.nrm ((o.wo + k) % c.olaRing) = some (fadd d₂ v (fmul d₁ (hannAt c k) (hannAt c k)))) ∧
    (∀ x, (∀ k < c.olaN, (o.wo + k) % c.olaRing ≠ x) →
      Mem.read o'.acc x = Mem.read o.acc x ∧ Mem.read o'.nrm x = Mem.read o.nrm x) ∧
    ∀ k < c.olaHist, Mem.read o'.hist k =
      if k < c.olaHist - c.olaHop then Mem.read o.hist (k + c.olaHop) else hopWord (k - (c.olaHist - c.olaHop))

/-- An accepted OLA.PUSH of a block leaves what the OLA.PUSHes of its two parts leave, one after the other, which are
accepted too and run as many cycles: every register and array word of the unit, and the number of the next draw (R301,
R309; that draws are numbered by results is the model's, log entry 6). Of a refused block (OVR) nothing is said: its parts
may be taken in part. -/
def Obligations.PushingInPartsIsPushingAtOnce : Prop :=
  ∀ (s : State) (n : BitVec 4) (a b c : BitVec 24) (xs ys : List Word), Inv s → Admitted s (.ola n.toNat) →
    (s.ola n.toNat).rdy = true → xs.length = a.toNat → ys.length = b.toNat → c.toNat = a.toNat + b.toNat →
    let o := s.ola n.toNat
    let k := (o.fill + c.toNat) / s.cfg.olaHop
    let k₁ := (o.fill + a.toNat) / s.cfg.olaHop
    let offering := fun (u : State) (zs : List Word) => { u with cur := { u.cur with offered := zs } }
    let took := fun (cycles len : Nat) =>
      ({ st := .ok, val := BitVec.ofNat 64 cycles, taken := len, out := [] } : Completion)
    ¬ (1 ≤ k ∧ s.cfg.olaRing < o.avail + (k - 1) * s.cfg.olaHop + s.cfg.olaN) →
    ∃ t t₁ t₂,
      exec (.olaPush n c) (offering s (xs ++ ys)) = .next t ∧ Answers s t (took k c.toNat) ∧
      exec (.olaPush n a) (offering s xs) = .next t₁ ∧ Answers s t₁ (took k₁ a.toNat) ∧
      exec (.olaPush n b) (offering t₁ ys) = .next t₂ ∧ Answers t₁ t₂ (took (k - k₁) b.toNat) ∧
      t₂.ola n.toNat = t.ola n.toNat ∧ t₂.draws = t.draws

/-- OLA.POP (R320, R321, R322): m = min(A, avail) samples from ro on, each the accumulator cell over its normalisation cell,
or +0.0 where the normalisation is below OLA_EPS, whatever NaN a result that is NaN draws; the consumed cells become
+0.0 and no other cell changes; ro, avail and popped move by m and every other register stays. -/
def Obligations.PopDeliversNormalisedSamples : Prop :=
  ∀ (s : State) (n : BitVec 4) (a : BitVec 24), Inv s → Admitted s (.ola n.toNat) → (s.ola n.toNat).rdy = true →
    let o := s.ola n.toNat
    let m := min a.toNat o.avail
    ∃ t out, exec (.olaPop n a) s = .next t ∧ OnlySpectral n.toNat s t ∧
      Answers s t { st := .ok, val := BitVec.ofNat 64 m, taken := 0, out := out } ∧ out.length = m ∧
      (∀ j < m, ∃ d x v, Mem.read o.acc ((o.ro + j) % s.cfg.olaRing) = some x ∧
        Mem.read o.nrm ((o.ro + j) % s.cfg.olaRing) = some v ∧
        out[j]? = some (if flt v s.cfg.olaEps then 0 else fdiv d x v)) ∧
      (let o' := t.ola n.toNat
       o' = { o with
         acc := o'.acc, nrm := o'.nrm, ro := (o.ro + m) % s.cfg.olaRing, avail := o.avail - m
         popped := o.popped + BitVec.ofNat 64 m } ∧
       (∀ j < m, Mem.read o'.acc ((o.ro + j) % s.cfg.olaRing) = some 0 ∧
         Mem.read o'.nrm ((o.ro + j) % s.cfg.olaRing) = some 0) ∧
       ∀ x, (∀ j < m, (o.ro + j) % s.cfg.olaRing ≠ x) →
         Mem.read o'.acc x = Mem.read o.acc x ∧ Mem.read o'.nrm x = Mem.read o.nrm x)

/-- X2 of R311: an all +0.0 frame transforms to zeros, by the XFORM of every legal configuration, and by the given XFORM
and XFORM_ID whatever else is configured; and every transform keeps the frame's length. -/
def Obligations.TransformOfSilenceIsZero : Prop :=
  ∀ (c : Config) (a : List Word), (xform c a).length = a.length ∧
    (c.xform = .given ∨ c.xform = .ideal ∨ Legal c ∧ a.length = c.olaN →
      (∀ x ∈ a, x = 0) → ∀ y ∈ xform c a, isZero y = true)

/-- The reference computation of R312 has X2 too, with any finite twiddle factors. -/
def Obligations.ReferenceTransformOfSilenceIsZero : Prop :=
  ∀ (fwd inv : List Cplx) (a : List Word),
    (∀ w ∈ fwd ++ inv, isFinite w.1 = true ∧ isFinite w.2 = true) → (∀ x ∈ a, x = 0) →
    (xformFft fwd inv a).length = a.length ∧ ∀ y ∈ xformFft fwd inv a, isZero y = true

/-! ## The whole machine -/

/-- The values R451 gives after the block reset, for every configuration: every unit of every list is at them. -/
def Obligations.ResetValues : Prop :=
  ∀ c : Config,
    let s := State.resetOf c
    s.cfg = c ∧ s.fabs.length = c.nDom ∧ s.rbs.length = c.nRb ∧ s.rss.length = c.nRs ∧ s.olas.length = c.nOla ∧
    (∀ d, (s.fab d).ferr = 0) ∧
    (∀ i, let r := s.rb i
      r.init = false ∧ r.cinit = false ∧ r.pending = false ∧ r.cap = 0 ∧ r.ch = 0 ∧ r.wr = 0 ∧ r.rview = 0 ∧
      r.perr = 0 ∧ r.rd = 0 ∧ r.wview = 0 ∧ r.cerr = 0 ∧ r.full c.ptrW = false ∧ r.empty = true) ∧
    (∀ j, let r := s.rs j; r.cfgd = false ∧ r.mode = .dec ∧ r.err = 0) ∧
    (∀ k, let o := s.ola k
      o.rdy = false ∧ o.fill = 0 ∧ o.wo = 0 ∧ o.ro = 0 ∧ o.avail = 0 ∧ o.pushed = 0 ∧ o.popped = 0 ∧ o.hops = 0 ∧
      o.err = 0) ∧
    s.faults = []

/-- The block reset input (R450): every unit and every `ferr` takes its reset value; the fault set, which no later step
removes from (R406), stays (log entry 15). -/
def Obligations.BlockResetResetsEveryUnit : Prop :=
  ∀ (s : State) (rest : List Event), s.sched = .blockReset :: rest →
    ∃ t, step s = .next t ∧ t.sched = rest ∧ t.cfg = s.cfg ∧ t.faults = s.faults ∧
      (∀ d, (t.fab d).ferr = 0) ∧ (∀ i, t.rb i = Rb.reset) ∧ (∀ j, t.rs j = Rs.reset) ∧ ∀ k, t.ola k = Ola.reset

/-- The machine's invariant holds right after reset, in every legal configuration. -/
def Obligations.ResetMeetsInvariant : Prop :=
  ∀ c : Config, Legal c → Inv (State.resetOf c) ∧ OnePending (State.resetOf c) ∧ SchedOk (State.resetOf c)

/-- Every step, of every agent, keeps the machine's invariant: the rings' cursors, views, storage and configuration
(R48 for the cursors since INIT, log entry 12; R103, R124, R125), the spectral units' offsets, counters and arrays
(R54, R309, R322, R340), of R54 both that every normalisation cell is the sum of the squared windows of the frames over
it and that a consumed one is clean, the reserved bits of every error register (R42, R58), the parameters and the
number of units. -/
def Obligations.StepKeepsInvariant : Prop :=
  ∀ s t : State, Inv s → step s = .next t → Inv t ∧ t.cfg = s.cfg

/-- One command of a domain at a time (R205, R430): every step keeps it that a domain has at most one RB.INIT pending. -/
def Obligations.OneInitPendingPerDomain : Prop :=
  ∀ s t : State, Inv s → OnePending s → step s = .next t → OnePending t

/-- No command stops the machine, and no step does while the schedule names agents the machine has (R24, R25, R400). -/
def Obligations.NothingStops : Prop :=
  (∀ (i : Instr) (s : State), ∃ t, exec i s = .next t) ∧
  ∀ s : State, SchedOk s → ∃ t, step s = .next t ∧ SchedOk t

/-- An error bit, once set, stays set in every step but the block reset; a recorded fault is never removed by any step,
and a state with one is never a successful final state (R406). -/
def Obligations.ErrorBitsAndFaultsAreSticky : Prop :=
  ∀ s t : State, step s = .next t →
    (∃ new, t.faults = s.faults ++ new) ∧ (s.faults ≠ [] → ¬ Successful t) ∧
    (s.sched.head? ≠ some .blockReset →
      (∀ d, (s.fab d).ferr &&& (t.fab d).ferr = (s.fab d).ferr) ∧
      (∀ i, (s.rb i).perr &&& (t.rb i).perr = (s.rb i).perr ∧ (s.rb i).cerr &&& (t.rb i).cerr = (s.rb i).cerr) ∧
      (∀ j, (s.rs j).err &&& (t.rs j).err = (s.rs j).err) ∧
      ∀ k, (s.ola k).err &&& (t.ola k).err = (s.ola k).err)

/-- Whole-machine ownership (R43, R44, R45, R133, R137, R163): a host's turn in domain d changes a resampler or a spectral
unit only if d is 0, the producer-domain state, the storage and the configuration of a ring only if d is its producer's
domain, the consumer-domain state only if d is its consumer's; and it delivers completions to domain d alone. -/
def Obligations.EachDomainChangesOnlyItsOwn : Prop :=
  ∀ (s t : State) (d : Nat) (rest : List Event), s.sched = .host d :: rest → step s = .next t →
    (d ≠ 0 → t.rss = s.rss ∧ t.olas = s.olas) ∧
    (∀ i, d ≠ producerDomain s.cfg i → (t.rb i).wr = (s.rb i).wr ∧ (t.rb i).rview = (s.rb i).rview ∧
      (t.rb i).mem = (s.rb i).mem ∧ (t.rb i).perr = (s.rb i).perr ∧ (t.rb i).cap = (s.rb i).cap ∧
      (t.rb i).ch = (s.rb i).ch ∧ (t.rb i).init = (s.rb i).init ∧ (t.rb i).cinit = (s.rb i).cinit ∧
      (t.rb i).pending = (s.rb i).pending) ∧
    (∀ i, d ≠ consumerDomain s.cfg i → (t.rb i).rd = (s.rb i).rd ∧ (t.rb i).wview = (s.rb i).wview ∧
      (t.rb i).cerr = (s.rb i).cerr) ∧
    ∀ e, e ≠ d → t.fab e = s.fab e

/-- With an empty schedule the fair choice brings every run to its end: every command is issued, every pending RB.INIT
acknowledged and every view moved to its cursor, in finitely many steps, and the machine is idle from then on (R27, R232,
R432); and it lets a host move only when every snapshot is exact, so that every poll sees every frame the other port has
published and all the room it has freed (R233, R414). The order of the fair choice is the model's (log entry 2). -/
def Obligations.FairRunsReachTheirEnd : Prop :=
  ∀ s : State, Inv s → s.sched = [] →
    (∃ k t, Host.Core.run Sys2Proof.core k s = .next t ∧ AtEnd t ∧ step t = .next t) ∧
    ∀ d, s.fairEvent = some (.host d) → ∀ i < s.cfg.nRb, (s.rb i).pending = false ∧
      (s.rb i).psnapW s.cfg.ptrW = (s.rb i).cap - dist s.cfg.ptrW (s.rb i).rd (s.rb i).wr ∧
      (s.rb i).csnapR s.cfg.ptrW = dist s.cfg.ptrW (s.rb i).rd (s.rb i).wr

/-! ## The reference host -/

/-- The playback pull (R374): the words read, then +0.0 for every missing frame; the shortfall is counted as underflow
exactly from the end of the warm-up window on. -/
def Obligations.PullZeroFillsAndCounts : Prop :=
  ∀ (e : Engine.Duplex) (now n k : Nat) (data : List Word), k ≤ n → data.length = k * e.channels →
    (Engine.pullResult e now n k data).2.length = n * e.channels ∧
    (∀ x < k * e.channels, (Engine.pullResult e now n k data).2[x]? = data[x]?) ∧
    (∀ x < n * e.channels, k * e.channels ≤ x → (Engine.pullResult e now n k data).2[x]? = some 0) ∧
    (Engine.pullResult e now n k data).1 =
      if e.started + 300 ≤ now then { e with underflow := e.underflow + BitVec.ofNat 64 (n - k) } else e
end

