-- ==== Sys2Proof/Laws/State.lean ====
section
/-! SUPPORT. One lemma per field per update of the state, and reading a unit after an update. -/

namespace Sys2Proof.Machine

/-! ### setRb -/

@[simp] theorem State.setRb_cfg (s : State) (i : Nat) (r : Rb) : (s.setRb i r).cfg = s.cfg := rfl
@[simp] theorem State.setRb_fabs (s : State) (i : Nat) (r : Rb) : (s.setRb i r).fabs = s.fabs := rfl
@[simp] theorem State.setRb_rss (s : State) (i : Nat) (r : Rb) : (s.setRb i r).rss = s.rss := rfl
@[simp] theorem State.setRb_olas (s : State) (i : Nat) (r : Rb) : (s.setRb i r).olas = s.olas := rfl
@[simp] theorem State.setRb_cur (s : State) (i : Nat) (r : Rb) : (s.setRb i r).cur = s.cur := rfl
@[simp] theorem State.setRb_faults (s : State) (i : Nat) (r : Rb) : (s.setRb i r).faults = s.faults := rfl
@[simp] theorem State.setRb_sched (s : State) (i : Nat) (r : Rb) : (s.setRb i r).sched = s.sched := rfl
@[simp] theorem State.setRb_draws (s : State) (i : Nat) (r : Rb) : (s.setRb i r).draws = s.draws := rfl

/-! ### setRs -/

@[simp] theorem State.setRs_cfg (s : State) (j : Nat) (r : Rs) : (s.setRs j r).cfg = s.cfg := rfl
@[simp] theorem State.setRs_fabs (s : State) (j : Nat) (r : Rs) : (s.setRs j r).fabs = s.fabs := rfl
@[simp] theorem State.setRs_rbs (s : State) (j : Nat) (r : Rs) : (s.setRs j r).rbs = s.rbs := rfl
@[simp] theorem State.setRs_olas (s : State) (j : Nat) (r : Rs) : (s.setRs j r).olas = s.olas := rfl
@[simp] theorem State.setRs_cur (s : State) (j : Nat) (r : Rs) : (s.setRs j r).cur = s.cur := rfl
@[simp] theorem State.setRs_faults (s : State) (j : Nat) (r : Rs) : (s.setRs j r).faults = s.faults := rfl
@[simp] theorem State.setRs_sched (s : State) (j : Nat) (r : Rs) : (s.setRs j r).sched = s.sched := rfl
@[simp] theorem State.setRs_draws (s : State) (j : Nat) (r : Rs) : (s.setRs j r).draws = s.draws := rfl

/-! ### setOla -/

@[simp] theorem State.setOla_cfg (s : State) (k : Nat) (o : Ola) : (s.setOla k o).cfg = s.cfg := rfl
@[simp] theorem State.setOla_fabs (s : State) (k : Nat) (o : Ola) : (s.setOla k o).fabs = s.fabs := rfl
@[simp] theorem State.setOla_rbs (s : State) (k : Nat) (o : Ola) : (s.setOla k o).rbs = s.rbs := rfl
@[simp] theorem State.setOla_rss (s : State) (k : Nat) (o : Ola) : (s.setOla k o).rss = s.rss := rfl
@[simp] theorem State.setOla_cur (s : State) (k : Nat) (o : Ola) : (s.setOla k o).cur = s.cur := rfl
@[simp] theorem State.setOla_faults (s : State) (k : Nat) (o : Ola) : (s.setOla k o).faults = s.faults := rfl
@[simp] theorem State.setOla_sched (s : State) (k : Nat) (o : Ola) : (s.setOla k o).sched = s.sched := rfl
@[simp] theorem State.setOla_draws (s : State) (k : Nat) (o : Ola) : (s.setOla k o).draws = s.draws := rfl

/-! ### setFab -/

@[simp] theorem State.setFab_cfg (s : State) (d : Nat) (f : Fabric) : (s.setFab d f).cfg = s.cfg := rfl
@[simp] theorem State.setFab_rbs (s : State) (d : Nat) (f : Fabric) : (s.setFab d f).rbs = s.rbs := rfl
@[simp] theorem State.setFab_rss (s : State) (d : Nat) (f : Fabric) : (s.setFab d f).rss = s.rss := rfl
@[simp] theorem State.setFab_olas (s : State) (d : Nat) (f : Fabric) : (s.setFab d f).olas = s.olas := rfl
@[simp] theorem State.setFab_cur (s : State) (d : Nat) (f : Fabric) : (s.setFab d f).cur = s.cur := rfl
@[simp] theorem State.setFab_faults (s : State) (d : Nat) (f : Fabric) : (s.setFab d f).faults = s.faults := rfl
@[simp] theorem State.setFab_sched (s : State) (d : Nat) (f : Fabric) : (s.setFab d f).sched = s.sched := rfl
@[simp] theorem State.setFab_draws (s : State) (d : Nat) (f : Fabric) : (s.setFab d f).draws = s.draws := rfl

/-! ### complete -/

@[simp] theorem State.complete_cfg (s : State) (d : Nat) (c : Completion) : (s.complete d c).cfg = s.cfg := rfl
@[simp] theorem State.complete_rbs (s : State) (d : Nat) (c : Completion) : (s.complete d c).rbs = s.rbs := rfl
@[simp] theorem State.complete_rss (s : State) (d : Nat) (c : Completion) : (s.complete d c).rss = s.rss := rfl
@[simp] theorem State.complete_olas (s : State) (d : Nat) (c : Completion) : (s.complete d c).olas = s.olas := rfl
@[simp] theorem State.complete_cur (s : State) (d : Nat) (c : Completion) : (s.complete d c).cur = s.cur := rfl
@[simp] theorem State.complete_faults (s : State) (d : Nat) (c : Completion) : (s.complete d c).faults = s.faults := rfl
@[simp] theorem State.complete_sched (s : State) (d : Nat) (c : Completion) : (s.complete d c).sched = s.sched := rfl
@[simp] theorem State.complete_draws (s : State) (d : Nat) (c : Completion) : (s.complete d c).draws = s.draws := rfl

/-! ### respond -/

@[simp] theorem State.respond_cfg (s : State) (st : Status) (v : Word64) (n : Nat) (out : List Word) : (s.respond st v n out).cfg = s.cfg := rfl
@[simp] theorem State.respond_rbs (s : State) (st : Status) (v : Word64) (n : Nat) (out : List Word) : (s.respond st v n out).rbs = s.rbs := rfl
@[simp] theorem State.respond_rss (s : State) (st : Status) (v : Word64) (n : Nat) (out : List Word) : (s.respond st v n out).rss = s.rss := rfl
@[simp] theorem State.respond_olas (s : State) (st : Status) (v : Word64) (n : Nat) (out : List Word) : (s.respond st v n out).olas = s.olas := rfl
@[simp] theorem State.respond_cur (s : State) (st : Status) (v : Word64) (n : Nat) (out : List Word) : (s.respond st v n out).cur = s.cur := rfl
@[simp] theorem State.respond_faults (s : State) (st : Status) (v : Word64) (n : Nat) (out : List Word) : (s.respond st v n out).faults = s.faults := rfl
@[simp] theorem State.respond_sched (s : State) (st : Status) (v : Word64) (n : Nat) (out : List Word) : (s.respond st v n out).sched = s.sched := rfl
@[simp] theorem State.respond_draws (s : State) (st : Status) (v : Word64) (n : Nat) (out : List Word) : (s.respond st v n out).draws = s.draws := rfl

/-! ### record -/

@[simp] theorem State.record_cfg (s : State) (e : ErrKind) (p : Option Port) : (s.record e p).cfg = s.cfg := rfl
@[simp] theorem State.record_fabs (s : State) (e : ErrKind) (p : Option Port) : (s.record e p).fabs = s.fabs := rfl
@[simp] theorem State.record_rbs (s : State) (e : ErrKind) (p : Option Port) : (s.record e p).rbs = s.rbs := rfl
@[simp] theorem State.record_rss (s : State) (e : ErrKind) (p : Option Port) : (s.record e p).rss = s.rss := rfl
@[simp] theorem State.record_olas (s : State) (e : ErrKind) (p : Option Port) : (s.record e p).olas = s.olas := rfl
@[simp] theorem State.record_cur (s : State) (e : ErrKind) (p : Option Port) : (s.record e p).cur = s.cur := rfl
@[simp] theorem State.record_sched (s : State) (e : ErrKind) (p : Option Port) : (s.record e p).sched = s.sched := rfl
@[simp] theorem State.record_draws (s : State) (e : ErrKind) (p : Option Port) : (s.record e p).draws = s.draws := rfl

/-! ### Units of an updated state -/

theorem State.rb_setRb_self (s : State) {i : Nat} (r : Rb) (h : i < s.rbs.length) : (s.setRb i r).rb i = r := by
  simp [State.rb, State.setRb, List.getD_eq_getElem?_getD, List.getElem?_set_self h]

theorem State.rb_setRb_ne (s : State) {i n : Nat} (r : Rb) (h : n ≠ i) : (s.setRb i r).rb n = s.rb n := by
  simp [State.rb, State.setRb, List.getD_eq_getElem?_getD, List.getElem?_set_ne (Ne.symm h)]

@[simp] theorem State.setRb_length (s : State) (i : Nat) (r : Rb) : (s.setRb i r).rbs.length = s.rbs.length := by
  simp [State.setRb]

@[simp] theorem State.rb_setRs (s : State) (i n : Nat) (r : Rs) : (s.setRs i r).rb n = s.rb n := rfl
@[simp] theorem State.rb_setOla (s : State) (i n : Nat) (r : Ola) : (s.setOla i r).rb n = s.rb n := rfl
@[simp] theorem State.rb_setFab (s : State) (i n : Nat) (r : Fabric) : (s.setFab i r).rb n = s.rb n := rfl

theorem State.rs_setRs_self (s : State) {i : Nat} (r : Rs) (h : i < s.rss.length) : (s.setRs i r).rs i = r := by
  simp [State.rs, State.setRs, List.getD_eq_getElem?_getD, List.getElem?_set_self h]

theorem State.rs_setRs_ne (s : State) {i n : Nat} (r : Rs) (h : n ≠ i) : (s.setRs i r).rs n = s.rs n := by
  simp [State.rs, State.setRs, List.getD_eq_getElem?_getD, List.getElem?_set_ne (Ne.symm h)]

@[simp] theorem State.setRs_length (s : State) (i : Nat) (r : Rs) : (s.setRs i r).rss.length = s.rss.length := by
  simp [State.setRs]

@[simp] theorem State.rs_setRb (s : State) (i n : Nat) (r : Rb) : (s.setRb i r).rs n = s.rs n := rfl
@[simp] theorem State.rs_setOla (s : State) (i n : Nat) (r : Ola) : (s.setOla i r).rs n = s.rs n := rfl
@[simp] theorem State.rs_setFab (s : State) (i n : Nat) (r : Fabric) : (s.setFab i r).rs n = s.rs n := rfl

theorem State.ola_setOla_self (s : State) {i : Nat} (r : Ola) (h : i < s.olas.length) : (s.setOla i r).ola i = r := by
  simp [State.ola, State.setOla, List.getD_eq_getElem?_getD, List.getElem?_set_self h]

theorem State.ola_setOla_ne (s : State) {i n : Nat} (r : Ola) (h : n ≠ i) : (s.setOla i r).ola n = s.ola n := by
  simp [State.ola, State.setOla, List.getD_eq_getElem?_getD, List.getElem?_set_ne (Ne.symm h)]

@[simp] theorem State.setOla_length (s : State) (i : Nat) (r : Ola) : (s.setOla i r).olas.length = s.olas.length := by
  simp [State.setOla]

@[simp] theorem State.ola_setRb (s : State) (i n : Nat) (r : Rb) : (s.setRb i r).ola n = s.ola n := rfl
@[simp] theorem State.ola_setRs (s : State) (i n : Nat) (r : Rs) : (s.setRs i r).ola n = s.ola n := rfl
@[simp] theorem State.ola_setFab (s : State) (i n : Nat) (r : Fabric) : (s.setFab i r).ola n = s.ola n := rfl

theorem State.fab_setFab_self (s : State) {i : Nat} (r : Fabric) (h : i < s.fabs.length) : (s.setFab i r).fab i = r := by
  simp [State.fab, State.setFab, List.getD_eq_getElem?_getD, List.getElem?_set_self h]

theorem State.fab_setFab_ne (s : State) {i n : Nat} (r : Fabric) (h : n ≠ i) : (s.setFab i r).fab n = s.fab n := by
  simp [State.fab, State.setFab, List.getD_eq_getElem?_getD, List.getElem?_set_ne (Ne.symm h)]

@[simp] theorem State.setFab_length (s : State) (i : Nat) (r : Fabric) : (s.setFab i r).fabs.length = s.fabs.length := by
  simp [State.setFab]

@[simp] theorem State.fab_setRb (s : State) (i n : Nat) (r : Rb) : (s.setRb i r).fab n = s.fab n := rfl
@[simp] theorem State.fab_setRs (s : State) (i n : Nat) (r : Rs) : (s.setRs i r).fab n = s.fab n := rfl
@[simp] theorem State.fab_setOla (s : State) (i n : Nat) (r : Ola) : (s.setOla i r).fab n = s.fab n := rfl

@[simp] theorem State.rb_complete (s : State) (d n : Nat) (c : Completion) : (s.complete d c).rb n = s.rb n := rfl
@[simp] theorem State.rb_respond (s : State) (n : Nat) (st : Status) (v : Word64) (t : Nat) (out : List Word) :
    (s.respond st v t out).rb n = s.rb n := rfl
@[simp] theorem State.rb_record (s : State) (n : Nat) (e : ErrKind) (p : Option Port) : (s.record e p).rb n = s.rb n := rfl
@[simp] theorem State.rs_complete (s : State) (d n : Nat) (c : Completion) : (s.complete d c).rs n = s.rs n := rfl
@[simp] theorem State.rs_respond (s : State) (n : Nat) (st : Status) (v : Word64) (t : Nat) (out : List Word) :
    (s.respond st v t out).rs n = s.rs n := rfl
@[simp] theorem State.rs_record (s : State) (n : Nat) (e : ErrKind) (p : Option Port) : (s.record e p).rs n = s.rs n := rfl
@[simp] theorem State.ola_complete (s : State) (d n : Nat) (c : Completion) : (s.complete d c).ola n = s.ola n := rfl
@[simp] theorem State.ola_respond (s : State) (n : Nat) (st : Status) (v : Word64) (t : Nat) (out : List Word) :
    (s.respond st v t out).ola n = s.ola n := rfl
@[simp] theorem State.ola_record (s : State) (n : Nat) (e : ErrKind) (p : Option Port) : (s.record e p).ola n = s.ola n := rfl
@[simp] theorem State.fab_record (s : State) (n : Nat) (e : ErrKind) (p : Option Port) : (s.record e p).fab n = s.fab n := rfl

theorem State.record_faults (s : State) (e : ErrKind) (p : Option Port) :
    (s.record e p).faults = s.faults ++ [{ kind := e, dom := s.cur.dom, port := p, word := s.cur.word }] := rfl

@[simp] theorem State.complete_length (s : State) (d : Nat) (c : Completion) :
    (s.complete d c).fabs.length = s.fabs.length := by
  simp [State.complete]

@[simp] theorem State.respond_length (s : State) (st : Status) (v : Word64) (n : Nat) (out : List Word) :
    (s.respond st v n out).fabs.length = s.fabs.length := by
  simp [State.respond]

/-- A completion appends to the list of its domain and touches nothing else of the fabric. -/
theorem State.fab_complete_self (s : State) {d : Nat} (c : Completion) (h : d < s.fabs.length) :
    (s.complete d c).fab d = { s.fab d with done := (s.fab d).done ++ [c] } := State.fab_setFab_self s _ h

theorem State.fab_complete_ne (s : State) {d n : Nat} (c : Completion) (h : n ≠ d) :
    (s.complete d c).fab n = s.fab n := State.fab_setFab_ne s _ h

/-- A completion leaves every `ferr` and every queue as it was, whatever the domain. -/
@[simp] theorem State.ferr_complete (s : State) (d n : Nat) (c : Completion) :
    ((s.complete d c).fab n).ferr = (s.fab n).ferr := by
  by_cases h : n = d
  · subst h
    by_cases hl : n < s.fabs.length
    · rw [State.fab_complete_self s c hl]
    · simp [State.complete, State.setFab, State.fab, List.set_eq_of_length_le (Nat.le_of_not_lt hl)]
  · rw [State.fab_complete_ne s c h]

@[simp] theorem State.queue_complete (s : State) (d n : Nat) (c : Completion) :
    ((s.complete d c).fab n).queue = (s.fab n).queue := by
  by_cases h : n = d
  · subst h
    by_cases hl : n < s.fabs.length
    · rw [State.fab_complete_self s c hl]
    · simp [State.complete, State.setFab, State.fab, List.set_eq_of_length_le (Nat.le_of_not_lt hl)]
  · rw [State.fab_complete_ne s c h]

@[simp] theorem State.ferr_respond (s : State) (n : Nat) (st : Status) (v : Word64) (t : Nat) (out : List Word) :
    ((s.respond st v t out).fab n).ferr = (s.fab n).ferr := State.ferr_complete s _ n _

@[simp] theorem State.queue_respond (s : State) (n : Nat) (st : Status) (v : Word64) (t : Nat) (out : List Word) :
    ((s.respond st v t out).fab n).queue = (s.fab n).queue := State.queue_complete s _ n _

end Sys2Proof.Machine
end

