-- ==== Sys2Proof/Laws/Effect.lean ====
section
/-! SUPPORT. Everything a command can do, once: the inversion lemma of `exec`, and of a host's turn and a step. -/

namespace Sys2Proof.Machine

theorem State.routes_iff (s : State) (p : Port) : s.routes p = true ↔ homeDomain s.cfg p = some s.cur.dom := by
  simp [State.routes]

theorem State.onPort_home {s t : State} {p : Port} (h : homeDomain s.cfg p = some s.cur.dom) : s.onPort p t = t := by
  simp [State.onPort, State.routes, h]

theorem State.onPort_away {s t : State} {p : Port} (h : homeDomain s.cfg p ≠ some s.cur.dom) :
    s.onPort p t = s.raise .illegal none := by
  simp [State.onPort, State.routes, h]

/-- What a command does to the state. -/
inductive Effect (s : State) : State → Prop where
  /-- An error condition, charged to `ferr` (ILLEGAL only) or to a port of the issuing domain. -/
  | raised (e : ErrKind) (p : Option Port) (charge : p = none → e = .illegal)
      (home : ∀ q, p = some q → homeDomain s.cfg q = some s.cur.dom) : Effect s (s.raise e p)
  /-- A response, and nothing else. -/
  | answered (st : Status) (v : Word64) (k : Nat) (out : List Word) : Effect s (s.respond st v k out)
  /-- RB.INIT of a same-domain ring. -/
  | initSame (i a b : Nat) (home : homeDomain s.cfg (.rbp i) = some s.cur.dom) (same : sameDomain s.cfg i = true)
      (ok : initAccepts s.cfg a b = true) :
      Effect s ((s.setRb i ((s.rb i).initialised true (initCap a) b)).respond .ok (countVal (initCap a)) 0 [])
  /-- RB.INIT of a cross-domain ring: the producer phase. -/
  | initCross (i a b : Nat) (home : homeDomain s.cfg (.rbp i) = some s.cur.dom) (cross : sameDomain s.cfg i = false)
      (ok : initAccepts s.cfg a b = true) : Effect s (s.setRb i ((s.rb i).initialised false (initCap a) b))
  /-- RB.WRITE of k frames. -/
  | wrote (i a k : Nat) (home : homeDomain s.cfg (.rbp i) = some s.cur.dom) (init : (s.rb i).init = true)
      (len : s.cur.offered.length = a * (s.rb i).ch) (room : k = min a ((s.rb i).psnapW s.cfg.ptrW)) :
      Effect s ((s.setRb i ((s.rb i).written s.cfg.ptrW (sameDomain s.cfg i) s.dataIn k)).respond .ok (countVal k)
        (k * (s.rb i).ch) [])
  /-- RB.READ of k frames. -/
  | readOut (i a k : Nat) (home : homeDomain s.cfg (.rbc i) = some s.cur.dom) (idle : (s.rb i).pending = false)
      (init : (s.rb i).cinit = true) (room : k = min a ((s.rb i).csnapR s.cfg.ptrW)) :
      Effect s ((s.setRb i ((s.rb i).consumed s.cfg.ptrW (sameDomain s.cfg i) k)).respond .ok (countVal k) 0
        ((s.rb i).loadFrames k))
  /-- RS.CFG. -/
  | configured (j : Nat) (m : RsMode) (home : homeDomain s.cfg (.rs j) = some s.cur.dom) :
      Effect s ((s.setRs j { s.rs j with mode := m, cfgd := true }).respond .ok 0 0 [])
  /-- OLA.RESET. -/
  | streamReset (k : Nat) (home : homeDomain s.cfg (.ola k) = some s.cur.dom) :
      Effect s ((s.setOla k ((s.ola k).streaming s.cfg)).respond .ok 0 0 [])
  /-- OLA.PUSH. -/
  | pushed (k a : Nat) (home : homeDomain s.cfg (.ola k) = some s.cur.dom) (rdy : (s.ola k).rdy = true)
      (len : s.cur.offered.length = a) (room : (s.ola k).overruns s.cfg a = false) :
      Effect s ({ s.setOla k (pushAll s.cfg (s.ola k) s.draws s.cur.offered).1 with
        draws := (pushAll s.cfg (s.ola k) s.draws s.cur.offered).2 }.respond .ok
          (countVal ((s.ola k).pushCycles s.cfg a)) a [])
  /-- OLA.POP of m samples. -/
  | popped (k a m : Nat) (home : homeDomain s.cfg (.ola k) = some s.cur.dom) (rdy : (s.ola k).rdy = true)
      (avail : m = min a (s.ola k).avail) :
      Effect s ({ s.setOla k (popAll s.cfg s.draws m (s.ola k)).1 with draws := s.draws + m }.respond .ok (countVal m) 0
        (popAll s.cfg s.draws m (s.ola k)).2)

theorem Effect.onPort {s t : State} {p : Port} (h : homeDomain s.cfg p = some s.cur.dom → Effect s t) :
    Effect s (s.onPort p t) := by
  by_cases hp : homeDomain s.cfg p = some s.cur.dom
  · rw [State.onPort_home hp]; exact h hp
  · rw [State.onPort_away hp]; exact .raised _ _ (fun _ => rfl) (by simp)

theorem Effect.onCharged {s : State} {p : Port} (e : ErrKind) (h : homeDomain s.cfg p = some s.cur.dom) :
    Effect s (s.raise e (some p)) :=
  .raised e (some p) (by simp) (by rintro q ⟨⟩; exact h)

theorem Effect.answerReg {s : State} {p : Port} (r : Option Word64) (h : homeDomain s.cfg p = some s.cur.dom) :
    Effect s (s.answerReg p r) := by
  cases r with
  | none => exact .onCharged _ h
  | some v => exact .answered _ _ _ _

/-- Every command, in every state, has one of these effects. -/
theorem exec_effect (i : Instr) (s : State) : ∃ t, exec i s = .next t ∧ Effect s t := by
  cases i with
  | rbInit n a b =>
    refine ⟨_, rfl, .onPort fun h => ?_⟩
    split
    · split
      · rename_i hok hs; rw [hs]; exact .initSame _ _ _ h hs hok
      · rename_i hok hs
        have hs : sameDomain s.cfg n.toNat = false := by simpa using hs
        rw [hs]; exact .initCross _ _ _ h hs hok
    · exact .answered _ _ _ _
  | rbWrite n a =>
    refine ⟨_, rfl, .onPort fun h => ?_⟩
    split
    · exact .onCharged _ h
    · split
      · exact .onCharged _ h
      · rename_i hi hl
        exact .wrote _ (count a) _ h (by simpa using hi) (by simpa [State.offers] using hl) rfl
  | rbPavail n =>
    refine ⟨_, rfl, .onPort fun h => ?_⟩
    split
    · exact .onCharged _ h
    · exact .answered _ _ _ _
  | rbPstat n a => exact ⟨_, rfl, .onPort fun h => .answerReg _ h⟩
  | rbRead n a =>
    refine ⟨_, rfl, .onPort fun h => ?_⟩
    split
    · exact .onCharged _ h
    · split
      · exact .onCharged _ h
      · rename_i hp hi
        exact .readOut _ (count a) _ h (by simpa using hp) (by simpa using hi) rfl
  | rbCavail n =>
    refine ⟨_, rfl, .onPort fun h => ?_⟩
    split
    · exact .onCharged _ h
    · split
      · exact .onCharged _ h
      · exact .answered _ _ _ _
  | rbCstat n a =>
    refine ⟨_, rfl, .onPort fun h => ?_⟩
    split
    · exact .onCharged _ h
    · exact .answerReg _ h
  | rsCfg n m => exact ⟨_, rfl, .onPort fun h => .configured _ _ h⟩
  | rsReset n => exact ⟨_, rfl, .onPort fun _ => .answered _ _ _ _⟩
  | rsRun n a b =>
    refine ⟨_, rfl, .onPort fun h => ?_⟩
    split
    · exact .onCharged _ h
    · split
      · exact .onCharged _ h
      · exact .answered _ _ _ _
  | rsStat n a => exact ⟨_, rfl, .onPort fun h => .answerReg _ h⟩
  | olaReset n => exact ⟨_, rfl, .onPort fun h => .streamReset _ h⟩
  | olaPush n a =>
    refine ⟨_, rfl, .onPort fun h => ?_⟩
    split
    · exact .onCharged _ h
    · split
      · exact .onCharged _ h
      · split
        · exact .onCharged _ h
        · rename_i hr hl ho
          exact .pushed _ (count a) h (by simpa using hr) (by simpa [State.offers] using hl) (by simpa using ho)
  | olaPop n a =>
    refine ⟨_, rfl, .onPort fun h => ?_⟩
    split
    · exact .onCharged _ h
    · rename_i hr
      exact .popped _ (count a) _ h (by simpa using hr) rfl
  | olaStat n a => exact ⟨_, rfl, .onPort fun h => .answerReg _ h⟩

theorem exec_effect_of {i : Instr} {s t : State} (h : exec i s = .next t) : Effect s t := by
  obtain ⟨t', h', he⟩ := exec_effect i s
  rw [h'] at h; cases h; exact he

/-- The command on the port, decoded or refused, has one of the effects. -/
theorem runCommand_effect (s : State) : ∃ t, runCommand s = .next t ∧ Effect s t := by
  unfold runCommand
  split
  · exact exec_effect _ s
  · refine ⟨_, rfl, ?_⟩
    unfold State.refuseWord State.chargedTo
    cases hp : portOf s.cur.word with
    | none => exact .raised _ _ (by simp) (by simp)
    | some p =>
      by_cases h : s.routes p = true
      · simp only [h, if_true]; exact .onCharged _ ((State.routes_iff s p).1 h)
      · simp only [h]; exact .raised _ _ (by simp) (by simp)

/-- What a turn of an agent that exists does. -/
inductive Turn (s : State) : Event → State → Prop where
  | idle (d : Nat) (none : s.nextRequest d = .none) : Turn s (.host d) s
  | issued (d : Nat) (r : Request) (t : State) (next : s.nextRequest d = some r) (dom : d < s.cfg.nDom)
      (effect : Effect (s.takeRequest d r) t) : Turn s (.host d) t
  | initAck (i : Nat) (ring : i < s.cfg.nRb) : Turn s (.initAck i) (s.initAck i)
  | syncW2R (i draw : Nat) (ring : i < s.cfg.nRb) : Turn s (.syncW2R i draw) (s.syncW2R i draw)
  | syncR2W (i draw : Nat) (ring : i < s.cfg.nRb) : Turn s (.syncR2W i draw) (s.syncR2W i draw)
  | blockReset : Turn s .blockReset s.blockReset

theorem runEvent_turn {e : Event} {s t : State} (h : runEvent e s = .next t) : Turn s e t := by
  unfold runEvent at h
  split at h
  · rename_i he
    cases e with
    | host d =>
      simp only [hostTurn] at h
      split at h
      · rename_i r hr
        obtain ⟨t', ht', hf⟩ := runCommand_effect (s.takeRequest d r)
        rw [ht'] at h; cases h
        exact .issued d r _ hr (by simpa [State.agentExists] using he) hf
      · rename_i hr; cases h; exact .idle d hr
    | initAck i => cases h; exact .initAck i (by simpa [State.agentExists] using he)
    | syncW2R i v => cases h; exact .syncW2R i v (by simpa [State.agentExists] using he)
    | syncR2W i v => cases h; exact .syncR2W i v (by simpa [State.agentExists] using he)
    | blockReset => cases h; exact .blockReset
  · cases h

/-- A step is a turn: of the agent the schedule names, or of the one the fair choice picks; or nothing moves. -/
theorem step_turn {s t : State} (h : step s = .next t) :
    (∃ e rest, s.sched = e :: rest ∧ Turn { s with sched := rest } e t) ∨
    (s.sched = [] ∧ ∃ e, s.fairEvent = some e ∧ Turn { s with draws := s.draws + 1 } e t) ∨
    (s.sched = [] ∧ s.fairEvent = none ∧ t = s) := by
  unfold step at h
  split at h
  · rename_i e rest hs; exact .inl ⟨e, rest, hs, runEvent_turn h⟩
  · rename_i hs
    split at h
    · rename_i e he; exact .inr (.inl ⟨hs, e, he, runEvent_turn h⟩)
    · rename_i he; cases h; exact .inr (.inr ⟨hs, he, rfl⟩)

end Sys2Proof.Machine
end

