-- ==== Sys2Proof/Laws/Command.lean ====
section
/-! SUPPORT. Ports and their domains, what a completion adds, what raising a condition leaves alone, the response value
forms, and how the machine's invariant is kept by replacing one unit. -/

namespace Sys2Proof.Machine

/-! ## Ports -/

theorem home_rbp {c : Config} {i d : Nat} (h : homeDomain c (.rbp i) = some d) : i < c.nRb ∧ producerDomain c i = d := by
  simp only [homeDomain] at h; split at h <;> simp_all

theorem home_rbc {c : Config} {i d : Nat} (h : homeDomain c (.rbc i) = some d) : i < c.nRb ∧ consumerDomain c i = d := by
  simp only [homeDomain] at h; split at h <;> simp_all

theorem home_rs {c : Config} {j d : Nat} (h : homeDomain c (.rs j) = some d) : j < c.nRs ∧ 0 = d := by
  simp only [homeDomain] at h; split at h <;> simp_all

theorem home_ola {c : Config} {k d : Nat} (h : homeDomain c (.ola k) = some d) : k < c.nOla ∧ 0 = d := by
  simp only [homeDomain] at h; split at h <;> simp_all

/-! ## Completions -/

/-- A response of a state with the same fabrics delivers exactly that completion. -/
theorem answers_respond {s u : State} {st : Status} {v : Word64} {n : Nat} {out : List Word} (hf : u.fabs = s.fabs)
    (hc : u.cur = s.cur) (hd : s.cur.dom < s.fabs.length) :
    Answers s (u.respond st v n out) { st := st, val := v, taken := n, out := out } := by
  have e : ∀ d, u.fab d = s.fab d := fun d => by simp [State.fab, hf]
  constructor
  · simp only [State.respond, hc]
    rw [State.fab_complete_self _ _ (by rw [hf]; exact hd), e]
  · intro d h
    simp only [State.respond, hc]
    rw [State.fab_complete_ne _ _ h, e]

theorem Admitted.dom_lt {s : State} {p : Port} (h : Admitted s p) : s.cur.dom < s.fabs.length := by
  rw [h.sized.fabs]; exact h.domain

theorem answers_unique {s t : State} {c d : Completion} (h : Answers s t c) (h' : Answers s t d) : c = d := by
  have := h.1.symm.trans h'.1
  simpa using this

theorem keeps_respond {s u : State} {st : Status} {v : Word64} {n : Nat} {out : List Word} (h1 : u.cfg = s.cfg)
    (h2 : u.cur = s.cur) (h3 : u.faults = s.faults) (h4 : u.sched = s.sched) (h5 : u.fabs = s.fabs) :
    KeepsRecords s (u.respond st v n out) := by
  have e : ∀ d, u.fab d = s.fab d := fun d => by simp [State.fab, h5]
  exact ⟨h1, h2, h3, h4, fun d => by simp [e], fun d => by simp [e]⟩

theorem onlyAnswer_respond {s : State} {st : Status} {v : Word64} {n : Nat} {out : List Word} :
    OnlyAnswer s (s.respond st v n out) :=
  ⟨keeps_respond rfl rfl rfl rfl rfl, rfl, rfl, rfl, rfl⟩

theorem onlyRing_setRb {s : State} {i : Nat} {r : Rb} : OnlyRing i s (s.setRb i r) :=
  ⟨⟨rfl, rfl, rfl, rfl, fun _ => rfl, fun _ => rfl⟩, fun _ hj => State.rb_setRb_ne s r hj, rfl, rfl, rfl⟩

theorem onlyRing_respond {s : State} {i : Nat} {r : Rb} {st : Status} {v : Word64} {n : Nat} {out : List Word} :
    OnlyRing i s ((s.setRb i r).respond st v n out) :=
  ⟨keeps_respond rfl rfl rfl rfl rfl, fun j hj => by simp [State.rb_setRb_ne s r hj], rfl, rfl, rfl⟩

theorem onlySpectral_respond {s : State} {k d : Nat} {o : Ola} {st : Status} {v : Word64} {n : Nat} {out : List Word} :
    OnlySpectral k s ({ s.setOla k o with draws := d }.respond st v n out) :=
  ⟨keeps_respond rfl rfl rfl rfl rfl,
    fun j hj => by simp only [State.ola_respond]; exact State.ola_setOla_ne s o hj, rfl, rfl⟩

/-! ## Raising -/

/-- Setting an error bit leaves what is not an error register. -/
theorem State.setErr_keeps (s : State) (e : ErrKind) (p : Option Port) :
    (s.setErr e p).cfg = s.cfg ∧ (s.setErr e p).cur = s.cur ∧ (s.setErr e p).faults = s.faults ∧
    (s.setErr e p).sched = s.sched ∧ (s.setErr e p).draws = s.draws ∧ (s.setErr e p).fabs.length = s.fabs.length := by
  cases p with
  | none => simp [State.setErr]
  | some q => cases q <;> exact ⟨rfl, rfl, rfl, rfl, rfl, rfl⟩

theorem State.raise_keeps (s : State) (e : ErrKind) (p : Option Port) :
    (s.raise e p).cfg = s.cfg ∧ (s.raise e p).cur = s.cur ∧ (s.raise e p).sched = s.sched ∧
    (s.raise e p).draws = s.draws := by
  obtain ⟨h1, h2, -, h4, h5, -⟩ := s.setErr_keeps e p
  exact ⟨h1, h2, h4, h5⟩

/-! ## Values -/

theorem getD_set {α : Type} (l : List α) (i j : Nat) (x d : α) :
    (l.set i x).getD j d = if i = j ∧ j < l.length then x else l.getD j d := by
  simp only [List.getD_eq_getElem?_getD, List.getElem?_set]
  by_cases h : i = j
  · subst h
    by_cases h2 : i < l.length
    · simp [h2]
    · simp [h2]
  · simp [h]

theorem regVal_toNat {w n : Nat} (hw : w ≤ 64) (h : n < 2 ^ w) : (regVal w n).toNat = n := by
  simp only [regVal, BitVec.toNat_setWidth, BitVec.toNat_ofNat, Nat.mod_eq_of_lt h]
  exact Nat.mod_eq_of_lt (Nat.lt_of_lt_of_le h (Nat.pow_le_pow_right (by omega) hw))

theorem flagWord_toNat (a b : Bool) : (flagWord a b).toNat = (if a then 1 else 0) + (if b then 2 else 0) := by
  cases a <;> cases b <;> rfl

theorem availVal_toNat {x y : Nat} (hx : x < 2 ^ 32) (hy : y < 2 ^ 32) : (availVal x y).toNat = y * 2 ^ 32 + x := by
  simp only [availVal, BitVec.toNat_append, BitVec.toNat_ofNat, Nat.mod_eq_of_lt hx, Nat.mod_eq_of_lt hy]
  rw [← Nat.shiftLeft_add_eq_or_of_lt hx, Nat.shiftLeft_eq]

/-! ## The invariant, unit by unit -/

/-- A state that differs from one with the invariant in nothing the invariant speaks of has it too. -/
theorem Inv.congr {s t : State} (h : Inv s) (hc : t.cfg = s.cfg) (hr : t.rbs = s.rbs) (hs : t.rss = s.rss)
    (ho : t.olas = s.olas) (hl : t.fabs.length = s.fabs.length) (hf : ∀ d, (t.fab d).ferr = (s.fab d).ferr) : Inv t := by
  obtain ⟨a, b, c, d, e, f⟩ := h
  refine ⟨hc ▸ a, ⟨hl ▸ hc ▸ b.fabs, hr ▸ hc ▸ b.rbs, hs ▸ hc ▸ b.rss, ho ▸ hc ▸ b.olas⟩, ?_, ?_, ?_, ?_⟩
  · simp only [State.rb, hr, hc]; exact c
  · simp only [State.rs, hs, hc]; exact d
  · simp only [State.ola, ho, hc]; exact e
  · rw [hc]; intro d hd; rw [hf]; exact f d hd

theorem Inv.setRb {s : State} (h : Inv s) {i : Nat} {r : Rb} (hr : i < s.cfg.nRb → RingInv s.cfg i r) :
    Inv (s.setRb i r) := by
  obtain ⟨a, b, c, d, e, f⟩ := h
  refine ⟨a, ⟨b.fabs, by simp [b.rbs], b.rss, b.olas⟩, ?_, d, e, f⟩
  intro j hj
  by_cases hij : j = i
  · subst hij; rw [State.rb_setRb_self s r (by rw [b.rbs]; exact hj)]; exact hr hj
  · rw [State.rb_setRb_ne s r hij]; exact c j hj

theorem Inv.setRs {s : State} (h : Inv s) {i : Nat} {r : Rs} (hr : i < s.cfg.nRs → errClean r.err) :
    Inv (s.setRs i r) := by
  obtain ⟨a, b, c, d, e, f⟩ := h
  refine ⟨a, ⟨b.fabs, b.rbs, by simp [b.rss], b.olas⟩, c, ?_, e, f⟩
  intro j hj
  by_cases hij : j = i
  · subst hij; rw [State.rs_setRs_self s r (by rw [b.rss]; exact hj)]; exact hr hj
  · rw [State.rs_setRs_ne s r hij]; exact d j hj

theorem Inv.setOla {s : State} (h : Inv s) {i : Nat} {r : Ola} (hr : i < s.cfg.nOla → SpectralInv s.cfg r) :
    Inv (s.setOla i r) := by
  obtain ⟨a, b, c, d, e, f⟩ := h
  refine ⟨a, ⟨b.fabs, b.rbs, b.rss, by simp [b.olas]⟩, c, d, ?_, f⟩
  intro j hj
  by_cases hij : j = i
  · subst hij; rw [State.ola_setOla_self s r (by rw [b.olas]; exact hj)]; exact hr hj
  · rw [State.ola_setOla_ne s r hij]; exact e j hj

theorem Inv.setFab {s : State} (h : Inv s) {i : Nat} {r : Fabric} (hr : i < s.cfg.nDom → r.ferr &&& 0xFFFFFFFE = 0) :
    Inv (s.setFab i r) := by
  obtain ⟨a, b, c, d, e, f⟩ := h
  refine ⟨a, ⟨by simp [b.fabs], b.rbs, b.rss, b.olas⟩, c, d, e, ?_⟩
  intro j hj
  by_cases hij : j = i
  · subst hij; rw [State.fab_setFab_self s r (by rw [b.fabs]; exact hj)]; exact hr hj
  · rw [State.fab_setFab_ne s r hij]; exact f j hj

theorem errClean_or {e : BitVec 32} (k : ErrKind) (h : errClean e) : errClean (e ||| errBit k) := by
  unfold errClean at *
  rw [BitVec.and_comm] at h ⊢
  rw [BitVec.and_or_distrib_left, h]
  cases k <;> rfl

end Sys2Proof.Machine
end

