-- ==== Sys2Proof/Laws/Cursor.lean ====
section
/-! SUPPORT. Cursor arithmetic: `dist`, `advance`, slots and the targets of SYNC moves. -/

namespace Sys2Proof.Machine

theorem two_pow_pos' (w : Nat) : 0 < 2 ^ w := Nat.two_pow_pos w

theorem dist_lt (w a b : Nat) : dist w a b < 2 ^ w := Nat.mod_lt _ (Nat.two_pow_pos w)

theorem advance_lt (w a n : Nat) : advance w a n < 2 ^ w := Nat.mod_lt _ (Nat.two_pow_pos w)

/-- On cursors in range, the distance is a difference or wraps once. -/
theorem dist_eq {w a b : Nat} (ha : a < 2 ^ w) (hb : b < 2 ^ w) :
    dist w a b = if a ≤ b then b - a else b + 2 ^ w - a := by
  unfold dist
  rw [Nat.mod_eq_of_lt ha]
  split
  · rw [show b + (2 ^ w - a) = b - a + 2 ^ w by omega, Nat.add_mod_right, Nat.mod_eq_of_lt (by omega)]
  · rw [Nat.mod_eq_of_lt (by omega)]; omega

theorem advance_eq {w a n : Nat} (ha : a < 2 ^ w) (hn : n ≤ 2 ^ w) :
    advance w a n = if a + n < 2 ^ w then a + n else a + n - 2 ^ w := by
  unfold advance
  split
  · rw [Nat.mod_eq_of_lt ‹_›]
  · rw [show a + n = a + n - 2 ^ w + 2 ^ w by omega, Nat.add_mod_right, Nat.mod_eq_of_lt (by omega)]; omega

@[simp] theorem dist_self (w a : Nat) : dist w a a = 0 := by
  unfold dist
  have h := Nat.mod_lt a (Nat.two_pow_pos w)
  conv => lhs; rw [Nat.add_mod]
  rcases Nat.eq_zero_or_pos (a % 2 ^ w) with h0 | h0
  · simp [h0]
  · rw [Nat.mod_eq_of_lt (show 2 ^ w - a % 2 ^ w < 2 ^ w by omega),
      show a % 2 ^ w + (2 ^ w - a % 2 ^ w) = 2 ^ w by omega, Nat.mod_self]

theorem dist_eq_zero {w a b : Nat} (ha : a < 2 ^ w) (hb : b < 2 ^ w) (h : dist w a b = 0) : a = b := by
  rw [dist_eq ha hb] at h
  split at h <;> omega

/-- Moving the far end forward adds to the distance, as long as it does not lap. -/
theorem dist_advance_right {w a b n : Nat} (ha : a < 2 ^ w) (hb : b < 2 ^ w) (h : dist w a b + n < 2 ^ w) :
    dist w a (advance w b n) = dist w a b + n := by
  have := dist_lt w a b
  rw [dist_eq ha (advance_lt w b n), advance_eq hb (by omega)]
  rw [dist_eq ha hb] at h this ⊢
  split_ifs at * <;> omega

/-- Moving the near end forward takes from the distance, as long as it does not pass. -/
theorem dist_advance_left {w a b n : Nat} (ha : a < 2 ^ w) (hb : b < 2 ^ w) (h : n ≤ dist w a b) :
    dist w (advance w a n) b = dist w a b - n := by
  have := dist_lt w a b
  rw [dist_eq (advance_lt w a n) hb, advance_eq ha (by omega)]
  rw [dist_eq ha hb] at h this ⊢
  split_ifs at * <;> omega

/-- The way from a to b is the way to a point on it and the way on. -/
theorem dist_add {w a b c : Nat} (ha : a < 2 ^ w) (hb : b < 2 ^ w) (hc : c < 2 ^ w)
    (h : dist w a b + dist w b c < 2 ^ w) : dist w a c = dist w a b + dist w b c := by
  rw [dist_eq ha hc]
  rw [dist_eq ha hb, dist_eq hb hc] at h ⊢
  split_ifs at * <;> omega

theorem advance_dist {w a b : Nat} (ha : a < 2 ^ w) (hb : b < 2 ^ w) : advance w a (dist w a b) = b := by
  have := dist_lt w a b
  rw [advance_eq ha (by omega)]
  rw [dist_eq ha hb] at this ⊢
  split_ifs at * <;> omega

/-- A SYNC move stays on the way from the view to the cursor and moves (R124). -/
theorem syncTarget_spec {w view cursor draw : Nat} (hv : view < 2 ^ w) (hc : cursor < 2 ^ w) (hne : view ≠ cursor) :
    syncTarget w view cursor draw < 2 ^ w ∧ 0 < dist w view (syncTarget w view cursor draw) ∧
      dist w view (syncTarget w view cursor draw) + dist w (syncTarget w view cursor draw) cursor = dist w view cursor := by
  have hpos : 0 < dist w view cursor := by
    rcases Nat.eq_zero_or_pos (dist w view cursor) with h | h
    · exact absurd (dist_eq_zero hv hc h) hne
    · exact h
  have hm := Nat.mod_lt draw hpos
  have hl := dist_lt w view cursor
  unfold syncTarget
  have h1 : dist w view (advance w view (1 + draw % dist w view cursor)) = 1 + draw % dist w view cursor := by
    rw [dist_advance_right hv hv (by simp; omega)]; simp
  have h2 := dist_advance_left (n := 1 + draw % dist w view cursor) hv hc (by omega)
  refine ⟨advance_lt _ _ _, ?_, ?_⟩
  · omega
  · omega

theorem nextPow2_ge (n : Nat) : n ≤ nextPow2 n := by
  unfold nextPow2
  split
  · assumption
  · have := Nat.lt_log2_self (n := n - 1)
    omega

end Sys2Proof.Machine
end

