-- ==== Sys2Proof/Laws/PerInstr.lean ====
section
/-! SUPPORT. Per-command laws of the encoding: one lemma per constructor of `Instr`. -/

namespace Sys2Proof.Laws

/-! ## The fields of a packed word -/

theorem unitOf_packWord (u o n : BitVec 4) (b a : BitVec 24) : unitOf (packWord u o n b a) = u := by
  unfold unitOf packWord
  apply BitVec.eq_of_getLsbD_eq
  intro i hi
  simp only [BitVec.getLsbD_extractLsb', BitVec.getLsbD_append, hi, decide_true, Bool.true_and]
  have e : 60 + i - 24 - 24 - 4 - 4 - 4 = i := by omega
  simp [show ¬ 60 + i < 24 by omega, show ¬ 60 + i - 24 < 24 by omega, show ¬ 60 + i - 24 - 24 < 4 by omega,
    show ¬ 60 + i - 24 - 24 - 4 < 4 by omega, show ¬ 60 + i - 24 - 24 - 4 - 4 < 4 by omega, e]

theorem instOf_packWord (u o n : BitVec 4) (b a : BitVec 24) : instOf (packWord u o n b a) = n := by
  unfold instOf packWord
  apply BitVec.eq_of_getLsbD_eq
  intro i hi
  simp only [BitVec.getLsbD_extractLsb', BitVec.getLsbD_append, hi, decide_true, Bool.true_and]
  have e : 52 + i - 24 - 24 - 4 = i := by omega
  simp [show ¬ 52 + i < 24 by omega, show ¬ 52 + i - 24 < 24 by omega, show ¬ 52 + i - 24 - 24 < 4 by omega,
    e, show ¬ 4 ≤ i by omega]

theorem rsvOf_packWord (u o n : BitVec 4) (b a : BitVec 24) : rsvOf (packWord u o n b a) = 0 := by
  unfold rsvOf packWord
  apply BitVec.eq_of_getLsbD_eq
  intro i hi
  simp only [BitVec.getLsbD_extractLsb', BitVec.getLsbD_append, hi, decide_true, Bool.true_and]
  simp [show ¬ 48 + i < 24 by omega, show ¬ 48 + i - 24 < 24 by omega, show 48 + i - 24 - 24 < 4 by omega]

/-- UNIT names the port's side (R152). -/
theorem portOf_packWord (u o n : BitVec 4) (b a : BitVec 24) {p : Port}
    (h : ∀ w, unitOf w = u → instOf w = n → portOf w = some p) : portOf (packWord u o n b a) = some p :=
  h _ (unitOf_packWord u o n b a) (instOf_packWord u o n b a)

theorem portOf_rbp {w : Word64} {n : BitVec 4} (hu : unitOf w = 1) (hn : instOf w = n) :
    portOf w = some (.rbp n.toNat) := by
  unfold portOf; rw [hu, hn]; rfl

theorem portOf_rbc {w : Word64} {n : BitVec 4} (hu : unitOf w = 2) (hn : instOf w = n) :
    portOf w = some (.rbc n.toNat) := by
  unfold portOf; rw [hu, hn]; rfl

theorem portOf_rs {w : Word64} {n : BitVec 4} (hu : unitOf w = 3) (hn : instOf w = n) :
    portOf w = some (.rs n.toNat) := by
  unfold portOf; rw [hu, hn]; rfl

theorem portOf_ola {w : Word64} {n : BitVec 4} (hu : unitOf w = 4) (hn : instOf w = n) :
    portOf w = some (.ola n.toNat) := by
  unfold portOf; rw [hu, hn]; rfl

/-! ## The family EncodeShape -/

/-- The word of a command has RSV zero (R157), its INST (R154), and names its port (R152). -/
def EncodeShape.Statement (i : Instr) : Prop :=
  rsvOf (encode i) = 0 ∧ instOf (encode i) = i.inst ∧ portOf (encode i) = some i.port

/-- The shape of a packed word whose UNIT and INST are those of the command's port. -/
theorem EncodeShape.packed {i : Instr} {u o n : BitVec 4} {b a : BitVec 24} (he : encode i = packWord u o n b a)
    (hn : n = i.inst) (hp : ∀ w, unitOf w = u → instOf w = n → portOf w = some i.port) : EncodeShape.Statement i := by
  unfold EncodeShape.Statement
  rw [he]
  exact ⟨rsvOf_packWord _ _ _ _ _, hn ▸ instOf_packWord _ _ _ _ _, portOf_packWord _ _ _ _ _ hp⟩

theorem EncodeShape.rbInit (n : BitVec 4) (a b : BitVec 24) : EncodeShape.Statement (.rbInit n a b) := 
  EncodeShape.packed rfl rfl fun _ => portOf_rbp

theorem EncodeShape.rbWrite (n : BitVec 4) (a : BitVec 24) : EncodeShape.Statement (.rbWrite n a) := 
  EncodeShape.packed rfl rfl fun _ => portOf_rbp

theorem EncodeShape.rbPavail (n : BitVec 4) : EncodeShape.Statement (.rbPavail n) := 
  EncodeShape.packed rfl rfl fun _ => portOf_rbp

theorem EncodeShape.rbPstat (n : BitVec 4) (a : BitVec 24) : EncodeShape.Statement (.rbPstat n a) := 
  EncodeShape.packed rfl rfl fun _ => portOf_rbp

theorem EncodeShape.rbRead (n : BitVec 4) (a : BitVec 24) : EncodeShape.Statement (.rbRead n a) := 
  EncodeShape.packed rfl rfl fun _ => portOf_rbc

theorem EncodeShape.rbCavail (n : BitVec 4) : EncodeShape.Statement (.rbCavail n) := 
  EncodeShape.packed rfl rfl fun _ => portOf_rbc

theorem EncodeShape.rbCstat (n : BitVec 4) (a : BitVec 24) : EncodeShape.Statement (.rbCstat n a) := 
  EncodeShape.packed rfl rfl fun _ => portOf_rbc

theorem EncodeShape.rsCfg (n : BitVec 4) (m : RsMode) : EncodeShape.Statement (.rsCfg n m) := by
  cases m <;> exact EncodeShape.packed rfl rfl fun _ => portOf_rs

theorem EncodeShape.rsReset (n : BitVec 4) : EncodeShape.Statement (.rsReset n) := 
  EncodeShape.packed rfl rfl fun _ => portOf_rs

theorem EncodeShape.rsRun (n : BitVec 4) (a b : BitVec 24) : EncodeShape.Statement (.rsRun n a b) := 
  EncodeShape.packed rfl rfl fun _ => portOf_rs

theorem EncodeShape.rsStat (n : BitVec 4) (a : BitVec 24) : EncodeShape.Statement (.rsStat n a) := 
  EncodeShape.packed rfl rfl fun _ => portOf_rs

theorem EncodeShape.olaReset (n : BitVec 4) : EncodeShape.Statement (.olaReset n) := 
  EncodeShape.packed rfl rfl fun _ => portOf_ola

theorem EncodeShape.olaPush (n : BitVec 4) (a : BitVec 24) : EncodeShape.Statement (.olaPush n a) := 
  EncodeShape.packed rfl rfl fun _ => portOf_ola

theorem EncodeShape.olaPop (n : BitVec 4) (a : BitVec 24) : EncodeShape.Statement (.olaPop n a) := 
  EncodeShape.packed rfl rfl fun _ => portOf_ola

theorem EncodeShape.olaStat (n : BitVec 4) (a : BitVec 24) : EncodeShape.Statement (.olaStat n a) := 
  EncodeShape.packed rfl rfl fun _ => portOf_ola

end Sys2Proof.Laws
end

