-- ==== Sys2Proof/Laws/Storage.lean ====
section
/-! SUPPORT. Storage arrays: reading after writing, and that every operation keeps the canonical form. -/

namespace Sys2Proof.Machine

/-- A read after a write gives the value written, and every other index reads as before. -/
theorem Mem.read_write (m : Mem) (a : Nat) (w : Word) (b : Nat) :
    Mem.read (Mem.write m a w) b = if b = a then some w else Mem.read m b := by
  induction m with
  | nil => by_cases h : b = a <;> simp [Mem.write, Mem.read, h]
  | cons p m ih =>
    obtain ⟨k, v⟩ := p
    unfold Mem.write
    split
    · by_cases h : b = a <;> simp [Mem.read, h]
    · split
      · subst_vars
        by_cases h : b = k <;> simp [Mem.read, h]
      · rename_i h1 h2
        by_cases h : b = k
        · have : ¬ k = a := fun e => h2 e.symm
          simp [Mem.read, h, this]
        · simp [Mem.read, h, ih]

theorem Mem.read_write_self (m : Mem) (a : Nat) (w : Word) : Mem.read (Mem.write m a w) a = some w := by
  simp [Mem.read_write]

theorem Mem.read_write_ne (m : Mem) {a b : Nat} (w : Word) (h : b ≠ a) :
    Mem.read (Mem.write m a w) b = Mem.read m b := by
  simp [Mem.read_write, h]

/-- The first index of a written array is the written one or the old first one. -/
theorem Mem.head_write (m : Mem) (a : Nat) (w : Word) :
    ∃ x n, Mem.write m a w = x :: n ∧ (x.1 = a ∨ ∃ y l, m = y :: l ∧ x.1 = y.1 ∧ y.1 < a) := by
  cases m with
  | nil => exact ⟨_, _, rfl, .inl rfl⟩
  | cons p m =>
    obtain ⟨k, v⟩ := p
    unfold Mem.write
    split
    · exact ⟨_, _, rfl, .inl rfl⟩
    · split
      · exact ⟨_, _, rfl, .inl rfl⟩
      · exact ⟨_, _, rfl, .inr ⟨_, _, rfl, rfl, by simp; omega⟩⟩

theorem Mem.wf_tail {p : Nat × Word} {m : Mem} (h : Mem.wf (p :: m) = true) : Mem.wf m = true := by
  cases m with
  | nil => rfl
  | cons q m => simp [Mem.wf] at h; exact h.2

/-- A write keeps the canonical form. -/
theorem Mem.wf_write (m : Mem) (a : Nat) (w : Word) (h : Mem.wf m = true) : Mem.wf (Mem.write m a w) = true := by
  induction m with
  | nil => rfl
  | cons p m ih =>
    obtain ⟨k, v⟩ := p
    unfold Mem.write
    split
    · rename_i hlt
      simp [Mem.wf, hlt, h]
    · split
      · subst_vars
        cases m with
        | nil => rfl
        | cons q l => simpa [Mem.wf] using h
      · rename_i h1 h2
        obtain ⟨x, n, hx, hor⟩ := Mem.head_write m a w
        have hw := ih (Mem.wf_tail h)
        rw [hx] at hw ⊢
        have : k < x.1 := by
          rcases hor with e | ⟨y, l, e, e1, _⟩
          · omega
          · subst e
            simp [Mem.wf] at h
            omega
        obtain ⟨xk, xv⟩ := x
        simp [Mem.wf, hw]
        exact this

/-- A tabulated array is canonical. -/
theorem Mem.wf_tabulate (f : Nat → Word) (n : Nat) : Mem.wf ((List.range n).map fun a => (a, f a)) = true := by
  suffices h : ∀ n k, Mem.wf ((List.range' k n).map fun a => (a, f a)) = true by
    rw [List.range_eq_range']; exact h n 0
  intro n
  induction n with
  | zero => intro k; rfl
  | succ n ih =>
    intro k
    cases n with
    | zero => rfl
    | succ n =>
      have := ih (k + 1)
      simp only [List.range'_succ, List.map_cons] at this ⊢
      simp [Mem.wf, this]

theorem Mem.read_tabulate (f : Nat → Word) (n a : Nat) :
    Mem.read ((List.range n).map fun a => (a, f a)) a = if a < n then some (f a) else none := by
  suffices h : ∀ n k, Mem.read ((List.range' k n).map fun a => (a, f a)) a =
      if k ≤ a ∧ a < k + n then some (f a) else none by
    rw [List.range_eq_range', h n 0]; simp
  intro n
  induction n with
  | zero => intro k; simp [Mem.read]
  | succ n ih =>
    intro k
    simp only [List.range'_succ, List.map_cons, Mem.read, ih]
    by_cases h : a = k
    · subst h; simp
    · have : (k ≤ a ∧ a < k + (n + 1)) ↔ (k + 1 ≤ a ∧ a < k + 1 + n) := by omega
      simp [h, this]

theorem Mem.wf_zeros (n : Nat) : Mem.wf (Mem.zeros n) = true := Mem.wf_tabulate _ n

theorem Mem.read_zeros (n a : Nat) : Mem.read (Mem.zeros n) a = if a < n then some fZero else none :=
  Mem.read_tabulate _ n a

/-- Every listed index is the written one or was listed before. -/
theorem Mem.mem_write {m : Mem} {a : Nat} {w : Word} {p : Nat × Word} (h : p ∈ Mem.write m a w) : p.1 = a ∨ p ∈ m := by
  induction m with
  | nil => simp [Mem.write] at h; exact .inl (by rw [h])
  | cons q m ih =>
    obtain ⟨k, v⟩ := q
    unfold Mem.write at h
    split at h
    · simp only [List.mem_cons] at h
      rcases h with rfl | h
      · exact .inl rfl
      · exact .inr (by simpa using h)
    · split at h
      · simp only [List.mem_cons] at h
        rcases h with rfl | h
        · exact .inl rfl
        · exact .inr (by simp [h])
      · simp only [List.mem_cons] at h
        rcases h with rfl | h
        · exact .inr (by simp)
        · rcases ih h with h | h
          · exact .inl h
          · exact .inr (by simp [h])

/-! ### Loops of writes -/

/-- Where a loop of writes to `addr n` did not write, the array reads as before. -/
theorem Mem.read_foldl_write_ne (addr : Nat → Nat) (val : Mem → Nat → Word) (l : List Nat) (m : Mem) (b : Nat)
    (h : ∀ n ∈ l, addr n ≠ b) :
    Mem.read (l.foldl (fun m n => Mem.write m (addr n) (val m n)) m) b = Mem.read m b := by
  induction l generalizing m with
  | nil => rfl
  | cons n l ih =>
    rw [List.foldl_cons, ih _ fun k hk => h k (by simp [hk]),
      Mem.read_write_ne _ _ (Ne.symm (h n (by simp)))]

theorem Mem.wf_foldl_write (addr : Nat → Nat) (val : Mem → Nat → Word) (l : List Nat) (m : Mem)
    (h : Mem.wf m = true) : Mem.wf (l.foldl (fun m n => Mem.write m (addr n) (val m n)) m) = true := by
  induction l generalizing m with
  | nil => exact h
  | cons n l ih => exact ih _ (Mem.wf_write _ _ _ h)

theorem Mem.mem_foldl_write {addr : Nat → Nat} {val : Mem → Nat → Word} {l : List Nat} {m : Mem} {p : Nat × Word}
    (h : p ∈ l.foldl (fun m n => Mem.write m (addr n) (val m n)) m) : (∃ n ∈ l, p.1 = addr n) ∨ p ∈ m := by
  induction l generalizing m with
  | nil => exact .inr h
  | cons n l ih =>
    rcases ih h with ⟨k, hk, e⟩ | h
    · exact .inl ⟨k, by simp [hk], e⟩
    · rcases Mem.mem_write h with e | h
      · exact .inl ⟨n, by simp, e⟩
      · exact .inr h

/-- A loop whose writes go to different places leaves at each of them the value of its own turn, computed from the
array as it was there before the loop, when that value depends on that place alone. -/
theorem Mem.read_foldl_write_self (addr : Nat → Nat) (val : Mem → Nat → Word) (l : List Nat) (m : Mem)
    (hd : l.Nodup) (hinj : ∀ i ∈ l, ∀ j ∈ l, addr i = addr j → i = j)
    (hval : ∀ m m' : Mem, ∀ n ∈ l, Mem.read m (addr n) = Mem.read m' (addr n) → val m n = val m' n)
    {n : Nat} (hn : n ∈ l) :
    Mem.read (l.foldl (fun m n => Mem.write m (addr n) (val m n)) m) (addr n) = some (val m n) := by
  induction l generalizing m with
  | nil => cases hn
  | cons k l ih =>
    have hk := List.nodup_cons.1 hd
    rcases List.mem_cons.1 hn with rfl | hn'
    · rw [List.foldl_cons, Mem.read_foldl_write_ne, Mem.read_write_self]
      intro j hj e
      have := hinj j (by simp [hj]) n (by simp) e
      exact hk.1 (this ▸ hj)
    · rw [List.foldl_cons, ih _ hk.2 (fun i hi j hj => hinj i (by simp [hi]) j (by simp [hj]))
        (fun m m' j hj => hval m m' j (by simp [hj])) hn']
      congr 1
      apply hval _ _ n hn
      rw [Mem.read_write_ne]
      intro e
      have := hinj n hn k (by simp) e
      exact hk.1 (this ▸ hn')

end Sys2Proof.Machine
end

