-- ==== Sys2Proof/Laws/Ring.lean ====
section
/-! SUPPORT. What each operation on a ring keeps of its invariant, and where its words lie. -/

namespace Sys2Proof.Machine

theorem Legal.cap_lt {c : Config} (h : Legal c) : 2 * c.maxCap ≤ 2 ^ c.ptrW := by
  obtain ⟨k, h1, h2, e⟩ := h.capacity
  have hp := h.pointers.1
  rw [e, Nat.log2_two_pow] at hp
  rw [e, ← Nat.pow_succ']
  exact Nat.pow_le_pow_right (by omega) hp

/-- Distinct frames less than a capacity apart have distinct words. -/
theorem Rb.wordIndex_inj {rb : Rb} {base f g c d : Nat} (hf : f < rb.cap) (hg : g < rb.cap) (hc : c < rb.ch) (hd : d < rb.ch)
    (h : rb.wordIndex (base + f) c = rb.wordIndex (base + g) d) : f = g ∧ c = d := by
  unfold Rb.wordIndex Rb.slot at h
  have hch : 0 < rb.ch := by omega
  have h1 := congrArg (· / rb.ch) h
  have h2 := congrArg (· % rb.ch) h
  simp only [Nat.mul_comm _ rb.ch, Nat.mul_add_div hch, Nat.mul_add_mod, Nat.div_eq_of_lt hc, Nat.div_eq_of_lt hd,
    Nat.mod_eq_of_lt hc, Nat.mod_eq_of_lt hd] at h1 h2
  refine ⟨?_, h2⟩
  have h3 : (base + f) % rb.cap = (base + g) % rb.cap := by simpa using h1
  have h4 : f % rb.cap = g % rb.cap := Nat.ModEq.add_left_cancel' base h3
  rwa [Nat.mod_eq_of_lt hf, Nat.mod_eq_of_lt hg] at h4

theorem Rb.wordIndex_lt {rb : Rb} {f c : Nat} (hcap : 0 < rb.cap) (hc : c < rb.ch) : rb.wordIndex f c < rb.cap * rb.ch := by
  unfold Rb.wordIndex Rb.slot
  have := Nat.mod_lt f hcap
  calc f % rb.cap * rb.ch + c < f % rb.cap * rb.ch + rb.ch := by omega
    _ = (f % rb.cap + 1) * rb.ch := by ring
    _ ≤ rb.cap * rb.ch := Nat.mul_le_mul_right _ this

theorem Rb.wordIndex_mod {rb : Rb} {w k f c : Nat} (hk : rb.cap = 2 ^ k) (hw : k ≤ w) :
    rb.wordIndex (f % 2 ^ w) c = rb.wordIndex f c := by
  unfold Rb.wordIndex Rb.slot
  rw [hk, Nat.mod_mod_of_dvd _ (pow_dvd_pow 2 hw)]

theorem Rb.wordIndex_advance {rb : Rb} {w k f g c : Nat} (hk : rb.cap = 2 ^ k) (hw : k ≤ w) :
    rb.wordIndex (advance w f g + n) c = rb.wordIndex (f + g + n) c := by
  unfold advance Rb.wordIndex Rb.slot
  rw [hk, Nat.add_mod, Nat.mod_mod_of_dvd _ (pow_dvd_pow 2 hw), ← Nat.add_mod]

@[simp] theorem Rb.rdSinceInit_idle {rb : Rb} (h : rb.pending = false) : rb.rdSinceInit = rb.rd := by
  simp [Rb.rdSinceInit, h]

@[simp] theorem Rb.wviewSinceInit_idle {rb : Rb} (h : rb.pending = false) : rb.wviewSinceInit = rb.wview := by
  simp [Rb.wviewSinceInit, h]

@[simp] theorem Rb.rdSinceInit_pending {rb : Rb} (h : rb.pending = true) : rb.rdSinceInit = 0 := by
  simp [Rb.rdSinceInit, h]

@[simp] theorem Rb.wviewSinceInit_pending {rb : Rb} (h : rb.pending = true) : rb.wviewSinceInit = 0 := by
  simp [Rb.wviewSinceInit, h]

/-- The order of the registers themselves, with no INIT pending. -/
theorem RingInv.order_idle {c : Config} {i : Nat} {rb : Rb} (h : RingInv c i rb) (hp : rb.pending = false) :
    dist c.ptrW rb.rview rb.rd + dist c.ptrW rb.rd rb.wview + dist c.ptrW rb.wview rb.wr ≤ rb.cap := by
  have := h.order
  rwa [Rb.rdSinceInit_idle hp, Rb.wviewSinceInit_idle hp] at this

/-- With no INIT pending the order of the registers is all the invariant says of the cursors. -/
theorem Rb.ordered {c : Config} {rb : Rb} (hp : rb.pending = false) (hm : rb.cap ≤ c.maxCap)
    (h : dist c.ptrW rb.rview rb.rd + dist c.ptrW rb.rd rb.wview + dist c.ptrW rb.wview rb.wr ≤ rb.cap) :
    dist c.ptrW rb.rview rb.rdSinceInit + dist c.ptrW rb.rdSinceInit rb.wviewSinceInit +
      dist c.ptrW rb.wviewSinceInit rb.wr ≤ rb.cap ∧ dist c.ptrW rb.rd rb.wview ≤ c.maxCap := by
  rw [Rb.rdSinceInit_idle hp, Rb.wviewSinceInit_idle hp]
  exact ⟨h, by omega⟩

theorem RingInv.dist_bounds {c : Config} {i : Nat} {rb : Rb} (hl : Legal c) (h : RingInv c i rb) (hp : rb.pending = false) :
   dist c.ptrW rb.rd rb.wr = dist c.ptrW rb.rd rb.wview + dist c.ptrW rb.wview rb.wr ∧
   dist c.ptrW rb.rview rb.wr = dist c.ptrW rb.rview rb.rd + dist c.ptrW rb.rd rb.wr := by
  have ho := h.order_idle hp
  have := hl.cap_lt
  have := h.capacityMax
  have hm : 0 < 2 ^ c.ptrW := Nat.two_pow_pos _
  obtain ⟨w1, w2, w3, w4⟩ := h.widths
  have hz : rb.cap < 2 ^ c.ptrW := by omega
  have e1 := dist_add w3 w4 w1 (by omega)
  have e2 := dist_add w2 w3 w1 (by omega)
  exact ⟨e1, e2⟩

/-- Reading the array after a store of k frames. -/
theorem Rb.read_store_in {rb : Rb} {data : Nat → Word} {k f ch : Nat} (hk : k ≤ rb.cap) (hf : f < k) (hc : ch < rb.ch) :
    Mem.read (rb.storeFrames data k) (rb.wordIndex (rb.wr + f) ch) = some (data (f * rb.ch + ch)) := by
  have hch : 0 < rb.ch := by omega
  have hlt : f * rb.ch + ch < k * rb.ch := by
    calc f * rb.ch + ch < (f + 1) * rb.ch := by rw [Nat.add_mul]; omega
      _ ≤ k * rb.ch := Nat.mul_le_mul_right _ hf
  have := Mem.read_foldl_write_self (fun n => rb.wordIndex (rb.wr + n / rb.ch) (n % rb.ch)) (fun _ n => data n)
    (List.range (k * rb.ch)) rb.mem List.nodup_range (by
      intro x hx y hy e
      rw [List.mem_range] at hx hy
      have hx' : x / rb.ch < k := Nat.div_lt_of_lt_mul (by rwa [Nat.mul_comm])
      have hy' : y / rb.ch < k := Nat.div_lt_of_lt_mul (by rwa [Nat.mul_comm])
      obtain ⟨h1, h2⟩ := Rb.wordIndex_inj (by omega) (by omega) (Nat.mod_lt _ hch) (Nat.mod_lt _ hch) e
      rw [← Nat.div_add_mod x rb.ch, ← Nat.div_add_mod y rb.ch, h1, h2]) (by simp)
    (List.mem_range.2 hlt)
  have e1 : (f * rb.ch + ch) / rb.ch = f := by
    rw [Nat.mul_comm, Nat.mul_add_div hch, Nat.div_eq_of_lt hc, Nat.add_zero]
  have e2 : (f * rb.ch + ch) % rb.ch = ch := by
    rw [Nat.mul_comm, Nat.mul_add_mod, Nat.mod_eq_of_lt hc]
  simp only [e1, e2] at this
  exact this

theorem Rb.read_store_out {rb : Rb} {data : Nat → Word} {k x : Nat}
    (h : ∀ f < k, ∀ ch < rb.ch, rb.wordIndex (rb.wr + f) ch ≠ x) :
    Mem.read (rb.storeFrames data k) x = Mem.read rb.mem x := by
  apply Mem.read_foldl_write_ne
  intro n hn
  rw [List.mem_range] at hn
  have hch : 0 < rb.ch := by
    rcases Nat.eq_zero_or_pos rb.ch with e | e
    · simp [e] at hn
    · exact e
  exact h _ (Nat.div_lt_of_lt_mul (by rwa [Nat.mul_comm])) _ (Nat.mod_lt _ hch)

theorem Rb.mem_store {rb : Rb} {data : Nat → Word} {k : Nat} {p : Nat × Word} (hcap : 0 < rb.cap)
   (h : p ∈ rb.storeFrames data k) : p.1 < rb.cap * rb.ch ∨ p ∈ rb.mem := by
  rcases Mem.mem_foldl_write h with ⟨n, hn, e⟩ | h
  · rw [List.mem_range] at hn
    have hch : 0 < rb.ch := by
      rcases Nat.eq_zero_or_pos rb.ch with e | e
      · simp [e] at hn
      · exact e
    left; rw [e]; exact Rb.wordIndex_lt hcap (Nat.mod_lt _ hch)
  · exact .inr h

theorem Rb.wordIndex_wr {rb : Rb} {w n f ch : Nat} (hn : rb.cap = 2 ^ n) (hle : n ≤ w) (h3 : rb.rd < 2 ^ w) (h1 : rb.wr < 2 ^ w) :
    rb.wordIndex (rb.wr + f) ch = rb.wordIndex (rb.rd + (dist w rb.rd rb.wr + f)) ch := by
  have := Rb.wordIndex_advance (n := f) (f := rb.rd) (g := dist w rb.rd rb.wr) (c := ch) hn hle
  rwa [advance_dist h3 h1, Nat.add_assoc] at this

theorem RingInv.log_le {c : Config} {i : Nat} {rb : Rb} {k : Nat} (hl : Legal c) (h : RingInv c i rb) (hk : rb.cap = 2 ^ k) : k ≤ c.ptrW := by
  have := hl.cap_lt
  have := h.capacityMax
  have : 2 ^ k ≤ 2 ^ c.ptrW := by omega
  exact (Nat.pow_le_pow_iff_right (by omega)).1 this

theorem RingInv.idle {c : Config} {i : Nat} {rb : Rb} (h : RingInv c i rb) (hi : rb.init = true) : rb.pending = false := by
  cases hp : rb.pending with
  | false => rfl
  | true => have := (h.pending hp).2.1; rw [hi] at this; cases this

theorem RingInv.write {c : Config} {i : Nat} {rb : Rb} {data : Nat → Word} {k : Nat} (hl : Legal c) (h : RingInv c i rb) (hi : rb.init = true)
   (hk : k ≤ rb.psnapW c.ptrW) : RingInv c i (rb.written c.ptrW (sameDomain c i) data k) := by
  have hp := h.idle hi
  obtain ⟨hd1, hd2⟩ := h.dist_bounds hl hp
  have hcfg := h.configured hi
  have ho := h.order_idle hp
  have hz := hl.cap_lt
  have hcm := h.capacityMax
  obtain ⟨w1, w2, w3, w4⟩ := h.widths
  unfold Rb.psnapW Rb.psnapR at hk
  have hkk : ∃ n, rb.cap = 2 ^ n := by
    rcases h.capacity with h | ⟨n, _, h⟩
    · omega
    · exact ⟨n, h⟩
  obtain ⟨n, hn⟩ := hkk
  have hle := h.log_le hl hn
  have hw : dist c.ptrW rb.wview (advance c.ptrW rb.wr k) = dist c.ptrW rb.wview rb.wr + k :=
    dist_advance_right w4 w1 (by omega)
  have hr : dist c.ptrW rb.rd (advance c.ptrW rb.wr k) = dist c.ptrW rb.rd rb.wr + k :=
    dist_advance_right w3 w1 (by omega)
  obtain ⟨o1, o2⟩ := Rb.ordered (c := c) (rb := rb.written c.ptrW (sameDomain c i) data k) hp hcm (by
    simp only [Rb.written]
    by_cases hs : sameDomain c i = true
    · obtain ⟨e1, e2⟩ := h.exact hs
      simp only [hs, if_true, dist_self]
      have ed : dist c.ptrW rb.rd rb.wview = dist c.ptrW rb.rd rb.wr := by rw [e1]
      rw [hr]; omega
    · simp only [hs]
      simp only [Bool.false_eq_true, if_false]
      rw [hw]; omega)
  constructor
  · exact h.capacity
  · exact h.capacityMax
  · exact h.channelsMax
  · exact h.configured
  · exact h.sides
  · intro hp'; simp [Rb.written, hp] at hp'
  · refine ⟨advance_lt _ _ _, w2, w3, ?_⟩
    simp only [Rb.written]; split
    · exact advance_lt _ _ _
    · exact w4
  · exact o1
  · exact o2
  · intro hs
    simp only [Rb.written, hs, if_true]
    exact ⟨trivial, (h.exact hs).2⟩
  · intro _ f hf ch hch
    simp only [Rb.written] at hf hch ⊢
    change (Mem.read (rb.storeFrames data k) (rb.wordIndex (rb.rd + f) ch)).isSome = true
    rw [hr] at hf
    by_cases hlt : f < dist c.ptrW rb.rd rb.wr
    · rw [Rb.read_store_out]
      · exact h.written hp f hlt ch hch
      · intro g hg d hd' e
        rw [Rb.wordIndex_wr hn hle w3 w1] at e
        have := (Rb.wordIndex_inj (by omega) (by omega) hd' hch e).1
        omega
    · have e : rb.wordIndex (rb.rd + f) ch = rb.wordIndex (rb.wr + (f - dist c.ptrW rb.rd rb.wr)) ch := by
        rw [Rb.wordIndex_wr hn hle w3 w1]; congr 2; omega
      rw [e, Rb.read_store_in (by omega) (by omega) hch]; rfl
  · exact Mem.wf_foldl_write _ (fun _ n => data n) _ _ h.canonical
  · intro p hp'
    rcases Rb.mem_store (by omega) hp' with h' | h'
    · exact h'
    · exact h.inside p h'
  · exact h.errors

theorem RingInv.read {c : Config} {i : Nat} {rb : Rb} {k : Nat} (hl : Legal c) (h : RingInv c i rb) (hp : rb.pending = false) (hi : rb.cinit = true)
   (hk : k ≤ rb.csnapR c.ptrW) : RingInv c i (rb.consumed c.ptrW (sameDomain c i) k) := by
  obtain ⟨hd1, hd2⟩ := h.dist_bounds hl hp
  have hcfg := h.configured (by rw [h.sides]; exact hi)
  have ho := h.order_idle hp
  have hz := hl.cap_lt
  have hcm := h.capacityMax
  obtain ⟨w1, w2, w3, w4⟩ := h.widths
  unfold Rb.csnapR at hk
  have hkk : ∃ n, rb.cap = 2 ^ n := by
    rcases h.capacity with h | ⟨n, _, h⟩
    · omega
    · exact ⟨n, h⟩
  obtain ⟨n, hn⟩ := hkk
  have hle := h.log_le hl hn
  have e1 : dist c.ptrW rb.rview (advance c.ptrW rb.rd k) = dist c.ptrW rb.rview rb.rd + k := dist_advance_right w2 w3 (by omega)
  have e2 : dist c.ptrW (advance c.ptrW rb.rd k) rb.wview = dist c.ptrW rb.rd rb.wview - k := dist_advance_left w3 w4 (by omega)
  have e3 : dist c.ptrW (advance c.ptrW rb.rd k) rb.wr = dist c.ptrW rb.rd rb.wr - k := dist_advance_left w3 w1 (by omega)
  obtain ⟨o1, o2⟩ := Rb.ordered (c := c) (rb := rb.consumed c.ptrW (sameDomain c i) k) hp hcm (by
    simp only [Rb.consumed]
    by_cases hs : sameDomain c i = true
    · simp only [hs, if_true, dist_self]; omega
    · simp only [hs, Bool.false_eq_true, if_false]; omega)
  constructor
  · exact h.capacity
  · exact h.capacityMax
  · exact h.channelsMax
  · exact h.configured
  · exact h.sides
  · intro hp'; simp [Rb.consumed, hp] at hp'
  · refine ⟨w1, ?_, advance_lt _ _ _, w4⟩
    simp only [Rb.consumed]; split
    · exact advance_lt _ _ _
    · exact w2
  · exact o1
  · exact o2
  · intro hs
    simp only [Rb.consumed, hs, if_true]
    exact ⟨(h.exact hs).1, trivial⟩
  · intro _ f hf ch hch
    simp only [Rb.consumed] at hf hch ⊢
    change (Mem.read rb.mem (rb.wordIndex (advance c.ptrW rb.rd k + f) ch)).isSome = true
    rw [Rb.wordIndex_advance hn hle, Nat.add_assoc]
    exact h.written hp _ (by omega) _ hch
  · exact h.canonical
  · exact h.inside
  · exact h.errors

theorem RingInv.w2r {c : Config} {i : Nat} {rb : Rb} {draw : Nat} (_hl : Legal c) (h : RingInv c i rb) (hs : sameDomain c i = false) (hp : rb.pending = false)
   (hne : rb.wview ≠ rb.wr) : RingInv c i { rb with wview := syncTarget c.ptrW rb.wview rb.wr draw } := by
  obtain ⟨w1, w2, w3, w4⟩ := h.widths
  obtain ⟨a1, a2, a3⟩ := syncTarget_spec (draw := draw) w4 w1 hne
  have ho := h.order_idle hp
  have hz := _hl.cap_lt
  have hcm := h.capacityMax
  have hpos : 0 < 2 ^ c.ptrW := Nat.two_pow_pos _
  have e := dist_add w3 w4 a1 (by omega)
  obtain ⟨o1, o2⟩ := Rb.ordered (c := c) (rb := { rb with wview := syncTarget c.ptrW rb.wview rb.wr draw }) hp hcm
    (by simp only; omega)
  exact ⟨h.capacity, h.capacityMax, h.channelsMax, h.configured, h.sides, fun hp' => (by simp_all), ⟨w1, w2, w3, a1⟩,
    o1, o2, fun hs' => (by simp_all), h.written, h.canonical, h.inside, h.errors⟩

theorem RingInv.r2w {c : Config} {i : Nat} {rb : Rb} {draw : Nat} (_hl : Legal c) (h : RingInv c i rb) (hs : sameDomain c i = false) (hp : rb.pending = false)
   (hne : rb.rview ≠ rb.rd) : RingInv c i { rb with rview := syncTarget c.ptrW rb.rview rb.rd draw } := by
  obtain ⟨w1, w2, w3, w4⟩ := h.widths
  obtain ⟨a1, a2, a3⟩ := syncTarget_spec (draw := draw) w2 w3 hne
  have ho := h.order_idle hp
  obtain ⟨o1, o2⟩ := Rb.ordered (c := c) (rb := { rb with rview := syncTarget c.ptrW rb.rview rb.rd draw }) hp
    h.capacityMax (by simp only; omega)
  exact ⟨h.capacity, h.capacityMax, h.channelsMax, h.configured, h.sides, fun hp' => (by simp_all), ⟨w1, a1, w3, w4⟩,
    o1, o2, fun hs' => (by simp_all), h.written, h.canonical, h.inside, h.errors⟩

theorem RingInv.ack {c : Config} {i : Nat} {rb : Rb} (h : RingInv c i rb) (hp : rb.pending = true) : RingInv c i rb.acknowledged := by
  obtain ⟨p1, p2, p3, p4, p5, p6, p7⟩ := h.pending hp
  have hpos : 0 < 2 ^ c.ptrW := Nat.two_pow_pos _
  refine ⟨h.capacity, h.capacityMax, h.channelsMax, fun _ => ⟨p3, p4⟩, rfl, fun hp' => (by cases hp'), ⟨h.widths.1, h.widths.2.1, hpos, hpos⟩,
    (by simp [Rb.acknowledged, Rb.rdSinceInit, Rb.wviewSinceInit, p5, p6]), (by simp [Rb.acknowledged]), fun hs => (by simp_all), fun _ f hf => ?_, h.canonical, h.inside, h.errors⟩
  simp [Rb.acknowledged, p5] at hf

theorem initCap_spec (a : Nat) : (∃ k, 1 ≤ k ∧ initCap a = 2 ^ k) ∧ 2 ≤ initCap a ∧ a ≤ initCap a := by
  unfold initCap
  have h := nextPow2_ge (max a 2)
  refine ⟨?_, by omega, by omega⟩
  unfold nextPow2
  rw [if_neg (by omega)]
  exact ⟨_, by omega, rfl⟩

theorem RingInv.init {c : Config} {i a b : Nat} {rb : Rb} (h : RingInv c i rb) (hok : initAccepts c a b = true) : RingInv c i (rb.initialised (sameDomain c i) (initCap a) b) := by
  simp only [initAccepts, Bool.and_eq_true, decide_eq_true_eq] at hok
  obtain ⟨k1, k2, k3⟩ := initCap_spec a
  have hpos : 0 < 2 ^ c.ptrW := Nat.two_pow_pos _
  cases hs : sameDomain c i with
  | true =>
    refine ⟨.inr k1, hok.1.2, hok.2, fun _ => ⟨k2, (by simp [Rb.initialised]; omega)⟩, rfl, fun hp' => ?_, ⟨hpos, hpos, hpos, hpos⟩,
      (by simp [Rb.initialised, Rb.rdSinceInit, Rb.wviewSinceInit]), (by simp [Rb.initialised]), fun _ => ⟨rfl, rfl⟩, fun _ f hf => ?_, rfl, by simp [Rb.initialised], h.errors⟩
    · have := (h.pending hp').1; simp_all
    · simp [Rb.initialised] at hf
  | false =>
    refine ⟨.inr k1, hok.1.2, hok.2, fun hi => (by cases hi), rfl, fun hp' => ⟨hs, rfl, k2, ?_, rfl, rfl, rfl⟩, ⟨hpos, hpos, h.widths.2.2.1, h.widths.2.2.2⟩,
      (by simp [Rb.initialised, Rb.rdSinceInit, Rb.wviewSinceInit]), h.consumer, fun hs' => (by simp_all), fun hp' => (by cases hp'), rfl, by simp [Rb.initialised], h.errors⟩
    simp [Rb.initialised]; omega

theorem RingInv.reset {c : Config} (i : Nat) : RingInv c i Rb.reset := by
  have hpos : 0 < 2 ^ c.ptrW := Nat.two_pow_pos _
  refine ⟨.inl rfl, Nat.zero_le _, Nat.zero_le _, fun hi => (by cases hi), rfl, fun hp' => (by cases hp'), ⟨hpos, hpos, hpos, hpos⟩,
      (by simp [Rb.reset, Rb.rdSinceInit, Rb.wviewSinceInit]), (by simp [Rb.reset]), fun _ => ⟨rfl, rfl⟩, fun _ f hf => (by simp [Rb.reset] at hf), rfl, by simp [Rb.reset], ⟨rfl, rfl⟩⟩

end Sys2Proof.Machine
end

