-- ==== Sys2Proof/Laws/Spectral.lean ====
section
/-! SUPPORT. What each operation on a spectral unit keeps of its invariant, and what its loops leave in the arrays. -/

namespace Sys2Proof.Machine

/-- Offsets less than a ring apart fall on different cells. -/
theorem cell_inj {ring base j k : Nat} (hj : j < ring) (hk : k < ring) (h : (base + j) % ring = (base + k) % ring) : j = k := by
  have h4 : j % ring = k % ring := Nat.ModEq.add_left_cancel' base h
  rwa [Nat.mod_eq_of_lt hj, Nat.mod_eq_of_lt hk] at h4

theorem read_accumulate_in {ring wo n k : Nat} {term : Nat → Word → Word} {m : Mem} (hn : n ≤ ring) (hk : k < n) :
    Mem.read (accumulate ring wo n term m) ((wo + k) % ring) = some (term k (Mem.word m ((wo + k) % ring))) :=
  Mem.read_foldl_write_self (fun k => (wo + k) % ring) (fun m k => term k (Mem.word m ((wo + k) % ring))) _ m
    List.nodup_range
    (fun i hi j hj e => cell_inj (by rw [List.mem_range] at hi; omega) (by rw [List.mem_range] at hj; omega) e)
    (fun m m' j _ e => by simp only [Mem.word, e]) (List.mem_range.2 hk)

theorem read_accumulate_out {ring wo n x : Nat} {term : Nat → Word → Word} {m : Mem} (h : ∀ k < n, (wo + k) % ring ≠ x) :
    Mem.read (accumulate ring wo n term m) x = Mem.read m x :=
  Mem.read_foldl_write_ne (fun k => (wo + k) % ring) (fun m k => term k (Mem.word m ((wo + k) % ring))) _ m x
    (fun k hk => h k (List.mem_range.1 hk))

theorem wf_accumulate {ring wo n : Nat} {term : Nat → Word → Word} {m : Mem} (h : Mem.wf m = true) :
    Mem.wf (accumulate ring wo n term m) = true :=
  Mem.wf_foldl_write (fun k => (wo + k) % ring) (fun m k => term k (Mem.word m ((wo + k) % ring))) _ m h

theorem isSome_accumulate {ring wo n x : Nat} {term : Nat → Word → Word} {m : Mem} (hn : n ≤ ring)
    (h : (Mem.read m x).isSome = true) : (Mem.read (accumulate ring wo n term m) x).isSome = true := by
  by_cases hx : ∀ k < n, (wo + k) % ring ≠ x
  · rw [read_accumulate_out hx, h]
  · push Not at hx
    obtain ⟨k, hk, rfl⟩ := hx
    rw [read_accumulate_in hn hk]; rfl

/-! ### Squared windows and their sums: no NaN, so no draw -/

/-- A word that is neither a NaN nor negative: squares and sums of such words stay such. -/
def Plain (a : Word) : Prop := isNaN a = false ∧ signBit a = false

theorem packF_plain {bits : Nat} (h : bits ≤ infBits) : Plain (packF false bits) := by
  have hb : bits < 2 ^ 31 := by unfold infBits at h; omega
  have e : (packF false bits).toNat = bits := by simp [packF]; omega
  refine ⟨?_, ?_⟩
  · simp only [isNaN, magBits, e, Nat.mod_eq_of_lt hb]; simpa using h
  · simp only [signBit, BitVec.getLsbD, e]
    exact Nat.testBit_lt_two_pow hb

theorem roundMag_le (num den : Nat) : roundMag num den ≤ infBits := Nat.min_le_right _ _

theorem fZero_plain : Plain fZero := by unfold Plain; decide

/-- The square of a finite word is plain and does not depend on the draw. -/
theorem fmul_self_plain {h : Word} (hf : isFinite h = true) : Plain (fmul 0 h h) ∧ ∀ d, fmul d h h = fmul 0 h h := by
  have hn : isNaN h = false := by simp [isFinite, isNaN] at *; omega
  have hi : isInf h = false := by simp [isFinite, isInf] at *; omega
  have e : ∀ d, fmul d h h = packF false (roundMag (magOf h * magOf h) (2 ^ 149)) := by
    intro d; simp [fmul, hn, hi]
  exact ⟨by rw [e]; exact packF_plain (roundMag_le _ _), fun d => by rw [e, e]⟩

/-- The sum of plain words is plain and does not depend on the draw. -/
theorem fadd_plain {a b : Word} (ha : Plain a) (hb : Plain b) : Plain (fadd 0 a b) ∧ ∀ d, fadd d a b = fadd 0 a b := by
  obtain ⟨na, sa⟩ := ha
  obtain ⟨nb, sb⟩ := hb
  unfold fadd
  simp only [na, nb, sa, sb, Bool.or_self, Bool.false_eq_true, if_false, bne_self_eq_false, Bool.and_false]
  refine ⟨?_, by simp⟩
  split
  · exact ⟨na, sa⟩
  · split
    · exact ⟨nb, sb⟩
    · simp only [addFinite, sa, sb, if_true]
      exact packF_plain (roundMag_le _ _)

/-- Every word of a legal window is finite. -/
theorem Legal.hann_finite {c : Config} (hl : Legal c) {k : Nat} (hk : k < c.olaN) : isFinite (hannAt c k) = true := by
  obtain ⟨h1, h2, h3⟩ := hl.windowRange k hk
  generalize hannAt c k = a at *
  have hz : orderKey fZero = 0 := by decide
  have ho : orderKey fOne = 0x3F800000 := by decide
  have n0 : isNaN fZero = false := by decide
  have n1 : isNaN fOne = false := by decide
  simp only [flt, h1, n0, n1, hz, ho, Bool.not_false, Bool.true_and, decide_eq_false_iff_not] at h2 h3
  unfold orderKey at h2 h3
  have : magBits a < infBits := by
    unfold infBits
    split at h2 <;> simp_all
    omega
  simpa [isFinite] using this

theorem normAt_succ (c : Config) (n p : Nat) : normAt c (n + 1) p =
    if n * c.olaHop ≤ p ∧ p < n * c.olaHop + c.olaN then
      fadd 0 (normAt c n p) (fmul 0 (hannAt c (p - n * c.olaHop)) (hannAt c (p - n * c.olaHop)))
    else normAt c n p := by
  unfold normAt
  rw [List.range_succ, List.foldl_append]
  rfl

theorem normAt_plain {c : Config} (hl : Legal c) (n p : Nat) : Plain (normAt c n p) := by
  induction n with
  | zero => exact fZero_plain
  | succ n ih =>
    rw [normAt_succ]
    split
    · exact (fadd_plain ih (fmul_self_plain (hl.hann_finite (by omega))).1).1
    · exact ih

/-- A position behind the last frame has no normalisation. -/
theorem normAt_behind {c : Config} {n p : Nat} (h : ∀ f < n, f * c.olaHop + c.olaN ≤ p) : normAt c n p = fZero := by
  induction n with
  | zero => rfl
  | succ n ih =>
    rw [normAt_succ, if_neg (by have := h n (by omega); omega)]
    exact ih fun f hf => h f (by omega)

/-- What a hop cycle makes of a normalisation cell under its frame. -/
theorem nrmTerm_normAt {c : Config} (hl : Legal c) {base n k : Nat} (hk : k < c.olaN) :
    nrmTerm c base k (normAt c n (n * c.olaHop + k)) = normAt c (n + 1) (n * c.olaHop + k) := by
  obtain ⟨s1, s2⟩ := fmul_self_plain (hl.hann_finite hk)
  rw [normAt_succ, if_pos (by omega), Nat.add_sub_cancel_left]
  unfold nrmTerm
  rw [s2, (fadd_plain (normAt_plain hl _ _) s1).2]

/-- The part of the invariant that R54 says of the normalisation cells. -/
def Normalised (c : Config) (o : Ola) : Prop :=
  ∃ n p, o.hops = BitVec.ofNat 64 n ∧ o.popped = BitVec.ofNat 64 p ∧
    n * c.olaHop = p + o.avail ∧ o.ro = p % c.olaRing ∧
    ∀ j < c.olaRing, Mem.read o.nrm ((o.ro + j) % c.olaRing) = some (normAt c n (p + j))

theorem Normalised.hopCycle {c : Config} {o : Ola} (hl : Legal c) (h : Normalised c o) (base : Nat)
    (hwo : o.wo = (o.ro + o.avail) % c.olaRing) (hroom : o.avail + c.olaN ≤ c.olaRing) :
    Normalised c (o.hopCycle c base) := by
  obtain ⟨n, p, h1, h2, h3, h4, h5⟩ := h
  refine ⟨n + 1, p, ?_, h2, ?_, h4, fun j hj => ?_⟩
  · simp only [Ola.hopCycle, h1, BitVec.ofNat_add]; rfl
  · simp only [Ola.hopCycle, Nat.add_mul, Nat.one_mul]; omega
  · simp only [Ola.hopCycle]
    have cell : ∀ k, (o.wo + k) % c.olaRing = (o.ro + (o.avail + k)) % c.olaRing := by
      intro k; rw [hwo, Nat.mod_add_mod, Nat.add_assoc]
    by_cases hin : o.avail ≤ j ∧ j < o.avail + c.olaN
    · obtain ⟨k, rfl⟩ := Nat.exists_eq_add_of_le hin.1
      have hk : k < c.olaN := by omega
      rw [← cell k, read_accumulate_in (by omega) hk, Mem.word, cell k, h5 _ hj, Option.getD_some,
        show p + (o.avail + k) = n * c.olaHop + k by omega, nrmTerm_normAt hl hk]
    · rw [read_accumulate_out (fun k hk e => by rw [cell] at e; have := cell_inj (by omega) hj e; omega), h5 j hj,
        normAt_succ, if_neg (by omega)]

/-- The loop invariant of OLA.PUSH: the unit's invariant but for the pushed counter, which the loop leaves for the end. -/
structure PushInv (c : Config) (pushed : Nat → BitVec 64) (o : Ola) : Prop where
  fillRange : o.fill < c.olaHop
  woRange : o.wo < c.olaRing
  roRange : o.ro < c.olaRing
  room : o.avail + c.olaN ≤ c.olaRing + c.olaHop
  offsets : o.wo = (o.ro + o.avail) % c.olaRing
  pushedCount : pushed 0 = BitVec.ofNat 64 c.olaHop * o.hops + BitVec.ofNat 64 o.fill
  poppedCount : BitVec.ofNat 64 c.olaHop * o.hops = o.popped + BitVec.ofNat 64 o.avail
  histDefined : ∀ k < c.olaHist, (Mem.read o.hist k).isSome = true
  hopDefined : ∀ k < o.fill, (Mem.read o.hop k).isSome = true
  accDefined : ∀ p < c.olaRing, (Mem.read o.acc p).isSome = true
  nrmDefined : ∀ p < c.olaRing, (Mem.read o.nrm p).isSome = true
  clean : ∀ j, o.avail + c.olaN ≤ j + c.olaHop → j < c.olaRing →
    Mem.read o.acc ((o.ro + j) % c.olaRing) = some fZero ∧ Mem.read o.nrm ((o.ro + j) % c.olaRing) = some fZero
  normalised : Normalised c o
  canonical : Mem.wf o.hop = true ∧ Mem.wf o.hist = true ∧ Mem.wf o.acc = true ∧ Mem.wf o.nrm = true
  errors : errClean o.err

theorem PushInv.sample {c : Config} {p : BitVec 64} {st : Ola × Nat} {x : Word} (hl : Legal c)
    (h : PushInv c (fun _ => p) st.1) (hroom : st.1.fill + 1 = c.olaHop → st.1.avail + c.olaN ≤ c.olaRing) :
    PushInv c (fun _ => p + 1) (pushSample c st x).1 := by
  obtain ⟨o, d⟩ := st
  have hN := hl.accumulator.1
  have hh := hl.hops.1
  have hpos : 0 < c.olaRing := by omega
  unfold pushSample
  simp only at h hroom ⊢
  split
  · rename_i hf
    have hr := hroom hf
    constructor
    · exact hh
    · exact Nat.mod_lt _ hpos
    · exact h.roRange
    · simp only [Ola.hopCycle]; omega
    · simp only [Ola.hopCycle]; rw [h.offsets, Nat.mod_add_mod, Nat.add_assoc]
    · have e := h.pushedCount
      simp only [Ola.hopCycle]
      rw [e, ← hf]
      simp only [BitVec.ofNat_add, BitVec.mul_add]
      simp [BitVec.add_assoc]
    · have e := h.poppedCount
      simp only [Ola.hopCycle]
      rw [BitVec.mul_add, e, BitVec.ofNat_add]
      simp [BitVec.add_assoc]
    · intro k hk
      simp only [Ola.hopCycle, Ola.rolledHist]
      rw [Mem.read_tabulate]; simp [hk]
    · intro k hk; simp at hk
    · intro q hq; exact isSome_accumulate (by omega) (h.accDefined q hq)
    · intro q hq; exact isSome_accumulate (by omega) (h.nrmDefined q hq)
    · intro j hj hjr
      simp only [Ola.hopCycle] at hj ⊢
      have key : ∀ k < c.olaN, (o.wo + k) % c.olaRing ≠ (o.ro + j) % c.olaRing := by
        intro k hk e
        rw [h.offsets, Nat.mod_add_mod, Nat.add_assoc] at e
        have := cell_inj (by omega) hjr e
        omega
      rw [read_accumulate_out key, read_accumulate_out key]
      exact h.clean j (by omega) hjr
    · exact Normalised.hopCycle (o := { o with hop := Mem.write o.hop o.fill x }) hl h.normalised d h.offsets hr
    · exact ⟨Mem.wf_write _ _ _ h.canonical.1, Mem.wf_tabulate _ _, wf_accumulate h.canonical.2.2.1, wf_accumulate h.canonical.2.2.2⟩
    · exact h.errors
  · rename_i hf
    constructor
    · have := h.fillRange; simp only; omega
    · exact h.woRange
    · exact h.roRange
    · exact h.room
    · exact h.offsets
    · have e := h.pushedCount
      simp only
      rw [e, BitVec.ofNat_add]
      simp [BitVec.add_assoc]
    · exact h.poppedCount
    · exact h.histDefined
    · intro k hk
      simp only at hk ⊢
      rw [Mem.read_write]
      split
      · rfl
      · exact h.hopDefined k (by omega)
    · exact h.accDefined
    · exact h.nrmDefined
    · exact h.clean
    · exact h.normalised
    · exact ⟨Mem.wf_write _ _ _ h.canonical.1, h.canonical.2⟩
    · exact h.errors

/-- What one sample makes of the counters. -/
theorem pushSample_counters (c : Config) (st : Ola × Nat) (x : Word) (hf : st.1.fill < c.olaHop) :
    (pushSample c st x).1.fill = (st.1.fill + 1) % c.olaHop ∧
    (pushSample c st x).1.avail = st.1.avail + (st.1.fill + 1) / c.olaHop * c.olaHop := by
  unfold pushSample
  split
  · rename_i e
    simp [Ola.hopCycle, e, Nat.div_self (show 0 < c.olaHop by omega)]
  · have : st.1.fill + 1 < c.olaHop := by omega
    simp [Nat.mod_eq_of_lt this, Nat.div_eq_of_lt this]

theorem PushInv.loop {c : Config} (hl : Legal c) (xs : List Word) (st : Ola × Nat) (p : BitVec 64)
    (h : PushInv c (fun _ => p) st.1)
    (hroom : 1 ≤ (st.1.fill + xs.length) / c.olaHop →
      st.1.avail + ((st.1.fill + xs.length) / c.olaHop - 1) * c.olaHop + c.olaN ≤ c.olaRing) :
    PushInv c (fun _ => p + BitVec.ofNat 64 xs.length) (xs.foldl (pushSample c) st).1 := by
  induction xs generalizing st p with
  | nil => simpa using h
  | cons x xs ih =>
    have hh := hl.hops.1
    have hfr := h.fillRange
    obtain ⟨e1, e2⟩ := pushSample_counters c st x hfr
    have h1 : PushInv c (fun _ => p + 1) (pushSample c st x).1 := h.sample hl fun hf => by
      have : 1 ≤ (st.1.fill + (x :: xs).length) / c.olaHop := by
        rw [Nat.le_div_iff_mul_le hh]; simp; omega
      have := hroom this
      omega
    have h2 := ih (pushSample c st x) (p + 1) h1 (by
      intro h3
      have hd := Nat.div_add_mod (st.1.fill + 1) c.olaHop
      have e3 : (st.1.fill + (x :: xs).length) / c.olaHop =
          (st.1.fill + 1) / c.olaHop + ((st.1.fill + 1) % c.olaHop + xs.length) / c.olaHop := by
        rw [← Nat.mul_add_div hh]; congr 1; simp; omega
      rw [e1] at h3 ⊢
      rw [e2]
      rw [e3] at hroom
      generalize (st.1.fill + 1) / c.olaHop = q at *
      generalize ((st.1.fill + 1) % c.olaHop + xs.length) / c.olaHop = r at *
      have := hroom (by omega)
      rw [show q + r - 1 = q + (r - 1) by omega, Nat.add_mul] at this
      omega)
    rw [List.foldl_cons]
    have e : p + BitVec.ofNat 64 (x :: xs).length = p + 1 + BitVec.ofNat 64 xs.length := by
      rw [List.length_cons, BitVec.ofNat_add, BitVec.add_assoc, BitVec.add_comm (BitVec.ofNat 64 xs.length)]
      rfl
    rw [e]; exact h2

theorem pushLoop_keeps (c : Config) (xs : List Word) (st : Ola × Nat) :
    (xs.foldl (pushSample c) st).1.rdy = st.1.rdy ∧ (xs.foldl (pushSample c) st).1.pushed = st.1.pushed ∧
    (xs.foldl (pushSample c) st).1.popped = st.1.popped ∧ (xs.foldl (pushSample c) st).1.ro = st.1.ro ∧
    (xs.foldl (pushSample c) st).1.err = st.1.err := by
  induction xs generalizing st with
  | nil => exact ⟨rfl, rfl, rfl, rfl, rfl⟩
  | cons x xs ih =>
    rw [List.foldl_cons]
    obtain ⟨a, b, c', d, e⟩ := ih (pushSample c st x)
    rw [a, b, c', d, e]
    unfold pushSample
    split <;> exact ⟨rfl, rfl, rfl, rfl, rfl⟩

/-- The counters after a push loop: what R301 and R307 say of any number of samples. -/
theorem pushLoop_counters (c : Config) (xs : List Word) (st : Ola × Nat) (hh : 0 < c.olaHop) (hf : st.1.fill < c.olaHop)
    (hw : st.1.wo < c.olaRing) :
    let t := (xs.foldl (pushSample c) st).1
    let n := (st.1.fill + xs.length) / c.olaHop
    t.fill = (st.1.fill + xs.length) % c.olaHop ∧ t.avail = st.1.avail + n * c.olaHop ∧
    t.wo = (st.1.wo + n * c.olaHop) % c.olaRing ∧ t.hops = st.1.hops + BitVec.ofNat 64 n := by
  induction xs generalizing st with
  | nil => simp [Nat.mod_eq_of_lt hf, Nat.div_eq_of_lt hf, Nat.mod_eq_of_lt hw]
  | cons x xs ih =>
    obtain ⟨a1, a2, a3, a4⟩ : (pushSample c st x).1.fill = (st.1.fill + 1) % c.olaHop ∧
        (pushSample c st x).1.avail = st.1.avail + (st.1.fill + 1) / c.olaHop * c.olaHop ∧
        (pushSample c st x).1.wo = (st.1.wo + (st.1.fill + 1) / c.olaHop * c.olaHop) % c.olaRing ∧
        (pushSample c st x).1.hops = st.1.hops + BitVec.ofNat 64 ((st.1.fill + 1) / c.olaHop) := by
      unfold pushSample
      split
      · rename_i e
        simp [Ola.hopCycle, e, Nat.div_self hh]
      · have : st.1.fill + 1 < c.olaHop := by omega
        simp [Nat.mod_eq_of_lt this, Nat.div_eq_of_lt this, Nat.mod_eq_of_lt hw]
    obtain ⟨b1, b2, b3, b4⟩ := ih (pushSample c st x) (by rw [a1]; exact Nat.mod_lt _ hh)
      (by rw [a3]; exact Nat.mod_lt _ (by omega))
    have hd := Nat.div_add_mod (st.1.fill + 1) c.olaHop
    have e3 : (st.1.fill + (x :: xs).length) / c.olaHop =
          (st.1.fill + 1) / c.olaHop + ((st.1.fill + 1) % c.olaHop + xs.length) / c.olaHop := by
      rw [← Nat.mul_add_div hh]; congr 1; simp; omega
    dsimp only
    rw [List.foldl_cons, b1, b2, b3, b4, e3, a1, a2, a3, a4]
    refine ⟨?_, ?_, ?_, ?_⟩
    · rw [Nat.mod_add_mod]; congr 1; simp; omega
    · rw [Nat.add_mul]; omega
    · rw [Nat.mod_add_mod, Nat.add_mul]; congr 1; omega
    · rw [BitVec.ofNat_add, BitVec.add_assoc]

/-- A push loop does not look at the pushed counter. -/
theorem pushLoop_setPushed (c : Config) (p : BitVec 64) (ys : List Word) (st : Ola × Nat) :
    ys.foldl (pushSample c) ({ st.1 with pushed := p }, st.2) =
      ({ (ys.foldl (pushSample c) st).1 with pushed := p }, (ys.foldl (pushSample c) st).2) := by
  induction ys generalizing st with
  | nil => rfl
  | cons y ys ih =>
    rw [List.foldl_cons, List.foldl_cons, ← ih]
    congr 1
    unfold pushSample
    dsimp only
    split <;> rfl

/-- The samples of two blocks taken one block after the other. -/
theorem pushAll_append (c : Config) (o : Ola) (d : Nat) (xs ys : List Word) :
    pushAll c o d (xs ++ ys) = pushAll c (pushAll c o d xs).1 (pushAll c o d xs).2 ys := by
  unfold pushAll
  dsimp only
  rw [pushLoop_setPushed c _ ys (xs.foldl (pushSample c) (o, d)), List.foldl_append]
  dsimp only
  rw [(pushLoop_keeps c ys (xs.foldl (pushSample c) (o, d))).2.1, List.length_append, BitVec.ofNat_add, BitVec.add_assoc]

theorem SpectralInv.push {c : Config} {o : Ola} {d : Nat} {xs : List Word} (hl : Legal c) (h : SpectralInv c o)
    (hr : o.rdy = true) (hroom : o.overruns c xs.length = false) : SpectralInv c (pushAll c o d xs).1 := by
  have h0 : PushInv c (fun _ => o.pushed) (o, d).1 :=
    ⟨h.fillRange, h.woRange, h.roRange, h.room, h.offsets, h.pushedCount, h.poppedCount, h.histDefined hr, h.hopDefined,
      h.accDefined hr, h.nrmDefined hr, h.clean hr, h.normalised hr, h.canonical, h.errors⟩
  have h1 := PushInv.loop hl xs (o, d) o.pushed h0 (by
    intro h1
    simp only at h1 ⊢
    simp [Ola.overruns, Ola.pushCycles, h1] at hroom
    exact Nat.not_lt.1 (of_decide_eq_false hroom))
  obtain ⟨e1, e2, -⟩ := pushLoop_keeps c xs (o, d)
  have hp := h1.pushedCount
  unfold pushAll
  refine ⟨h1.fillRange, h1.woRange, h1.roRange, h1.room, h1.offsets, ?_, h1.poppedCount, fun _ => h1.histDefined, h1.hopDefined,
      fun _ => h1.accDefined, fun _ => h1.nrmDefined, fun _ => h1.clean, fun _ => h1.normalised, h1.canonical, h1.errors⟩
  simp only at hp e2 ⊢
  rw [e2]; exact hp

/-! ### OLA.POP -/

theorem popLoop_spec (c : Config) (m : Nat) (hm : m ≤ c.olaRing) (hpos : 0 < c.olaRing) (d : Nat) (o : Ola) (hro : o.ro < c.olaRing) :
    (popLoop c m d o).1 = { o with acc := (popLoop c m d o).1.acc, nrm := (popLoop c m d o).1.nrm, ro := (o.ro + m) % c.olaRing } ∧
    (popLoop c m d o).2.length = m ∧
    (∀ j < m, (popLoop c m d o).2[j]? = some (if flt (Mem.word o.nrm ((o.ro + j) % c.olaRing)) c.olaEps then fZero
      else fdiv (Config.nanDraw (d + j)) (Mem.word o.acc ((o.ro + j) % c.olaRing)) (Mem.word o.nrm ((o.ro + j) % c.olaRing)))) ∧
    (∀ j < m, Mem.read (popLoop c m d o).1.acc ((o.ro + j) % c.olaRing) = some fZero ∧
      Mem.read (popLoop c m d o).1.nrm ((o.ro + j) % c.olaRing) = some fZero) ∧
    (∀ x, (∀ j < m, (o.ro + j) % c.olaRing ≠ x) →
      Mem.read (popLoop c m d o).1.acc x = Mem.read o.acc x ∧ Mem.read (popLoop c m d o).1.nrm x = Mem.read o.nrm x) ∧
    (Mem.wf o.acc = true → Mem.wf (popLoop c m d o).1.acc = true) ∧ (Mem.wf o.nrm = true → Mem.wf (popLoop c m d o).1.nrm = true) := by
  induction m generalizing d o with
  | zero =>
    refine ⟨?_, rfl, by simp, by simp, fun x _ => ⟨rfl, rfl⟩, id, id⟩
    simp [popLoop, Nat.mod_eq_of_lt hro]
  | succ m ih =>
    have hro' : (o.popCell c).ro < c.olaRing := Nat.mod_lt _ hpos
    obtain ⟨a1, a2, a3, a4, a5, a6, a7⟩ := ih (by omega) (d + 1) (o.popCell c) hro'
    have hidx : ∀ j, ((o.popCell c).ro + j) % c.olaRing = (o.ro + (j + 1)) % c.olaRing := by
      intro j; simp only [Ola.popCell]; rw [Nat.mod_add_mod]; congr 1; omega
    have hne : ∀ j < m, (o.ro + (j + 1)) % c.olaRing ≠ o.ro := by
      intro j hj e
      have : (o.ro + (j + 1)) % c.olaRing = (o.ro + 0) % c.olaRing := by rw [e, Nat.add_zero, Nat.mod_eq_of_lt hro]
      have := cell_inj (by omega) (by omega) this
      omega
    have hr0 : (o.ro + 0) % c.olaRing = o.ro := by rw [Nat.add_zero, Nat.mod_eq_of_lt hro]
    unfold popLoop
    simp only
    refine ⟨?_, by simp [a2], ?_, ?_, ?_, ?_, ?_⟩
    · rw [a1]
      simp only [Ola.popCell, Nat.mod_add_mod]
      congr 1
      congr 1
      omega
    · intro j hj
      cases j with
      | zero => simp only [Nat.add_zero] at hr0; simp [Ola.popWord, hr0]
      | succ j =>
        rw [List.getElem?_cons_succ, a3 j (by omega), hidx]
        have e1 : Mem.word (o.popCell c).acc ((o.ro + (j + 1)) % c.olaRing) = Mem.word o.acc ((o.ro + (j + 1)) % c.olaRing) := by
          simp only [Ola.popCell, Mem.word, Mem.read_write_ne _ _ (hne j (by omega))]
        have e2 : Mem.word (o.popCell c).nrm ((o.ro + (j + 1)) % c.olaRing) = Mem.word o.nrm ((o.ro + (j + 1)) % c.olaRing) := by
          simp only [Ola.popCell, Mem.word, Mem.read_write_ne _ _ (hne j (by omega))]
        rw [e1, e2, Nat.add_assoc, Nat.add_comm 1 j]
    · intro j hj
      cases j with
      | zero =>
        rw [hr0]
        have := a5 o.ro (fun j hj => by rw [hidx]; exact hne j hj)
        rw [this.1, this.2]
        simp [Ola.popCell, Mem.read_write_self]
      | succ j =>
        have := a4 j (by omega)
        rw [hidx] at this
        exact this
    · intro x hx
      have := a5 x (fun j hj => by rw [hidx]; exact hx (j + 1) (by omega))
      rw [this.1, this.2]
      have h0 := hx 0 (by omega)
      rw [hr0] at h0
      simp only [Ola.popCell, Mem.read_write_ne _ _ (Ne.symm h0)]
      exact ⟨trivial, trivial⟩
    · intro hw; exact a6 (Mem.wf_write _ _ _ hw)
    · intro hw; exact a7 (Mem.wf_write _ _ _ hw)

theorem SpectralInv.pop {c : Config} {o : Ola} {d m : Nat} (hl : Legal c) (h : SpectralInv c o)
    (hr : o.rdy = true) (hm : m ≤ o.avail) : SpectralInv c (popAll c d m o).1 := by
  have hN := hl.accumulator.1
  have hn := hl.parts
  have hpos : 0 < c.olaRing := by have := hl.hops.1; omega
  have hroom := h.room
  obtain ⟨a1, -, -, a4, a5, a6, a7⟩ := popLoop_spec c m (by omega) hpos d o h.roRange
  have hsome : ∀ x < c.olaRing, (Mem.read (popLoop c m d o).1.acc x).isSome = true ∧
      (Mem.read (popLoop c m d o).1.nrm x).isSome = true := by
    intro x hx
    by_cases hx' : ∀ j < m, (o.ro + j) % c.olaRing ≠ x
    · rw [(a5 x hx').1, (a5 x hx').2]; exact ⟨h.accDefined hr x hx, h.nrmDefined hr x hx⟩
    · push Not at hx'
      obtain ⟨j, hj, rfl⟩ := hx'
      rw [(a4 j hj).1, (a4 j hj).2]; exact ⟨rfl, rfl⟩
  unfold popAll
  simp only
  generalize popLoop c m d o = r at *
  obtain ⟨o', out⟩ := r
  simp only at *
  constructor
  · rw [a1]; exact h.fillRange
  · rw [a1]; exact h.woRange
  · rw [a1]; exact Nat.mod_lt _ hpos
  · rw [a1]; simp only; omega
  · rw [a1]; simp only
    rw [h.offsets, Nat.mod_add_mod]; congr 1; omega
  · rw [a1]; exact h.pushedCount
  · rw [a1]; simp only
    rw [h.poppedCount, BitVec.add_assoc, ← BitVec.ofNat_add]; congr 2; omega
  · intro _; rw [a1]; exact h.histDefined hr
  · rw [a1]; exact h.hopDefined
  · intro _ x hx; exact (hsome x hx).1
  · intro _ x hx; exact (hsome x hx).2
  · intro _ j hj hjr
    have e1 : o'.ro = (o.ro + m) % c.olaRing := by rw [a1]
    have e2 : o'.avail = o.avail := by rw [a1]
    simp only [e1, e2, Nat.mod_add_mod] at hj ⊢
    rw [Nat.add_assoc]
    by_cases hlt : m + j < c.olaRing
    · by_cases hx : ∀ i < m, (o.ro + i) % c.olaRing ≠ (o.ro + (m + j)) % c.olaRing
      · rw [(a5 _ hx).1, (a5 _ hx).2]
        exact h.clean hr (m + j) (by omega) hlt
      · push Not at hx
        obtain ⟨i, hi, e⟩ := hx
        rw [← e]; exact a4 i hi
    · have e : (o.ro + (m + j)) % c.olaRing = (o.ro + (m + j - c.olaRing)) % c.olaRing := by
        rw [show o.ro + (m + j) = o.ro + (m + j - c.olaRing) + c.olaRing by omega, Nat.add_mod_right]
      rw [e]; exact a4 _ (by omega)
  · intro _
    obtain ⟨n, p, h1, h2, h3, h4, h5⟩ := h.normalised hr
    have e1 : o'.ro = (o.ro + m) % c.olaRing := by rw [a1]
    have e2 : o'.avail = o.avail := by rw [a1]
    have e3 : o'.popped = o.popped := by rw [a1]
    have e4 : o'.hops = o.hops := by rw [a1]
    refine ⟨n, p + m, by simp only [e4, h1], by simp only [e3, h2, BitVec.ofNat_add], by simp only [e2]; omega, ?_, ?_⟩
    · simp only [e1]; rw [h4, Nat.mod_add_mod]
    intro j hj
    simp only [e1, Nat.mod_add_mod]
    rw [Nat.add_assoc, Nat.add_assoc]
    by_cases hlt : m + j < c.olaRing
    · rw [(a5 _ fun i hi e => by have := cell_inj (by omega) hlt e; omega).2, h5 _ hlt]
    · rw [show o.ro + (m + j) = o.ro + (m + j - c.olaRing) + c.olaRing by omega, Nat.add_mod_right,
        (a4 _ (by omega)).2, normAt_behind]
      intro f hf
      have : f * c.olaHop + c.olaHop ≤ n * c.olaHop := by
        rw [← Nat.succ_mul]; exact Nat.mul_le_mul_right _ hf
      omega
  · have e1 : o'.hop = o.hop := by rw [a1]
    have e2 : o'.hist = o.hist := by rw [a1]
    simp only [e1, e2]
    exact ⟨h.canonical.1, h.canonical.2.1, a6 h.canonical.2.2.1, a7 h.canonical.2.2.2⟩
  · rw [a1]; exact h.errors

theorem SpectralInv.stream {c : Config} {o : Ola} (hl : Legal c) (h : SpectralInv c o) : SpectralInv c (o.streaming c) := by
  have hN := hl.accumulator.1
  have hh := hl.hops.1
  have hpos : 0 < c.olaRing := by omega
  refine ⟨hh, hpos, hpos, by simp [Ola.streaming]; omega, by simp [Ola.streaming], by simp [Ola.streaming], by simp [Ola.streaming],
    fun _ k hk => by simp [Ola.streaming, Mem.read_zeros, hk], fun k hk => by simp [Ola.streaming] at hk,
    fun _ k hk => by simp [Ola.streaming, Mem.read_zeros, hk], fun _ k hk => by simp [Ola.streaming, Mem.read_zeros, hk], fun _ j _ _ => ?_,
    fun _ => ⟨0, 0, rfl, rfl, by simp [Ola.streaming], by simp [Ola.streaming], fun j _ => ?_⟩, ⟨h.canonical.1, Mem.wf_zeros _, Mem.wf_zeros _, Mem.wf_zeros _⟩, h.errors⟩
  · simp [Ola.streaming, Mem.read_zeros, Nat.mod_lt _ hpos]
  · simp [Ola.streaming, Mem.read_zeros, Nat.mod_lt _ hpos, normAt]

theorem SpectralInv.reset {c : Config} (hl : Legal c) : SpectralInv c Ola.reset := by
  have hN := hl.accumulator.1
  have hh := hl.hops.1
  have hpos : 0 < c.olaRing := by omega
  refine ⟨hh, hpos, hpos, by simp [Ola.reset]; omega, by simp [Ola.reset], by simp [Ola.reset], by simp [Ola.reset],
    fun hr => (by cases hr), fun k hk => by simp [Ola.reset] at hk,
    fun hr => (by cases hr), fun hr => (by cases hr), fun hr => (by cases hr), fun hr => (by cases hr),
    ⟨rfl, rfl, rfl, rfl⟩, rfl⟩

/-- Every storage array is canonical after the block reset. -/
theorem State.reset_canonical (c : Config) :
    (∀ i, Mem.wf ((State.resetOf c).rb i).mem = true) ∧
    ∀ k, Mem.wf ((State.resetOf c).ola k).hop = true ∧ Mem.wf ((State.resetOf c).ola k).hist = true ∧
      Mem.wf ((State.resetOf c).ola k).acc = true ∧ Mem.wf ((State.resetOf c).ola k).nrm = true := by
  simp [State.resetOf, State.rb, State.ola, Rb.reset, Ola.reset, Mem.wf]

end Sys2Proof.Machine
end

