-- ==== Sys2Proof/Tests/Slice0.lean ====
section
/-! SUPPORT. Tests: the well-formedness smoke test, decoding, single steps against the vectors of
spec/95_test_vectors.md, and a witness for the hypotheses of every statement. -/

namespace Sys2Proof.Tests

open Sys2Proof Sys2Proof.Machine

-- one theorem after the other: each kernel evaluation waits for everything before it
set_option Elab.async false

/-! ## WellFormed: a term each check refuses, at the first instance number the machine does not have -/

theorem test_wf_refuses_ring_producer : Instr.wellFormed configReference (.rbWrite 3 0) = false := by decide

theorem test_wf_refuses_ring_consumer : Instr.wellFormed configReference (.rbRead 3 0) = false := by decide

theorem test_wf_refuses_resampler : Instr.wellFormed configReference (.rsReset 2) = false := by decide

theorem test_wf_refuses_spectral : Instr.wellFormed configReference (.olaReset 1) = false := by decide

theorem test_wf_accepts_last : Instr.wellFormed configReference (.rbRead 2 0) = true := by decide

/-! ## Decoding: V30, and V31 for the words that spell no command -/

theorem test_decode_rbInit : decodeWord 0x1000000002000064 = .ok (.rbInit 0 100 2) := by decide +kernel

theorem test_decode_rbWrite : decodeWord 0x11000000000000C8 = .ok (.rbWrite 0 200) := by decide +kernel

theorem test_decode_rbPavail : decodeWord 0x1200000000000000 = .ok (.rbPavail 0) := by decide +kernel

theorem test_decode_rbPstat : decodeWord 0x1300000000000002 = .ok (.rbPstat 0 2) := by decide +kernel

theorem test_decode_rbRead : decodeWord 0x21200000000000C0 = .ok (.rbRead 2 192) := by decide +kernel

theorem test_decode_rbCavail : decodeWord 0x2220000000000000 = .ok (.rbCavail 2) := by decide +kernel

theorem test_decode_rbCstat : decodeWord 0x2300000000000004 = .ok (.rbCstat 0 4) := by decide +kernel

theorem test_decode_rsCfg : decodeWord 0x3010000000000001 = .ok (.rsCfg 1 .int) := by decide +kernel

theorem test_decode_rsReset : decodeWord 0x3100000000000000 = .ok (.rsReset 0) := by decide +kernel

theorem test_decode_rsRun : decodeWord 0x320000006400000A = .ok (.rsRun 0 10 100) := by decide +kernel

theorem test_decode_rsStat : decodeWord 0x3300000000000001 = .ok (.rsStat 0 1) := by decide +kernel

theorem test_decode_olaReset : decodeWord 0x4000000000000000 = .ok (.olaReset 0) := by decide +kernel

theorem test_decode_olaPush : decodeWord 0x4100000000000060 = .ok (.olaPush 0 96) := by decide +kernel

theorem test_decode_olaPop : decodeWord 0x4200000000000060 = .ok (.olaPop 0 96) := by decide +kernel

theorem test_decode_olaStat : decodeWord 0x4300000000000002 = .ok (.olaStat 0 2) := by decide +kernel

theorem test_decode_reserved_units : decodeWord 0 = .error .reservedUnit ∧
    decodeWord 0x5000000000000000 = .error .reservedUnit := by decide +kernel

theorem test_decode_rsv : decodeWord 0x1008000000000000 = .error .rsvNotZero := by decide +kernel

theorem test_decode_operands : decodeWord 0x1200000000000001 = .error .operandNotZero ∧
    decodeWord 0x1100000001000000 = .error .operandNotZero ∧
    decodeWord 0x3000000000000002 = .error .operandNotZero := by decide +kernel

theorem test_decode_reserved_ops : decodeWord 0x2000000000000000 = .error .reservedOp ∧
    decodeWord 0x4400000000000000 = .error .reservedOp := by decide +kernel

/-- The longest distance between two rows: RS.CFG INT is encoded as V30 says. -/
theorem test_encode_rsCfg : encode (.rsCfg 1 .int) = 0x3010000000000001 := by decide +kernel

/-- R107: the low byte comes first. -/
theorem test_bytes : wordBytes 0x11000000000000C8 = [0xC8, 0, 0, 0, 0, 0, 0, 0x11] := by decide +kernel

/-- R107, for the 32-bit words of a data stream: 1.0 and 2.0. -/
theorem test_stream_bytes :
    streamBytes [0x3F800000, 0x40000000] = [0, 0, 0x80, 0x3F, 0, 0, 0, 0x40] ∧
    bytesStream 2 [0, 0, 0x80, 0x3F, 0, 0, 0, 0x40] = [0x3F800000, 0x40000000] := by decide +kernel

/-- R161. -/
theorem test_status_codes : [Status.ok, .fail, .illegal, .error].map Status.code = [0, 1, 2, 3] := by decide

/-! ## Helpers -/

/-- One step in which HOST[d] issues a word with its data-in words. -/
def issue (s : State) (d : Nat) (w : Word64) (xs : List Word) : State :=
  match step (s.submit d { word := w, offered := xs }) with
  | .next t => t
  | _ => s

/-- The last completion HOST[d] received: ST, VAL, the words taken, the data-out words. -/
def answer (s : State) (d : Nat) : Option (Status × Word64 × Nat × List Word) :=
  ((s.fab d).done.getLast?).map fun c => (c.st, c.val, c.taken, c.out)

/-- The state with a ring replaced. -/
def withRing (i : Nat) (r : Rb) : State := State.reset.setRb i r

/-- A same-domain ring as V7 starts it: capacity 4, mono, every cursor at 0xFFFFFFFE. -/
def ringV7 : Rb :=
  { Rb.reset with
    init := true, cinit := true, cap := 4, ch := 1, wr := 0xFFFFFFFE, rd := 0xFFFFFFFE, rview := 0xFFFFFFFE
    wview := 0xFFFFFFFE }

/-- The cross-domain ring of P5 after step 7: wr 3, rd 2, wview 2, rview 0, slots 0 to 2 hold 1.0, 2.0, 3.0. -/
def ringP5 : Rb :=
  { Rb.reset with
    init := true, cinit := true, cap := 4, ch := 1, wr := 3, rd := 2, wview := 2
    mem := [(0, 0x3F800000), (1, 0x40000000), (2, 0x40400000)] }

/-- The spectral unit of V23 with 95 samples in the hop accumulator and 576 available. -/
def olaV23 : Ola := { Ola.reset with rdy := true, fill := 95, avail := 576, wo := 576 }

/-- A small legal configuration: rings 0 (both ports in domain 0) and 1 (consumer in domain 1), frames of 8 samples. -/
def small : Config where
  nDom := 2
  nRb := 2
  nRs := 1
  nOla := 1
  pdom := [0, 0]
  cdom := [0, 1]
  maxCap := 4
  maxCh := 2
  ptrW := 4
  syncStages := 2
  olaN := 8
  olaHop := 2
  olaHist := 4
  olaPad := 2
  olaRing := 16
  olaEps := 0x358637BD
  hann := [0, 0x3E800000, 0x3F000000, 0x3F800000, 0x3F800000, 0x3F000000, 0x3E800000, 0]
  xform := .ideal

/-- Ring 0 with one unread frame. -/
def ringA : Rb :=
  { Rb.reset with
    init := true, cinit := true, cap := 4, ch := 1, wr := 2, rview := 1, rd := 1, wview := 2
    mem := [(0, 0x3F800000), (1, 0x40000000)] }

/-- Ring 1 with views that lag: one frame read that the producer has not seen, one written that the consumer has not. -/
def ringB : Rb :=
  { Rb.reset with
    init := true, cinit := true, cap := 4, ch := 1, wr := 3, rview := 0, rd := 1, wview := 2
    mem := [(0, 0x3F800000), (1, 0x40000000), (2, 0x40400000)] }

/-- Ring 1 with an INIT pending. -/
def ringPending : Rb := { Rb.reset with pending := true, cap := 4, ch := 1, rd := 5, wview := 6 }

/-- A small machine in service, nothing issued. -/
def ready : State :=
  { State.resetOf small with
    rbs := [ringA, ringB]
    rss := [{ Rs.reset with cfgd := true }]
    olas := [Ola.reset.streaming small] }

/-- The same with ring 1's views at its cursors. -/
def settled : State := ready.setRb 1 { ringB with rview := 1, wview := 3 }

/-- The same with ring 1's INIT pending. -/
def waiting : State := ready.setRb 1 ringPending

/-- The command on the port. -/
def on (s : State) (d : Nat) (w : Word64) (xs : List Word) : State :=
  { s with cur := { dom := d, word := w, offered := xs } }

/-- A schedule for the coming turns. -/
def turns (s : State) (es : List Event) : State := { s with sched := es }

/-- Commands for HOST[d] to issue. -/
def queued (s : State) (d : Nat) (rs : List Request) : State := s.setFab d { s.fab d with queue := rs }

/-! ## Rings -/

/-- V1. -/
theorem test_init_rounds : answer (issue State.reset 0 0x1000000002000064 []) 0 = some (.ok, 128, 0, []) := by
  decide +kernel

/-- V3, the row 65537. -/
theorem test_init_fails : answer (issue State.reset 0 0x1000000001010001 []) 0 = some (.fail, 0, 0, []) := by
  decide +kernel

/-- V7: the frames go to slots 2, 3 and 0, and wr wraps. -/
theorem test_write_wraps :
    (issue (withRing 0 ringV7) 0 0x1100000000000003 [0x3F800000, 0x40000000, 0x40400000]).rb 0 =
      { ringV7 with wr := 1, wview := 1, mem := [(0, 0x40400000), (2, 0x3F800000), (3, 0x40000000)] } := by
  decide +kernel

/-- P5 step 8: one of the two frames fits, and FULL is 1 on the lagging view. -/
theorem test_write_short :
    let t := issue (withRing 2 ringP5) 0 0x1120000000000002 [0x40800000, 0x40A00000]
    answer t 0 = some (.ok, 1, 1, []) ∧ (t.rb 2).full 32 = true ∧ (t.rb 2).wview = 2 := by
  decide +kernel

/-- P5 step 7. -/
theorem test_pavail : answer (issue (withRing 2 ringP5) 0 0x1220000000000000 []) 0 =
    some (.ok, 0x0000000100000003, 0, []) := by
  decide +kernel

/-- V6, the row "cap 4, wr 4, rd 2, rview 0": PFLAGS 3. -/
theorem test_pstat_flags :
    answer (issue (withRing 2 { ringP5 with wr := 4, wview := 4 }) 0 0x1320000000000004 []) 0 = some (.ok, 3, 0, []) := by
  decide +kernel

/-- V35: PSTAT of an index past the last register is ILLEGAL before any INIT too. -/
theorem test_pstat_reserved :
    let t := issue State.reset 0 0x1300000000000007 []
    answer t 0 = some (.illegal, 0, 0, []) ∧ (t.rb 0).perr = 1 := by
  decide +kernel

/-- V7: RB.READ of 4 delivers the three frames there are. -/
theorem test_read_wraps :
    let r := { ringV7 with wr := 1, wview := 1, mem := [(0, 0x40400000), (2, 0x3F800000), (3, 0x40000000)] }
    let t := issue (withRing 0 r) 0 0x2100000000000004 []
    answer t 0 = some (.ok, 3, 0, [0x3F800000, 0x40000000, 0x40400000]) ∧ (t.rb 0).rd = 1 ∧ (t.rb 0).rview = 1 := by
  decide +kernel

/-- V5, the row of the view lag: wr 3, rd 0, wview 1 delivers frame 0 only. -/
theorem test_read_view_lag :
    answer (issue (withRing 2 { ringP5 with rd := 0, wview := 1 }) 1 0x2120000000000003 []) 1 =
      some (.ok, 1, 0, [0x3F800000]) := by
  decide +kernel

/-- P5 step 5: wr 3, rd 0, wview 2. -/
theorem test_cavail : answer (issue (withRing 2 { ringP5 with rd := 0 }) 1 0x2220000000000000 []) 1 =
    some (.ok, 0x0000000200000002, 0, []) := by
  decide +kernel

/-- V6, the last row: one frame in flight, EMPTY 1, CFLAGS 3. -/
theorem test_cstat_in_flight :
    answer (issue (withRing 2 { ringP5 with rview := 2 }) 1 0x2320000000000004 []) 1 = some (.ok, 3, 0, []) := by
  decide +kernel

/-- V35: HAZARD goes before the reserved index. -/
theorem test_cstat_hazard :
    let t := issue (withRing 2 { Rb.reset with pending := true }) 1 0x2320000000000009 []
    answer t 1 = some (.error, 0, 0, []) ∧ (t.rb 2).cerr = 8 := by
  decide +kernel

/-- P6 step 3: rb2's consumer port lives in domain 1. -/
theorem test_wrong_domain :
    let t := issue State.reset 0 0x2120000000000001 []
    answer t 0 = some (.illegal, 0, 0, []) ∧ (t.fab 0).ferr = 1 ∧ (t.rb 2).cerr = 0 := by
  decide +kernel

/-- P5 steps 1 and 2: the INIT completes with INITACK. -/
theorem test_initAck :
    let s := (withRing 2 { Rb.reset with pending := true, cap := 4, ch := 1 }).initAck 2
    answer s 0 = some (.ok, 4, 0, []) ∧ (s.rb 2).init = true ∧ (s.rb 2).cinit = true ∧ (s.rb 2).pending = false := by
  decide +kernel

/-- V9: from view 0xFFFFFFFE and cursor 1 the three draws reach 0xFFFFFFFF, 0 and 1. -/
theorem test_sync_moves : (List.range 3).map (syncTarget 32 0xFFFFFFFE 1) = [0xFFFFFFFF, 0, 1] := by decide +kernel

/-- V8. -/
theorem test_gray : [0, 1, 2, 3, 4, 5, 127, 128, 0xFFFFFFFF].map (fun b : BitVec 32 => gray b) =
    [0, 1, 3, 2, 6, 7, 64, 192, 0x80000000] := by
  decide +kernel

/-! ## Resamplers -/

/-- V15. -/
theorem test_rsStat_mode :
    answer (issue (issue State.reset 0 0x3010000000000001 []) 0 0x3310000000000000 []) 0 = some (.ok, 3, 0, []) := by
  decide +kernel

/-- V15: index 2 is reserved. -/
theorem test_rsStat_reserved :
    let t := issue State.reset 0 0x3300000000000002 []
    answer t 0 = some (.illegal, 0, 0, []) ∧ (t.rs 0).err = 1 := by
  decide +kernel

/-- V15: RS.CFG selects the mode. -/
theorem test_rsCfg : (issue State.reset 0 0x3010000000000001 []).rs 1 = { Rs.reset with cfgd := true, mode := .int } := by
  decide +kernel

/-- V15: RS.RESET leaves cfgd 0. -/
theorem test_rsReset :
    let t := issue State.reset 0 0x3100000000000000 []
    answer t 0 = some (.ok, 0, 0, []) ∧ t.rs 0 = Rs.reset := by
  decide +kernel

/-- V11, the last row. -/
theorem test_rsRun_decimate :
    answer (issue (State.reset.setRs 0 { Rs.reset with cfgd := true }) 0 0x320000006400000A
      [0x3F800000, 0x40000000, 0x40800000, 0x40A00000, 0x40A00000, 0x40A00000, 0, 0x40400000, 0x40C00000, 0x40E00000]) 0 =
      some (.ok, 3, 10, [0x40155555, 0x40A00000, 0x40400000]) := by
  decide +kernel

/-- V13. -/
theorem test_rsRun_interpolate :
    answer (issue (State.reset.setRs 1 { Rs.reset with cfgd := true, mode := .int }) 0 0x3210000064000002
      [0, 0x3F800000]) 0 =
      some (.ok, 6, 2, [0, 0x3EAAAAAB, 0x3F2AAAAB, 0x3F800000, 0x3F800000, 0x3F800000]) := by
  decide +kernel

/-! ## Spectral processors -/

/-- P3 step 1: only the error register keeps its value. -/
theorem test_olaReset :
    let t := issue (State.resetOf small |>.setOla 0 { Ola.reset with err := 2, fill := 1, pushed := 1 }) 0
      0x4000000000000000 []
    (t.ola 0).rdy = true ∧ (t.ola 0).fill = 0 ∧ (t.ola 0).pushed = 0 ∧ (t.ola 0).err = 2 ∧
      (t.ola 0).hist = [(0, 0), (1, 0), (2, 0), (3, 0)] := by
  decide +kernel

/-- V23: avail 576, fill 95, one sample more is OVR and changes nothing else. -/
theorem test_olaPush_overrun :
    let t := issue (State.reset.setOla 0 olaV23) 0 0x4100000000000001 [0x3F800000]
    answer t 0 = some (.error, 0, 0, []) ∧ t.ola 0 = { olaV23 with err := 0x10 } := by
  decide +kernel

/-- A hop of two samples 1.0 in the small configuration, by hand from R303 to R308: the frame is 0 but for its last two
samples, the window there is 0.25 and 0, so cell 6 gets 0.0625 and every other cell 0; nrm holds the squared window. -/
theorem test_olaPush_cycle :
    let t := issue ready 0 0x4100000000000002 [0x3F800000, 0x3F800000]
    answer t 0 = some (.ok, 1, 2, []) ∧
    ((List.range 8).map fun p => Mem.read (t.ola 0).acc p) =
      [some 0, some 0, some 0, some 0, some 0, some 0, some 0x3D800000, some 0] ∧
    ((List.range 8).map fun p => Mem.read (t.ola 0).nrm p) =
      [some 0, some 0x3D800000, some 0x3E800000, some 0x3F800000, some 0x3F800000, some 0x3E800000, some 0x3D800000,
        some 0] ∧
    (t.ola 0).hist = [(0, 0), (1, 0), (2, 0x3F800000), (3, 0x3F800000)] ∧ (t.ola 0).wo = 2 ∧ (t.ola 0).hops = 1 := by
  decide +kernel

/-- V21: before any hop a pop delivers nothing. -/
theorem test_olaPop_before_hop :
    answer (issue (State.reset.setOla 0 { Ola.reset with rdy := true }) 0 0x420000000000000A []) 0 =
      some (.ok, 0, 0, []) := by
  decide +kernel

/-- R320, R321 by hand: a cell 1.0 over 0.5 pops as 2.0, a cell whose normalisation is below OLA_EPS pops as +0.0, and
both are cleared. -/
theorem test_olaPop_normalises :
    let o := { Ola.reset.streaming small with
      avail := 2, wo := 2, acc := [(0, 0x3F800000), (1, 0x3F800000)], nrm := [(0, 0x3F000000), (1, 0x358637BC)] }
    let t := issue (ready.setOla 0 o) 0 0x4200000000000005 []
    answer t 0 = some (.ok, 2, 0, [0x40000000, 0]) ∧ (t.ola 0).acc = [(0, 0), (1, 0)] ∧
      (t.ola 0).nrm = [(0, 0), (1, 0)] ∧ (t.ola 0).ro = 2 := by
  decide +kernel

/-- V27. -/
theorem test_olaStat_cfg : answer (issue State.reset 0 0x4300000000000008 []) 0 = some (.ok, 512, 0, []) := by
  decide +kernel

/-- V27: index 15 is reserved. -/
theorem test_olaStat_reserved :
    let t := issue State.reset 0 0x430000000000000F []
    answer t 0 = some (.illegal, 0, 0, []) ∧ (t.ola 0).err = 1 := by
  decide +kernel

/-- V22: the window and its square on both sides of OLA_EPS. -/
theorem test_hann :
    hannAt configReference 5 = 0x3A77A0F6 ∧ hannAt configReference 6 = 0x3AB2449B ∧
    hannAt configReference 255 = 0x3F7FFF61 ∧ hannAt configReference 511 = 0 ∧
    fmul 0 (hannAt configReference 5) (hannAt configReference 5) = 0x356F8800 ∧
    fmul 0 (hannAt configReference 6) (hannAt configReference 6) = 0x35F846F4 ∧
    flt 0x356F8800 configReference.olaEps = true ∧ flt 0x35F846F4 configReference.olaEps = false := by
  decide +kernel

/-! ## Binary32 -/

/-- V12: the first sum overflows; the zeros keep their signs as IEEE 754 says. -/
theorem test_mean3_corners :
    mean3 (fun _ => 0) 0 0x7F7FC99E 0x7F7FC99E 0x7F7FC99E = 0x7F800000 ∧
    mean3 (fun _ => 0) 0 0x80000000 0x80000000 0x80000000 = 0x80000000 ∧
    mean3 (fun _ => 0) 0 0 0x80000000 0x80000000 = 0 := by
  decide +kernel

/-- V12, V14: an invalid sum is a NaN; phase 0 copies a NaN's payload. -/
theorem test_nan :
    isNaN (mean3 (fun _ => 0) 0 0x7F800000 0xFF800000 0x3F800000) = true ∧
    interp (fun _ => 0) [0x7FC00001, 0x3F800000] 0 = 0x7FC00001 ∧
    isNaN (interp (fun _ => 0) [0x7FC00001, 0x3F800000] 1) = true := by
  decide +kernel

/-- IEEE 754: the least subnormal halved ties to even, to zero; one and a half of it rounds to two. -/
theorem test_subnormal_ties :
    fdiv 0 0x00000001 0x40000000 = 0 ∧ fmul 0 0x00000003 0x3F000000 = 0x00000002 := by
  decide +kernel

/-- V40: 100 of 192 frames at 400 ms: 92 zero-filled, 92 counted; at 100 ms nothing is counted. -/
theorem test_pull :
    (Engine.pullResult { Engine.Duplex.stopped 0 .passthrough with channels := 2 } 400 192 100
      (List.replicate 200 0x3F800000)).1.underflow = 92 ∧
    (Engine.pullResult { Engine.Duplex.stopped 0 .passthrough with channels := 2 } 100 192 0 []).1.underflow = 0 := by
  decide +kernel

/-! ## The reference host -/

/-- R361: the variant nobody chose. -/
theorem test_variant_default : (Engine.Duplex.stopped 0).variant = .resampleAndSpectral := rfl

/-- R368: a read gives at most FPB frames; of five words of two channels it keeps the whole frames. -/
theorem test_read_bounded :
    Engine.captured 2 4 (.frames [1, 2, 3, 4, 5]) = some (2, [1, 2, 3, 4]) ∧
    Engine.captured 2 1 (.frames [1, 2, 3, 4, 5]) = some (1, [1, 2]) ∧ Engine.captured 2 1 .failed = none := by decide

/-- An engine that runs, its worker at the head of its loop. -/
def runningWorld : Engine.World :=
  { Engine.World.boot ready { Engine.Duplex.stopped 0 with running := true, channels := 1, burst := 1 } with
    worker := .loop .worker }

/-- What the outside has seen of an engine: the device calls, the notes, and whether the worker has returned. -/
def seen (w : Option Engine.World) : Option (List Engine.DeviceCall × List Engine.Note × Bool) :=
  w.map fun w => (w.devices, w.notes, w.worker.isFinished)

/-- R367: `stop()` does not touch the streams before the worker has returned. -/
theorem test_stop_joins :
    seen (runningWorld.moves ([.stop] ++ List.replicate 9 (.control .done))) = some ([], [], false) ∧
    seen (runningWorld.moves
      ([.stop] ++ List.replicate 3 (.control .done) ++ List.replicate 3 (.worker .done) ++
        List.replicate 9 (.control .done))) = some ([.captureStop, .playbackStop], [.stopped], true) := by
  decide +kernel

/-- R378: the worker asks for a burst while `running` holds, and reads `running` again in the next iteration. -/
theorem test_worker_tests_running :
    seen (runningWorld.moves (List.replicate 3 (.worker .failed))) = some ([.captureRead 1 0], [], false) ∧
    seen (runningWorld.moves
      (List.replicate 3 (.worker .failed) ++ [.stop] ++ List.replicate 3 (.control .done) ++
        List.replicate 3 (.worker .failed))) = some ([.captureRead 1 0], [], true) := by
  decide +kernel

/-- Log entry 32. -/
theorem test_start_running :
    seen (runningWorld.moves
      ([.start ⟨true, true, 2, 192, 48000⟩] ++ List.replicate 3 (.control .done))) = some ([], [.started false], false) := by
  decide +kernel

/-- R156, log entry 34: the largest request one command can carry, and the one above; a longer count in pieces. -/
theorem test_expressible :
    Engine.expressible .resampleAndSpectral 96 ⟨true, true, 2, 192, 5 * (2 ^ 24 - 1)⟩ = true ∧
    Engine.expressible .passthrough 96 ⟨true, true, 2, 192, 5 * 2 ^ 24⟩ = false ∧
    Engine.pieces (2 ^ 24) = [2 ^ 24 - 1, 1] ∧ Engine.pieces 0 = [0] := by decide +kernel

/-- R381: a long hop stops the spectral variant alone, a long burst only those that resample. -/
theorem test_expressible_variants :
    ([Engine.Variant.passthrough, .resampleOnly, .resampleAndSpectral].map fun v =>
      (Engine.expressible v 5592405 ⟨true, true, 2, 192, 48000⟩, Engine.expressible v 5592406 ⟨true, true, 2, 192, 48000⟩,
        Engine.expressible v 96 ⟨true, true, 2, 2 ^ 24, 48000⟩)) =
      [(true, true, true), (true, true, false), (true, false, false)] := by decide +kernel

theorem test_start_inexpressible :
    seen ((Engine.World.boot ready (Engine.Duplex.stopped 0)).moves
      ([.start ⟨true, true, 2, 192, 5 * 2 ^ 24⟩] ++ List.replicate 3 (.control .done))) =
      some ([], [.started false], true) := by
  decide +kernel

/-- R365, log entry 35: a sink that did not stop does not hold a later `start()`, and does not pull in it. -/
theorem test_start_after_failed_stop :
    (({ Engine.World.boot ready (Engine.Duplex.stopped 0) with rendering := true }.moves
      [.start ⟨true, true, 2, 192, 48000⟩, .pull 1]).map fun (w : Engine.World) => (w.control.isFinished, w.callback.isFinished)) =
      some (false, true) := by
  decide +kernel

/-- R372: the counters since the last snapshot, and the six reads. -/
theorem test_snapshot :
    seen (({ runningWorld with
      machine := { ready with cfg := { small with nRb := 3, pdom := [0, 0, 0], cdom := [0, 0, 0] }, rbs := [ringA, ringA, ringA]
                              olas := [{ Ola.reset.streaming small with hops := 5, pushed := 10, popped := 7 }] }
      host := { runningWorld.host with overflow := 3, lastHops := 2, lastPushed := 4, lastPopped := 4 }
      worker := (Engine.emitDiagnostics 0).thread }).moves (List.replicate 9 (.worker .done))) =
      some ([], [.snapshot ⟨[1, 1, 1], 3, 0, 3, 6, 3⟩], true) := by
  decide +kernel

/-! ## The question of the host's checks -/

/-- The host's question: a row's word is the first command after reset. -/
theorem test_withFetchWord :
    decodeTableWord 64 0x1000000002000064 = some (.rbInit 0 100 2) ∧
    (State.reset.withFetchWord 64 0x1000000002000064).nextRequest 0 =
      some { word := 0x1000000002000064, offered := [] } := by
  decide +kernel

/-! ## Witnesses: for every statement with hypotheses, a state and operands that meet them together -/

theorem small_legal : Legal small where
  domains := by decide
  rings := by decide
  resamplers := by decide
  spectral := by decide
  placed := by decide
  capacity := ⟨2, by decide, by decide, rfl⟩
  channels := by decide
  pointers := by decide +kernel
  stages := by decide
  length := ⟨3, rfl⟩
  parts := rfl
  hops := by decide
  accumulator := by decide
  epsilon := by decide +kernel
  windowLength := rfl
  windowSymmetric := by decide +kernel
  windowEnds := rfl
  windowRange := by decide +kernel
  transform y h := by rw [List.eq_of_mem_replicate h]; rfl

/-- The small machine with frames of two samples, transformed as R312 computes it: TW is 1 in both directions. -/
def smallFft : Config :=
  { small with
    olaN := 2, olaHop := 1, olaHist := 1, olaPad := 0, olaRing := 3, hann := [0, 0]
    xform := .fft [(0x3F800000, 0)] [(0x3F800000, 0)] }

/-- Both runs of the two-point butterflies on silence; the kernel evaluates one at a time. -/
theorem fftStages_silence (n : Nat) (h : n = 0 ∨ n = 20) :
    fftStages (Config.nanXform [0, 0]) n [(0x3F800000, 0)] [(0, 0), (0, 0)] = [(0, 0), (0, 0)] := by
  rcases h with rfl | rfl <;> decide +kernel

/-- X2 by hand for two points: (0 + 0) and (0 - 0 * 1), twice, times 0.5. -/
theorem test_xformFft_silence : xformFft [(0x3F800000, 0)] [(0x3F800000, 0)] [0, 0] = [0, 0] := by
  have e : (([0, 0] : List Word).map fun x => (x, fZero)) = [(0, 0), (0, 0)] := rfl
  have l : 10 * ([0, 0] : List Word).length * Nat.log2 ([0, 0] : List Word).length = 20 := by decide
  simp only [xformFft, e, l, fftStages_silence 0 (.inl rfl), fftStages_silence 20 (.inr rfl)]
  decide +kernel

/-- R311: a machine with the transform of R312 is legal. -/
theorem test_legal_fft : Legal smallFft :=
  { small_legal with
    length := ⟨1, rfl⟩
    parts := rfl
    hops := by decide
    accumulator := by decide
    windowLength := rfl
    windowSymmetric := by decide +kernel
    windowEnds := rfl
    windowRange := by decide +kernel
    transform y h := by
      have e : xform smallFft (List.replicate smallFft.olaN fZero) = List.replicate 2 0 := test_xformFft_silence
      rw [e] at h
      rw [List.eq_of_mem_replicate h]; rfl }

theorem ringA_inv : RingInv small 0 ringA where
  capacity := .inr ⟨2, by decide, rfl⟩
  capacityMax := by decide
  channelsMax := by decide
  configured := by decide
  sides := rfl
  pending := by decide
  widths := by decide
  order := by decide
  consumer := by decide
  exact := by decide
  written := by decide +kernel
  canonical := by decide
  inside := by decide
  errors := by unfold errClean; decide

theorem ringB_inv : RingInv small 1 ringB where
  capacity := .inr ⟨2, by decide, rfl⟩
  capacityMax := by decide
  channelsMax := by decide
  configured := by decide
  sides := rfl
  pending := by decide
  widths := by decide
  order := by decide
  consumer := by decide
  exact := by decide
  written := by decide +kernel
  canonical := by decide
  inside := by decide
  errors := by unfold errClean; decide

/-- Both views of a ring moved to its cursors. -/
theorem ringSettled_inv : RingInv small 1 { ringB with rview := 1, wview := 3 } where
  capacity := .inr ⟨2, by decide, rfl⟩
  capacityMax := by decide
  channelsMax := by decide
  configured := by decide
  sides := rfl
  pending := by decide
  widths := by decide
  order := by decide
  consumer := by decide
  exact := by decide
  written := by decide +kernel
  canonical := by decide
  inside := by decide
  errors := by unfold errClean; decide

theorem ringPending_inv : RingInv small 1 ringPending where
  capacity := .inr ⟨2, by decide, rfl⟩
  capacityMax := by decide
  channelsMax := by decide
  configured := by decide
  sides := rfl
  pending := by decide
  widths := by decide
  order := by decide
  consumer := by decide
  exact := by decide
  written := by decide
  canonical := by decide
  inside := by decide
  errors := by unfold errClean; decide

theorem ready_sized : Sized ready := ⟨rfl, rfl, rfl, rfl⟩

theorem ready_inv : Inv ready where
  legal := small_legal
  sized := ready_sized
  rings := by
    intro i hi
    match i, hi with
    | 0, _ => exact ringA_inv
    | 1, _ => exact ringB_inv
  resamplers := by unfold errClean; decide
  spectral := by
    intro k hk
    match k, hk with
    | 0, _ => exact (SpectralInv.reset small_legal).stream small_legal
  fabrics := by decide

theorem waiting_inv : Inv waiting := ready_inv.setRb fun _ => ringPending_inv

/-- The invariant says nothing of the command on the port. -/
theorem on_inv {s : State} (h : Inv s) (d : Nat) (w : Word64) (xs : List Word) : Inv (on s d w xs) :=
  h.congr rfl rfl rfl rfl rfl fun _ => rfl

theorem turns_inv {s : State} (h : Inv s) (es : List Event) : Inv (turns s es) :=
  h.congr rfl rfl rfl rfl rfl fun _ => rfl

theorem ready_admits {p : Port} {d : Nat} {w : Word64} {xs : List Word} (hd : d < 2) (h : homeDomain small p = some d) :
    Admitted (on ready d w xs) p := ⟨⟨rfl, rfl, rfl, rfl⟩, hd, h⟩

theorem test_witness_EncodeOfDecodeIsTheWord : decodeWord 0x3010000000000001 = .ok (.rsCfg 1 .int) := by decide +kernel

theorem test_witness_DecoderAgreesWithOpcodeMap :
    ∃ row ∈ opcodeMap, selects 0x3010000000000001 row = true := by decide +kernel

theorem test_witness_ByteLinkIsLittleEndian :
    decodeWord 0x4300000000000002 = .ok (.olaStat 0 2) ∧ decodeWord 0x1008000000000000 = .error .rsvNotZero := by
  decide +kernel

/-- HOST[0] has a command word that decodes, and the turn. -/
def issuing : State := queued (turns ready [.host 0]) 0 [{ word := 0x1200000000000000, offered := [] }]

theorem test_witness_StepExecutesDecodedCommand :
    issuing.sched = [.host 0] ∧ 0 < issuing.cfg.nDom ∧
    issuing.nextRequest 0 = some { word := 0x1200000000000000, offered := [] } ∧
    decodeWord 0x1200000000000000 = .ok (.rbPavail 0) := by decide +kernel

/-- HOST[0] has a reserved word: RSV set on a port of its own, UNIT 0, or RSV set on a port of domain 1. -/
def issuingBad (w : Word64) : State := queued (turns ready [.host 0]) 0 [{ word := w, offered := [] }]

theorem test_witness_StepRefusesReservedWord :
    (issuingBad 0x1008000000000000).nextRequest 0 = some { word := 0x1008000000000000, offered := [] } ∧
    decodeWord 0x1008000000000000 = .error .rsvNotZero ∧
    portOf 0x1008000000000000 = some (.rbp 0) ∧ homeDomain small (.rbp 0) = some 0 ∧
    decodeWord 0 = .error .reservedUnit ∧ portOf 0 = none ∧
    decodeWord 0x2018000000000000 = .error .rsvNotZero ∧
    portOf 0x2018000000000000 = some (.rbc 1) ∧ homeDomain small (.rbc 1) ≠ some 0 := by decide +kernel

theorem test_witness_RaiseRecordsAndRefuses :
    Sized ready ∧ ready.cur.dom < ready.cfg.nDom ∧ homeDomain ready.cfg (.ola 0) = some ready.cur.dom :=
  ⟨ready_sized, by decide, by decide⟩

/-- A port of the other domain, and the first ring number the machine does not have. -/
theorem test_witness_WrongDomainIsIllegal :
    homeDomain small (Instr.rbRead 1 0).port ≠ some 0 ∧ homeDomain small (Instr.rbRead 2 0).port ≠ some 1 ∧
    Sized (on ready 0 0 []) ∧ (on ready 0 0 []).cur.dom < small.nDom :=
  ⟨by decide, by decide, ⟨rfl, rfl, rfl, rfl⟩, by decide⟩

/-- Right after reset every port of the small machine is uninitialised. -/
theorem test_witness_NotInitAsTabled :
    let s := State.resetOf small
    (homeDomain s.cfg (.rbp (0 : BitVec 4).toNat) = some s.cur.dom ∧ (s.rb (0 : BitVec 4).toNat).init = false) ∧
    (homeDomain s.cfg (.rbc (0 : BitVec 4).toNat) = some s.cur.dom ∧ (s.rb (0 : BitVec 4).toNat).pending = false ∧
      (s.rb (0 : BitVec 4).toNat).cinit = false) ∧
    (homeDomain s.cfg (.rs (0 : BitVec 4).toNat) = some s.cur.dom ∧ (s.rs (0 : BitVec 4).toNat).cfgd = false) ∧
    (homeDomain s.cfg (.ola (0 : BitVec 4).toNat) = some s.cur.dom ∧ (s.ola (0 : BitVec 4).toNat).rdy = false) ∧
    (∃ t, exec (.rbPstat 0 0) s = .next t) ∧
    ∃ t f, exec (.olaPop 0 1) s = .next t ∧ t.faults = s.faults ++ [f] ∧ f.kind = .notInit :=
  ⟨by decide, by decide, by decide, by decide, ⟨_, rfl⟩, _, _, rfl, rfl, rfl⟩

/-- One word too few, and one too many, in each data-in command. -/
theorem test_witness_ProtoOnWrongLength :
    let s := on ready 0 0 [0, 0]
    (homeDomain s.cfg (.rbp 0) = some s.cur.dom ∧ (s.rb 0).init = true ∧
      s.cur.offered.length ≠ (3 : BitVec 24).toNat * (s.rb 0).ch) ∧
    (homeDomain s.cfg (.rs 0) = some s.cur.dom ∧ (s.rs 0).cfgd = true ∧ s.cur.offered.length ≠ (1 : BitVec 24).toNat) ∧
    (homeDomain s.cfg (.ola 0) = some s.cur.dom ∧ (s.ola 0).rdy = true ∧
      s.cur.offered.length ≠ (3 : BitVec 24).toNat) ∧
    ∃ t, exec (.rbPavail 0) s = .next t ∧
      Answers s t { st := .ok, val := availVal 1 3, taken := 0, out := [] } :=
  ⟨by decide, by decide, by decide, _, rfl, answers_respond rfl rfl (by decide)⟩

theorem test_witness_HazardWhileInitPending :
    let s := on waiting 1 0 []
    homeDomain s.cfg (.rbc (1 : BitVec 4).toNat) = some s.cur.dom ∧ (s.rb (1 : BitVec 4).toNat).pending = true := by
  decide

/-- avail 10 of a ring of 16: one more cycle would need 18 cells. -/
theorem test_witness_OverrunIsRefused :
    let s := on (ready.setOla 0 { Ola.reset.streaming small with avail := 10 }) 0 0 [0, 0]
    let o := s.ola 0
    homeDomain s.cfg (.ola 0) = some s.cur.dom ∧ o.rdy = true ∧ s.cur.offered.length = (2 : BitVec 24).toNat ∧
    1 ≤ (o.fill + 2) / s.cfg.olaHop ∧ s.cfg.olaRing < o.avail + ((o.fill + 2) / s.cfg.olaHop - 1) * s.cfg.olaHop + s.cfg.olaN := by
  decide +kernel

theorem test_witness_CapacityRoundsUpToPowerOfTwo : (3 : Nat) ≤ 2 ^ 2 ∧ 2 ≤ 2 ^ 2 ∧ initCap 3 = 4 := by decide +kernel

/-- Each disjunct at its boundary: 0, 0, one above MAX_CAP, one above MAX_CH. -/
theorem test_witness_InitRefusesBadArguments :
    Admitted (on ready 0 0 []) (.rbp (1 : BitVec 4).toNat) ∧ small.maxCap < nextPow2 (max (5 : BitVec 24).toNat 2) ∧
    ¬ small.maxCap < nextPow2 (max (4 : BitVec 24).toNat 2) ∧ small.maxCh < (3 : BitVec 24).toNat :=
  ⟨ready_admits (by decide) (by decide), by decide +kernel, by decide +kernel, by decide⟩

theorem test_witness_InitOfSameDomainRing :
    Admitted (on ready 0 0 []) (.rbp (0 : BitVec 4).toNat) ∧ producerDomain small 0 = consumerDomain small 0 ∧
    (4 : BitVec 24) ≠ 0 ∧ (2 : BitVec 24) ≠ 0 ∧ nextPow2 (max (4 : BitVec 24).toNat 2) ≤ small.maxCap ∧
    (2 : BitVec 24).toNat ≤ small.maxCh :=
  ⟨ready_admits (by decide) (by decide), by decide, by decide, by decide, by decide +kernel, by decide⟩

theorem test_witness_InitOfCrossDomainRing :
    Admitted (on ready 0 0 []) (.rbp (1 : BitVec 4).toNat) ∧ producerDomain small 1 ≠ consumerDomain small 1 ∧
    (1 : BitVec 24) ≠ 0 ∧ (1 : BitVec 24) ≠ 0 ∧ nextPow2 (max (1 : BitVec 24).toNat 2) ≤ small.maxCap ∧
    (1 : BitVec 24).toNat ≤ small.maxCh :=
  ⟨ready_admits (by decide) (by decide), by decide, by decide, by decide, by decide +kernel, by decide⟩

theorem test_witness_InitAckCompletesInit :
    let s := turns waiting [.initAck 1]
    s.sched = [.initAck 1] ∧ 1 < s.cfg.nRb ∧ Sized s ∧ producerDomain s.cfg 1 < s.cfg.nDom ∧ (s.rb 1).pending = true :=
  ⟨rfl, by decide, ⟨rfl, rfl, rfl, rfl⟩, by decide, rfl⟩

theorem test_witness_PendingInitHoldsHostAndViews :
    1 < waiting.cfg.nRb ∧ producerDomain waiting.cfg 1 < waiting.cfg.nDom ∧ (waiting.rb 1).pending = true ∧
    (turns waiting [.host 0]).sched = [.host (producerDomain waiting.cfg 1)] ∧
    (turns waiting [.syncW2R 1 0]).sched = [.syncW2R 1 0] ∧ (turns waiting [.syncR2W 1 0]).sched = [.syncR2W 1 0] := by
  decide

/-- A write of two frames into a ring with room for one, and a write of none. -/
theorem test_witness_WriteStoresFramesAndAdvances :
    Admitted (on ready 0 0 [0, 0]) (.rbp (1 : BitVec 4).toNat) ∧ (ready.rb 1).init = true ∧
    (on ready 0 0 [0, 0]).cur.offered.length = (2 : BitVec 24).toNat * (ready.rb 1).ch ∧
    (on ready 0 0 []).cur.offered.length = (0 : BitVec 24).toNat * (ready.rb 1).ch :=
  ⟨ready_admits (by decide) (by decide), by decide, by decide, by decide⟩

theorem test_witness_ReadDeliversFramesAndAdvances :
    Admitted (on ready 1 0 []) (.rbc (1 : BitVec 4).toNat) ∧ (ready.rb 1).pending = false ∧ (ready.rb 1).cinit = true ∧
    Mem.read (ready.rb 1).mem ((ready.rb 1).wordIndex 1 0) = some 0x40000000 :=
  ⟨ready_admits (by decide) (by decide), by decide, by decide, by decide⟩

theorem test_witness_WriteAppendsToUnreadFrames :
    let s := on ready 0 0 [0, 0]
    Inv s ∧ homeDomain s.cfg (.rbp (1 : BitVec 4).toNat) = some s.cur.dom ∧ (s.rb 1).init = true ∧
    s.cur.offered.length = (2 : BitVec 24).toNat * (s.rb 1).ch ∧ ∃ t, exec (.rbWrite 1 2) s = .next t :=
  ⟨on_inv ready_inv _ _ _, by decide, by decide, by decide, _, rfl⟩

theorem test_witness_ReadTakesOldestUnreadFrames :
    let s := on ready 1 0 []
    Inv s ∧ homeDomain s.cfg (.rbc (1 : BitVec 4).toNat) = some s.cur.dom ∧ (s.rb 1).cinit = true ∧
    ∃ t c, exec (.rbRead 1 3) s = .next t ∧ Answers s t c :=
  ⟨on_inv ready_inv _ _ _, by decide, by decide, _, _, rfl, answers_respond rfl rfl (by decide)⟩

/-- A write into ring 0 changes the frames it holds. -/
theorem test_witness_OnlyRingCommandsChangeUnreadFrames :
    let s := queued (turns ready [.host 0]) 0 [{ word := 0x1100000000000001, offered := [0x3F800000] }]
    (s.rb 0).pending = false ∧
    ((issue ready 0 0x1100000000000001 [0x3F800000]).rb 0).unread s.cfg.ptrW ≠ (s.rb 0).unread s.cfg.ptrW ∧
    (∃ t, step s = .next t) := ⟨by decide, by decide +kernel, _, rfl⟩

/-- The same where the fair choice gives the host its turn: no INIT pending and every view at its cursor. -/
theorem test_witness_OnlyRingCommandsChangeUnreadFrames_fair :
    let s := queued settled 0 [{ word := 0x1100000000000001, offered := [0x3F800000] }]
    (s.rb 0).pending = false ∧ s.sched = [] ∧ s.fairEvent = some (.host 0) ∧
    ∃ t, step s = .next t ∧ (t.rb 0).unread s.cfg.ptrW ≠ (s.rb 0).unread s.cfg.ptrW :=
  ⟨by decide, rfl, by decide +kernel, _, rfl, by decide +kernel⟩

/-- And where the block reset empties the ring. -/
theorem test_witness_OnlyRingCommandsChangeUnreadFrames_reset :
    let s := turns ready [.blockReset]
    (s.rb 0).pending = false ∧ s.sched.head? = some .blockReset ∧
    ∃ t, step s = .next t ∧ (t.rb 0).unread s.cfg.ptrW ≠ (s.rb 0).unread s.cfg.ptrW :=
  ⟨by decide, rfl, _, rfl, by decide +kernel⟩

theorem test_witness_AvailabilityIsTheSnapshot :
    Inv (on ready 1 0 []) ∧ 1 < small.nDom ∧ homeDomain small (.rbp (1 : BitVec 4).toNat) = some 0 ∧
    homeDomain small (.rbc (1 : BitVec 4).toNat) = some 1 ∧ (ready.rb 1).init = true ∧ (ready.rb 1).cinit = true ∧
    (ready.rb 1).pending = false :=
  ⟨on_inv ready_inv _ _ _, by decide, by decide, by decide, by decide, by decide, by decide⟩

/-- While an INIT is pending the registers themselves can be further apart than the new capacity. -/
theorem test_witness_SnapshotsSumAndAreConservative_pending :
    Legal small ∧ RingInv small 1 ringPending ∧ ringPending.pending = true ∧
    ringPending.cap < dist small.ptrW ringPending.rd ringPending.wr ∧
    dist small.ptrW ringPending.rdSinceInit ringPending.wr = 0 :=
  ⟨small_legal, ringPending_inv, rfl, by decide, by decide⟩

theorem test_witness_SnapshotsSumAndAreConservative :
    Legal small ∧ RingInv small 1 ringB ∧ ringB.pending = false ∧ ringB.rview ≠ ringB.rd ∧ ringB.wview ≠ ringB.wr :=
  ⟨small_legal, ringB_inv, rfl, by decide, by decide⟩

/-- Ring 1 filled right after its INIT. -/
def ringFull : Rb := ringPending.acknowledged.written 4 (sameDomain small 1) (fun _ => 0) 4

/-- A truly full ring and a truly empty one. -/
theorem test_witness_FullAndEmptyAreConservative :
    Legal small ∧ (RingInv small 1 ringFull ∧ ringFull.init = true ∧ dist 4 ringFull.rd ringFull.wr = ringFull.cap) ∧
    RingInv small 1 ringPending.acknowledged ∧ ringPending.acknowledged.init = true ∧
    dist 4 ringPending.acknowledged.rd ringPending.acknowledged.wr = 0 :=
  ⟨small_legal, ⟨(ringPending_inv.ack rfl).write small_legal rfl (by decide), by decide, by decide⟩,
    ringPending_inv.ack rfl, by decide, by decide⟩

/-- V9's row across the wrap, in 4 bits. -/
theorem test_witness_SyncDrawsReachEveryAllowedView :
    (14 : Nat) < 2 ^ 4 ∧ (1 : Nat) < 2 ^ 4 ∧ (0 : Nat) < 2 ^ 4 ∧ (14 : Nat) ≠ 1 ∧ syncTarget 4 14 1 1 = 0 := by
  decide +kernel

theorem test_witness_SyncTurnMovesOnlyTheView :
    1 < ready.cfg.nRb ∧ Sized (turns ready [.syncW2R 1 0]) ∧
    (turns ready [.syncW2R 1 0]).sched = [.syncW2R 1 0] ∧ (turns ready [.syncR2W 1 0]).sched = [.syncR2W 1 0] ∧
    producerDomain small 1 ≠ consumerDomain small 1 ∧ (ready.rb 1).pending = false ∧
    (ready.rb 1).wview ≠ (ready.rb 1).wr ∧ (ready.rb 1).rview ≠ (ready.rb 1).rd ∧
    ¬ (producerDomain small 0 ≠ consumerDomain small 0) :=
  ⟨by decide, ⟨rfl, rfl, rfl, rfl⟩, rfl, rfl, by decide, by decide, by decide, by decide, by decide⟩

/-- The step across the wrap. -/
theorem test_witness_GrayStepChangesOneBit :
    (0 : Nat) < 4 ∧ gray (15 : BitVec 4) ^^^ gray (15 + 1 : BitVec 4) = BitVec.twoPow 4 3 := by decide +kernel

/-- A crossing after the block reset, and one under way, with the longest command it can take. -/
theorem test_witness_CrossingRefinesViewRule :
    (Crossing.reset 4 2).inOrder ∧
    ({ cursor := 5, bpub := 4, before := 3, chain := [gray 3, gray 1] } : Crossing 4).inOrder ∧
    ({ cursor := 5, bpub := 4, before := 3, chain := [gray 3, gray 1] } : Crossing 4).ahead 5 + 11 < 2 ^ 4 := by
  unfold Crossing.inOrder; decide +kernel

/-- Both clauses of the register statements, where they meet. -/
theorem test_witness_ProducerStatusRegisters :
    Inv (on ready 0 0 []) ∧ Admitted (on ready 0 0 []) (.rbp (1 : BitVec 4).toNat) ∧ (5 : BitVec 24).toNat ≤ 5 ∧
    5 < (6 : BitVec 24).toNat := ⟨on_inv ready_inv _ _ _, ready_admits (by decide) (by decide), by decide, by decide⟩

theorem test_witness_ConsumerStatusRegisters :
    Inv (on ready 1 0 []) ∧ Admitted (on ready 1 0 []) (.rbc (1 : BitVec 4).toNat) ∧ (ready.rb 1).pending = false ∧
    (5 : BitVec 24).toNat ≤ 5 ∧ 5 < (6 : BitVec 24).toNat :=
  ⟨on_inv ready_inv _ _ _, ready_admits (by decide) (by decide), by decide, by decide, by decide⟩

theorem test_witness_SpectralStatusRegisters :
    Inv (on ready 0 0 []) ∧ Admitted (on ready 0 0 []) (.ola (0 : BitVec 4).toNat) ∧ (14 : BitVec 24).toNat ≤ 14 ∧
    14 < (15 : BitVec 24).toNat := ⟨on_inv ready_inv _ _ _, ready_admits (by decide) (by decide), by decide, by decide⟩

theorem test_witness_ResamplerConfigAndReset : Admitted (on ready 0 0 []) (.rs (0 : BitVec 4).toNat) :=
  ready_admits (by decide) (by decide)

theorem test_witness_ResamplerStatusRegisters :
    Admitted (on ready 0 0 []) (.rs (0 : BitVec 4).toNat) ∧ (1 : BitVec 24).toNat ≤ 1 ∧ 1 < (2 : BitVec 24).toNat :=
  ⟨ready_admits (by decide) (by decide), by decide, by decide⟩

/-- Four words: one triple and a dropped word. -/
theorem test_witness_DecimateDeliversMeansOfTriples :
    Admitted (on ready 0 0 [0, 0, 0, 0]) (.rs (0 : BitVec 4).toNat) ∧ (ready.rs 0).cfgd = true ∧
    (ready.rs 0).mode = .dec ∧ (on ready 0 0 [0, 0, 0, 0]).cur.offered.length = (4 : BitVec 24).toNat ∧
    0 < min ((4 : BitVec 24).toNat / 3) (9 : BitVec 24).toNat :=
  ⟨ready_admits (by decide) (by decide), by decide, by decide, by decide, by decide⟩

/-- The machine with its resampler interpolating. -/
def readyInt : State := ready.setRs 0 { Rs.reset with cfgd := true, mode := .int }

/-- Two words: outputs 0 and 3 to 5 are holds, 1 and 2 are on the ramp. -/
theorem test_witness_InterpolateRampsAndHolds :
    Admitted (on readyInt 0 0 [0, 0x3F800000]) (.rs (0 : BitVec 4).toNat) ∧ (readyInt.rs 0).cfgd = true ∧
    (readyInt.rs 0).mode = .int ∧ (on readyInt 0 0 [0, 0x3F800000]).cur.offered.length = (2 : BitVec 24).toNat ∧
    2 < min (3 * (2 : BitVec 24).toNat) (9 : BitVec 24).toNat ∧ 2 % 3 ≠ 0 ∧
    (on readyInt 0 0 [0, 0x3F800000]).cur.offered[2 / 3 + 1]? = some 0x3F800000 :=
  ⟨⟨⟨rfl, rfl, rfl, rfl⟩, by decide, by decide⟩, by decide, by decide, by decide, by decide, by decide, by decide⟩

/-- Two states that differ in the rings and in the command word. -/
theorem test_witness_RunIsStateless :
    let s₁ := on ready 0 0 [0, 0, 0]
    let s₂ := on waiting 0 1 [0, 0, 0]
    Admitted s₁ (.rs (0 : BitVec 4).toNat) ∧ Admitted s₂ (.rs (0 : BitVec 4).toNat) ∧
    (s₁.rs 0).cfgd = true ∧ (s₂.rs 0).cfgd = true ∧ (s₁.rs 0).mode = (s₂.rs 0).mode ∧
    s₁.cur.offered = s₂.cur.offered ∧ s₁.cur.offered.length = (3 : BitVec 24).toNat ∧
    (∃ t c, exec (.rsRun 0 3 1) s₁ = .next t ∧ Answers s₁ t c) ∧ ∃ t c, exec (.rsRun 0 3 1) s₂ = .next t ∧ Answers s₂ t c :=
  ⟨ready_admits (by decide) (by decide), ⟨⟨rfl, rfl, rfl, rfl⟩, by decide, by decide⟩, by decide, by decide, by decide,
    by decide, by decide, ⟨_, _, rfl, answers_respond rfl rfl (by decide)⟩,
    ⟨_, _, rfl, answers_respond rfl rfl (by decide)⟩⟩

/-- Half of the least unit ties to zero; just below the overflow threshold and at it. -/
theorem test_witness_RoundingIsToNearestEven :
    (0 : Nat) < 2 ∧ roundMag 1 2 = 0 ∧ roundMag 1 2 < infBits ∧ roundMag ((2 ^ 25 - 1) * 2 ^ 252 - 1) 1 = 0x7F7FFFFF ∧
    roundMag ((2 ^ 25 - 1) * 2 ^ 252) 1 = infBits := by decide +kernel

theorem test_witness_OnlyNaNResultsAreDrawn : isNaN 0x7FC00001 = true ∧ isNaN 0xFF800001 = true := by decide

theorem test_witness_SpectralResetClearsTheStream : Admitted (on ready 0 0 []) (.ola (0 : BitVec 4).toNat) :=
  ready_admits (by decide) (by decide)

/-- Five samples: two cycles and one sample left. -/
theorem test_witness_PushRunsItsHopCycles :
    let s := on ready 0 0 [0, 0, 0, 0, 0]
    Inv s ∧ Admitted s (.ola (0 : BitVec 4).toNat) ∧ (s.ola 0).rdy = true ∧
    s.cur.offered.length = (5 : BitVec 24).toNat ∧
    ¬ (1 ≤ (0 + 5) / small.olaHop ∧ small.olaRing < 0 + ((0 + 5) / small.olaHop - 1) * small.olaHop + small.olaN) :=
  ⟨on_inv ready_inv _ _ _, ready_admits (by decide) (by decide), by decide, by decide, by decide⟩

theorem test_witness_ShortPushOnlyStoresSamples :
    let s := on ready 0 0 [0]
    Admitted s (.ola (0 : BitVec 4).toNat) ∧ (s.ola 0).rdy = true ∧ s.cur.offered.length = (1 : BitVec 24).toNat ∧
    (s.ola 0).fill + (1 : BitVec 24).toNat < s.cfg.olaHop :=
  ⟨ready_admits (by decide) (by decide), by decide, by decide, by decide⟩

theorem test_witness_HopCycleOverlapAddsTheFrame :
    let s := on ready 0 0 [0x3F800000, 0x3F800000]
    Inv s ∧ Admitted s (.ola (0 : BitVec 4).toNat) ∧ (s.ola 0).rdy = true ∧
    s.cur.offered.length = (2 : BitVec 24).toNat ∧ (s.ola 0).fill + (2 : BitVec 24).toNat = s.cfg.olaHop ∧
    (s.ola 0).avail + s.cfg.olaN ≤ s.cfg.olaRing ∧ ∃ t, exec (.olaPush 0 2) s = .next t :=
  ⟨on_inv ready_inv _ _ _, ready_admits (by decide) (by decide), by decide, by decide, by decide, by decide, _, rfl⟩

/-- Five samples in parts of three and two, each part with a cycle and a sample left; and the longest block that is
accepted, beside the shortest that is refused because it runs one cycle too many for the ring. -/
theorem test_witness_PushingInPartsIsPushingAtOnce :
    let s := on ready 0 0 []
    Inv s ∧ Admitted s (.ola (0 : BitVec 4).toNat) ∧ (s.ola 0).rdy = true ∧
    [(0 : Word), 0, 0].length = (3 : BitVec 24).toNat ∧ [(0 : Word), 0].length = (2 : BitVec 24).toNat ∧
    (5 : BitVec 24).toNat = (3 : BitVec 24).toNat + (2 : BitVec 24).toNat ∧
    ((s.ola 0).overruns s.cfg 11 = false ∧ (s.ola 0).overruns s.cfg 12 = true) :=
  ⟨on_inv ready_inv _ _ _, ready_admits (by decide) (by decide), by decide, by decide, by decide, by decide,
    by decide +kernel⟩

/-- The small machine with one hop to pop. -/
def popping : State := ready.setOla 0 (pushAll small (Ola.reset.streaming small) 0 [0, 0]).1

theorem popping_inv : Inv popping := by
  refine ready_inv.setOla fun _ => ?_
  exact ((SpectralInv.reset small_legal).stream small_legal).push small_legal rfl (by decide)

theorem test_witness_PopDeliversNormalisedSamples :
    let s := on popping 0 0 []
    Inv s ∧ Admitted s (.ola (0 : BitVec 4).toNat) ∧ (s.ola 0).rdy = true ∧ min (3 : BitVec 24).toNat (s.ola 0).avail = 2 :=
  ⟨on_inv popping_inv _ _ _, ⟨⟨rfl, rfl, rfl, rfl⟩, by decide, by decide⟩, by decide +kernel, by decide +kernel⟩

theorem test_witness_TransformOfSilenceIsZero :
    (small.xform = .given ∨ small.xform = .ideal) ∧ (∀ x ∈ [(0 : Word), 0], x = 0) ∧
    Legal small ∧ (List.replicate 8 (0 : Word)).length = small.olaN :=
  ⟨.inr rfl, by simp, small_legal, rfl⟩

/-- The two-point transform: TW is 1 in both directions. -/
theorem test_witness_ReferenceTransformOfSilenceIsZero :
    (∀ w ∈ [((0x3F800000 : Word), (0 : Word))] ++ [((0x3F800000 : Word), (0 : Word))],
      isFinite w.1 = true ∧ isFinite w.2 = true) ∧ (∀ x ∈ [(0 : Word), 0], x = 0) :=
  ⟨by simp; decide, by simp⟩

theorem test_witness_BlockResetResetsEveryUnit : (turns ready [.blockReset, .host 0]).sched = [.blockReset, .host 0] := rfl

theorem test_witness_ResetMeetsInvariant : Legal small := small_legal

theorem test_witness_StepKeepsInvariant : Inv (turns waiting [.initAck 1]) ∧ ∃ t, step (turns waiting [.initAck 1]) = .next t :=
  ⟨turns_inv waiting_inv _, _, rfl⟩

theorem test_witness_OneInitPendingPerDomain :
    Inv (turns waiting [.host 0]) ∧ OnePending (turns waiting [.host 0]) ∧
    ∃ t, step (turns waiting [.host 0]) = .next t :=
  ⟨turns_inv waiting_inv _, by unfold OnePending; decide, _, rfl⟩

theorem test_witness_NothingStops : SchedOk (turns ready [.host 1, .syncW2R 1 0, .blockReset]) := by
  unfold SchedOk; decide

/-- A wrong-domain read sets ferr[0]. -/
theorem test_witness_ErrorBitsAndFaultsAreSticky :
    let s := issuingBad 0x2018000000000000
    (∃ t, step s = .next t) ∧ s.sched.head? ≠ some .blockReset ∧ (issue ready 0 0x2018000000000000 []).faults ≠ [] ∧
    ((issue ready 0 0x2018000000000000 []).fab 0).ferr = 1 :=
  ⟨⟨_, rfl⟩, by decide, by decide +kernel, by decide +kernel⟩

/-- HOST[1]'s turn, in a domain that owns neither units nor a producer. -/
theorem test_witness_EachDomainChangesOnlyItsOwn :
    let s := turns ready [.host 1]
    s.sched = [.host 1] ∧ (∃ t, step s = .next t) ∧ (1 : Nat) ≠ 0 ∧ 1 ≠ producerDomain s.cfg 1 ∧ 1 ≠ consumerDomain s.cfg 0 :=
  ⟨rfl, ⟨_, rfl⟩, by decide, by decide, by decide⟩

theorem test_witness_FairRunsReachTheirEnd : Inv waiting ∧ waiting.sched = [] := ⟨waiting_inv, rfl⟩

/-- A host that polls goes only once every view is exact. -/
theorem test_witness_FairRunsReachTheirEnd_poll :
    let poll : Request := { word := 0x2210000000000000, offered := [] }
    Inv (queued settled 1 [poll]) ∧ (queued settled 1 [poll]).fairEvent = some (.host 1) ∧
    ∀ d, (queued ready 1 [poll]).fairEvent ≠ some (.host d) := by
  refine ⟨(ready_inv.setRb fun _ => ringSettled_inv).congr rfl rfl rfl rfl rfl fun d => ?_, by decide +kernel, fun d => ?_⟩
  · match d with
    | 0 => rfl
    | 1 => rfl
    | d + 2 => rfl
  · have h : (queued ready 1 [{ word := 0x2210000000000000, offered := [] }]).fairEvent =
      some (.syncW2R 1 (Config.syncDraw 0)) := rfl
    rw [h]; simp

theorem test_witness_PullZeroFillsAndCounts :
    (1 : Nat) ≤ 3 ∧ [(0x3F800000 : Word), 0x40000000].length =
      1 * ({ Engine.Duplex.stopped 0 .passthrough with channels := 2 } : Engine.Duplex).channels := by decide

end Sys2Proof.Tests
end

section
/-! SUPPORT. What every turn keeps: the parameters, the schedule, and the machine's invariant. -/

namespace Sys2Proof.Machine

/-! ### The agents beside the hosts: with a move, and without one -/

theorem State.initAck_of_pending {s : State} {i : Nat} (h : (s.rb i).pending = true) :
    s.initAck i = (s.setRb i (s.rb i).acknowledged).complete (producerDomain s.cfg i)
      { st := .ok, val := countVal (s.rb i).cap, taken := 0, out := [] } := if_pos h

theorem State.initAck_of_not_pending {s : State} {i : Nat} (h : (s.rb i).pending = false) : s.initAck i = s := by
  simp [State.initAck, h]

theorem State.syncW2R_of_enabled {s : State} {i draw : Nat} (h : s.w2rEnabled i = true) :
    s.syncW2R i draw =
      s.setRb i { s.rb i with wview := syncTarget s.cfg.ptrW (s.rb i).wview (s.rb i).wr draw } := if_pos h

theorem State.syncW2R_of_disabled {s : State} {i draw : Nat} (h : s.w2rEnabled i = false) : s.syncW2R i draw = s := by
  simp [State.syncW2R, h]

theorem State.syncR2W_of_enabled {s : State} {i draw : Nat} (h : s.r2wEnabled i = true) :
    s.syncR2W i draw =
      s.setRb i { s.rb i with rview := syncTarget s.cfg.ptrW (s.rb i).rview (s.rb i).rd draw } := if_pos h

theorem State.syncR2W_of_disabled {s : State} {i draw : Nat} (h : s.r2wEnabled i = false) : s.syncR2W i draw = s := by
  simp [State.syncR2W, h]

theorem State.w2rEnabled_iff (s : State) (i : Nat) : s.w2rEnabled i = true ↔
    sameDomain s.cfg i = false ∧ (s.rb i).pending = false ∧ (s.rb i).wview ≠ (s.rb i).wr := by
  simp [State.w2rEnabled, and_assoc]

theorem State.r2wEnabled_iff (s : State) (i : Nat) : s.r2wEnabled i = true ↔
    sameDomain s.cfg i = false ∧ (s.rb i).pending = false ∧ (s.rb i).rview ≠ (s.rb i).rd := by
  simp [State.r2wEnabled, and_assoc]

/-! ### The parameters and the schedule -/

/-- No command touches the parameters or the schedule. -/
theorem Effect.keeps {s t : State} (h : Effect s t) : t.cfg = s.cfg ∧ t.sched = s.sched := by
  cases h with
  | raised e p charge home =>
    obtain ⟨hcfg, -, hsched, -⟩ := s.raise_keeps e p
    exact ⟨hcfg, hsched⟩
  | answered | initSame | initCross | wrote | readOut | configured | streamReset | pushed | popped => exact ⟨rfl, rfl⟩

/-- No agent touches the parameters or the schedule. -/
theorem Turn.keeps {s t : State} {e : Event} (h : Turn s e t) : t.cfg = s.cfg ∧ t.sched = s.sched := by
  cases h with
  | idle | blockReset => exact ⟨rfl, rfl⟩
  | issued d r t next dom effect => exact effect.keeps
  | initAck i ring => cases hp : (s.rb i).pending with
    | true => rw [State.initAck_of_pending hp]; exact ⟨rfl, rfl⟩
    | false => rw [State.initAck_of_not_pending hp]; exact ⟨rfl, rfl⟩
  | syncW2R i draw ring => cases he : s.w2rEnabled i with
    | true => rw [State.syncW2R_of_enabled he]; exact ⟨rfl, rfl⟩
    | false => rw [State.syncW2R_of_disabled he]; exact ⟨rfl, rfl⟩
  | syncR2W i draw ring => cases he : s.r2wEnabled i with
    | true => rw [State.syncR2W_of_enabled he]; exact ⟨rfl, rfl⟩
    | false => rw [State.syncR2W_of_disabled he]; exact ⟨rfl, rfl⟩

/-! ### The invariant -/

theorem Inv.respond {s : State} (h : Inv s) (st : Status) (v : Word64) (n : Nat) (out : List Word) :
    Inv (s.respond st v n out) :=
  h.congr rfl rfl rfl rfl (by simp) fun d => by simp

theorem Inv.setDraws {s : State} (h : Inv s) (n : Nat) : Inv { s with draws := n } :=
  h.congr rfl rfl rfl rfl rfl fun _ => rfl

/-- ILLEGAL is bit 0, the one bit an `ferr` may hold (R42). -/
theorem ferr_or_illegal {e : BitVec 32} (h : e &&& 0xFFFFFFFE = 0) : (e ||| errBit .illegal) &&& 0xFFFFFFFE = 0 := by
  rw [BitVec.and_comm] at h ⊢
  rw [BitVec.and_or_distrib_left, h]
  rfl

/-- The port of a home domain is one of the machine's, so its unit has the invariant. -/
theorem Inv.setErr_port {s : State} (h : Inv s) (e : ErrKind) {p : Port} {d : Nat} (home : homeDomain s.cfg p = some d) :
    Inv (s.setErr e (some p)) := by
  cases p with
  | rbp i => exact h.setRb fun hi =>
      { h.rings i hi with errors := ⟨errClean_or e (h.rings i hi).errors.1, (h.rings i hi).errors.2⟩ }
  | rbc i => exact h.setRb fun hi =>
      { h.rings i hi with errors := ⟨(h.rings i hi).errors.1, errClean_or e (h.rings i hi).errors.2⟩ }
  | rs j => exact h.setRs fun hj => errClean_or e (h.resamplers j hj)
  | ola k => exact h.setOla fun hk => { h.spectral k hk with errors := errClean_or e (h.spectral k hk).errors }

/-- Raising a condition keeps the invariant where the condition may be charged: to a port of the machine, or ILLEGAL to
`ferr`. -/
theorem Inv.raise {s : State} (h : Inv s) {e : ErrKind} {p : Option Port} (charge : p = none → e = .illegal)
    (home : ∀ q, p = some q → homeDomain s.cfg q = some s.cur.dom) : Inv (s.raise e p) := by
  have herr : Inv (s.setErr e p) := by
    cases p with
    | none =>
      obtain rfl := charge rfl
      exact h.setFab fun hd => ferr_or_illegal (h.fabrics _ hd)
    | some q => exact h.setErr_port e (home q rfl)
  have hrec : Inv ((s.setErr e p).record e p) := herr.congr rfl rfl rfl rfl rfl fun _ => rfl
  exact hrec.respond _ _ _ _

/-- Every command keeps the machine's invariant. -/
theorem Effect.keeps_inv {s t : State} (h : Inv s) (he : Effect s t) : Inv t := by
  cases he with
  | raised e p charge home => exact h.raise charge home
  | answered st v k out => exact h.respond _ _ _ _
  | initSame i a b home same ok =>
    exact (h.setRb fun hi => same ▸ (h.rings i hi).init ok).respond _ _ _ _
  | initCross i a b home cross ok => exact h.setRb fun hi => cross ▸ (h.rings i hi).init ok
  | wrote i a k home init len room =>
    exact (h.setRb fun hi => (h.rings i hi).write h.legal init (by omega)).respond _ _ _ _
  | readOut i a k home idle init room =>
    exact (h.setRb fun hi => (h.rings i hi).read h.legal idle init (by omega)).respond _ _ _ _
  | configured j m home =>
    exact Inv.respond (h.setRs (r := { s.rs j with mode := m, cfgd := true }) (h.resamplers j)) _ _ _ _
  | streamReset k home => exact (h.setOla fun hk => (h.spectral k hk).stream h.legal).respond _ _ _ _
  | pushed k a home rdy len room =>
    exact Inv.respond ((h.setOla fun hk => (h.spectral k hk).push h.legal rdy (len ▸ room)).setDraws _) _ _ _ _
  | popped k a m home rdy avail =>
    exact Inv.respond ((h.setOla fun hk => (h.spectral k hk).pop h.legal rdy (by omega)).setDraws _) _ _ _ _

theorem Inv.takeRequest {s : State} (h : Inv s) (d : Nat) (r : Request) : Inv (s.takeRequest d r) := by
  have hset : Inv (s.setFab d { s.fab d with queue := (s.fab d).queue.tail }) := h.setFab fun hd => h.fabrics d hd
  exact hset.congr rfl rfl rfl rfl rfl fun _ => rfl

theorem Inv.initAck {s : State} (h : Inv s) (i : Nat) : Inv (s.initAck i) := by
  cases hp : (s.rb i).pending with
  | true =>
    rw [State.initAck_of_pending hp]
    have hset : Inv (s.setRb i (s.rb i).acknowledged) := h.setRb fun hi => (h.rings i hi).ack hp
    exact hset.congr rfl rfl rfl rfl (by simp) fun d => by simp
  | false => rwa [State.initAck_of_not_pending hp]

theorem Inv.syncW2R {s : State} (h : Inv s) (i draw : Nat) : Inv (s.syncW2R i draw) := by
  cases he : s.w2rEnabled i with
  | true =>
    rw [State.syncW2R_of_enabled he]
    obtain ⟨hcross, hidle, hne⟩ := (s.w2rEnabled_iff i).1 he
    exact h.setRb fun hi => (h.rings i hi).w2r h.legal hcross hidle hne
  | false => rwa [State.syncW2R_of_disabled he]

theorem Inv.syncR2W {s : State} (h : Inv s) (i draw : Nat) : Inv (s.syncR2W i draw) := by
  cases he : s.r2wEnabled i with
  | true =>
    rw [State.syncR2W_of_enabled he]
    obtain ⟨hcross, hidle, hne⟩ := (s.r2wEnabled_iff i).1 he
    exact h.setRb fun hi => (h.rings i hi).r2w h.legal hcross hidle hne
  | false => rwa [State.syncR2W_of_disabled he]

@[simp] theorem State.cfg_blockReset (s : State) : s.blockReset.cfg = s.cfg := rfl

@[simp] theorem State.rb_blockReset (s : State) (i : Nat) : s.blockReset.rb i = Rb.reset :=
  List.getElem?_getD_replicate_default_eq _ _ _

@[simp] theorem State.rs_blockReset (s : State) (j : Nat) : s.blockReset.rs j = Rs.reset :=
  List.getElem?_getD_replicate_default_eq _ _ _

@[simp] theorem State.ola_blockReset (s : State) (k : Nat) : s.blockReset.ola k = Ola.reset :=
  List.getElem?_getD_replicate_default_eq _ _ _

@[simp] theorem State.ferr_blockReset (s : State) (d : Nat) : (s.blockReset.fab d).ferr = 0 := by
  cases h : s.fabs[d]? <;> simp [State.blockReset, State.fab, Fabric.reset, h]

theorem Inv.blockReset {s : State} (h : Inv s) : Inv s.blockReset where
  legal := h.legal
  sized := ⟨by simp [State.blockReset, State.resetOf, h.sized.fabs], List.length_replicate, List.length_replicate,
    List.length_replicate⟩
  rings i _ := by rw [State.rb_blockReset]; exact .reset i
  resamplers j _ := by rw [State.rs_blockReset]; rfl
  spectral k _ := by rw [State.ola_blockReset]; exact .reset h.legal
  fabrics d _ := by rw [State.ferr_blockReset]; rfl

/-- Every agent's turn keeps the machine's invariant. -/
theorem Turn.keeps_inv {s t : State} {e : Event} (h : Inv s) (ht : Turn s e t) : Inv t := by
  cases ht with
  | idle => exact h
  | issued d r t next dom effect => exact effect.keeps_inv (h.takeRequest d r)
  | initAck i ring => exact h.initAck i
  | syncW2R i draw ring => exact h.syncW2R i draw
  | syncR2W i draw ring => exact h.syncR2W i draw
  | blockReset => exact h.blockReset

end Sys2Proof.Machine
end

section
/-! SUPPORT. Nothing stops: the turn of an agent that exists has a next state (R24, R25, R400). -/

namespace Sys2Proof.Machine

/-- Which agents there are depends on the parameters alone. -/
theorem State.agentExists_congr {s t : State} (h : t.cfg = s.cfg) (e : Event) : t.agentExists e = s.agentExists e := by
  cases e <;> simp [State.agentExists, h]

/-- An agent that exists takes its turn. -/
theorem runEvent_next {s : State} {e : Event} (he : s.agentExists e = true) : ∃ t, runEvent e s = .next t := by
  unfold runEvent
  rw [if_pos he]
  cases e with
  | host d => cases hr : s.nextRequest d with
    | none => exact ⟨s, by simp only [hostTurn, hr]⟩
    | some r =>
      obtain ⟨t, ht, -⟩ := runCommand_effect (s.takeRequest d r)
      exact ⟨t, by simp only [hostTurn, hr, ht]⟩
  | initAck | syncW2R | syncR2W | blockReset => exact ⟨_, rfl⟩

/-- Every agent in the list the fair choice goes through exists. -/
theorem State.agentExists_of_mem_agents {s : State} {draw : Nat} {e : Event} (h : e ∈ s.agents draw) :
    s.agentExists e = true := by
  simp only [State.agents, List.mem_append, List.mem_map, List.mem_range] at h
  rcases h with ((⟨i, hi, rfl⟩ | ⟨i, hi, rfl⟩) | ⟨i, hi, rfl⟩) | ⟨d, hd, rfl⟩ <;> simpa [State.agentExists]

theorem State.agentExists_of_fairEvent {s : State} {e : Event} (h : s.fairEvent = some e) : s.agentExists e = true :=
  State.agentExists_of_mem_agents (List.mem_of_find?_eq_some h)

theorem step_next {s : State} (h : SchedOk s) : ∃ t, step s = .next t := by
  unfold step
  split
  · next e rest hs =>
    have he : s.agentExists e = true := h e (by simp [hs])
    exact runEvent_next (s := { s with sched := rest }) ((State.agentExists_congr rfl e).trans he)
  · split
    · next e he =>
      have he' : s.agentExists e = true := State.agentExists_of_fairEvent he
      exact runEvent_next (s := { s with draws := s.draws + 1 }) ((State.agentExists_congr rfl e).trans he')
    · exact ⟨s, rfl⟩

/-- A step keeps the parameters and takes at most the head off the schedule. -/
theorem step_sched {s t : State} (h : step s = .next t) : t.cfg = s.cfg ∧ t.sched = s.sched.tail := by
  rcases step_turn h with ⟨e, rest, hs, ht⟩ | ⟨hs, e, -, ht⟩ | ⟨hs, -, rfl⟩
  · obtain ⟨hcfg, hsched⟩ := ht.keeps
    exact ⟨hcfg, by rw [hsched, hs]; rfl⟩
  · obtain ⟨hcfg, hsched⟩ := ht.keeps
    exact ⟨hcfg, by rw [hsched]; simp [hs]⟩
  · exact ⟨rfl, by rw [hs]; rfl⟩

theorem SchedOk.step {s t : State} (hs : SchedOk s) (h : step s = .next t) : SchedOk t := by
  obtain ⟨hcfg, hsched⟩ := step_sched h
  intro e he
  rw [State.agentExists_congr hcfg]
  exact hs e (List.mem_of_mem_tail (hsched ▸ he))

/-- Settles O56: every command has an effect, and the turn of every agent that exists has a next state. -/
theorem nothingStops : Obligations.NothingStops := by
  refine ⟨fun i s => ?_, fun s hs => ?_⟩
  · obtain ⟨t, ht, -⟩ := exec_effect i s
    exact ⟨t, ht⟩
  · obtain ⟨t, ht⟩ := step_next hs
    exact ⟨t, ht, hs.step ht⟩

end Sys2Proof.Machine
end

section
/-! SUPPORT. Runs under the fair choice (R27, log entry 2): every move makes the work left smaller, and where none is left
the run is at its end. -/

namespace Sys2Proof.Machine

/-! ### The order of the fair choice -/

/-- The agents of the rings: all but the hosts, which come after them. -/
def State.ringAgents (s : State) (draw : Nat) : List Event :=
  (List.range s.cfg.nRb).map .initAck ++ (List.range s.cfg.nRb).map (.syncW2R · draw) ++
    (List.range s.cfg.nRb).map (.syncR2W · draw)

theorem State.agents_eq (s : State) (draw : Nat) :
    s.agents draw = s.ringAgents draw ++ (List.range s.cfg.nDom).map .host := rfl

theorem State.mem_ringAgents {s : State} {draw : Nat} {e : Event} : e ∈ s.ringAgents draw ↔
    ∃ i < s.cfg.nRb, e = .initAck i ∨ e = .syncW2R i draw ∨ e = .syncR2W i draw := by
  simp only [State.ringAgents, List.mem_append, List.mem_map, List.mem_range]
  grind

/-- Where no agent of a ring has a move, every ring is at rest; a same-domain ring has its views at the cursors anyway. -/
theorem quiescent_of_no_ringAgent {s : State} {draw : Nat} (h : Inv s)
    (hno : ∀ e ∈ s.ringAgents draw, s.enabled e = false) : Quiescent s := by
  intro i hi
  have hidle : (s.rb i).pending = false := hno (.initAck i) (State.mem_ringAgents.2 ⟨i, hi, .inl rfl⟩)
  have hw2r : s.w2rEnabled i = false := hno (.syncW2R i draw) (State.mem_ringAgents.2 ⟨i, hi, .inr (.inl rfl)⟩)
  have hr2w : s.r2wEnabled i = false := hno (.syncR2W i draw) (State.mem_ringAgents.2 ⟨i, hi, .inr (.inr rfl)⟩)
  refine ⟨hidle, ?_⟩
  cases hs : sameDomain s.cfg i with
  | true => exact (h.rings i hi).exact hs
  | false => exact ⟨by simpa [State.w2rEnabled, hs, hidle] using hw2r, by simpa [State.r2wEnabled, hs, hidle] using hr2w⟩

/-- A host goes only where no agent of a ring has a move. -/
theorem quiescent_of_fairEvent_host {s : State} {d : Nat} (h : Inv s) (hd : s.fairEvent = some (.host d)) :
    Quiescent s := by
  rw [State.fairEvent, State.agents_eq, List.find?_append] at hd
  cases hf : (s.ringAgents (Config.syncDraw s.draws)).find? s.enabled with
  | none => exact quiescent_of_no_ringAgent h fun e he => by simpa using List.find?_eq_none.1 hf e he
  | some e =>
    obtain ⟨i, -, he⟩ := State.mem_ringAgents.1 (List.mem_of_find?_eq_some hf)
    rw [hf] at hd
    rcases he with rfl | rfl | rfl <;> cases hd

/-- At rest no host is held. -/
theorem Quiescent.not_held {s : State} (h : Quiescent s) (d : Nat) : s.held d = false := by
  simp only [State.held, List.any_eq_false, List.mem_range]
  intro i hi
  simp [(h i hi).1]

/-- Where no agent has a move, the run is at its end (R432). -/
theorem atEnd_of_no_fairEvent {s : State} (h : Inv s) (hs : s.sched = []) (hno : s.fairEvent = none) : AtEnd s := by
  have hoff : ∀ e ∈ s.agents (Config.syncDraw s.draws), s.enabled e = false := fun e he => by
    simpa using List.find?_eq_none.1 hno e he
  have hq : Quiescent s := quiescent_of_no_ringAgent h fun e he => hoff e (by
    rw [State.agents_eq]; exact List.mem_append_left _ he)
  refine ⟨hs, fun d hd => ?_, hq⟩
  have hhost : s.enabled (.host d) = false := hoff _ (by
    rw [State.agents_eq]; exact List.mem_append_right _ (List.mem_map.2 ⟨d, List.mem_range.2 hd, rfl⟩))
  simpa [State.enabled, State.nextRequest, hq.not_held d] using hhost

/-! ### The work left -/

/-- The commands still to be issued. -/
def State.queued (s : State) : Nat := ∑ d ∈ Finset.range s.cfg.nDom, (s.fab d).queue.length

/-- A quantity of the rings, over all rings. -/
def State.ringSum (f : Rb → Nat) (s : State) : Nat := ∑ i ∈ Finset.range s.cfg.nRb, f (s.rb i)

/-- 1 where an RB.INIT is pending. -/
def Rb.toAck (rb : Rb) : Nat := if rb.pending then 1 else 0

/-- How far the two views lag behind their cursors. -/
def Rb.lag (w : Nat) (rb : Rb) : Nat := dist w rb.wview rb.wr + dist w rb.rview rb.rd

/-- The work left, the weightiest first: a command may start an INIT and move cursors, an acknowledge moves cursors, and a
SYNC move makes a lag smaller. -/
def State.workLeft (s : State) : Nat ×ₗ Nat ×ₗ Nat :=
  toLex (s.queued, toLex (s.ringSum Rb.toAck, s.ringSum (Rb.lag s.cfg.ptrW)))

theorem State.workLeft_lt_iff {s t : State} : t.workLeft < s.workLeft ↔
    t.queued < s.queued ∨ t.queued = s.queued ∧
      (t.ringSum Rb.toAck < s.ringSum Rb.toAck ∨ t.ringSum Rb.toAck = s.ringSum Rb.toAck ∧
        t.ringSum (Rb.lag t.cfg.ptrW) < s.ringSum (Rb.lag s.cfg.ptrW)) := by
  simp [State.workLeft, Prod.Lex.toLex_lt_toLex]

theorem State.queued_congr {s t : State} (hc : t.cfg = s.cfg) (hq : ∀ d, (t.fab d).queue = (s.fab d).queue) :
    t.queued = s.queued := by
  simp [State.queued, hc, hq]

theorem State.ringSum_setRb_lt {s : State} (f : Rb → Nat) {i : Nat} {r : Rb} (hz : Sized s) (hi : i < s.cfg.nRb)
    (hf : f r < f (s.rb i)) : (s.setRb i r).ringSum f < s.ringSum f := by
  have hself : (s.setRb i r).rb i = r := State.rb_setRb_self s r (by rw [hz.rbs]; exact hi)
  refine Finset.sum_lt_sum (fun j _ => ?_) ⟨i, Finset.mem_range.2 hi, by rw [hself]; exact hf⟩
  by_cases hj : j = i
  · rw [hj, hself]; exact hf.le
  · rw [State.rb_setRb_ne s r hj]

theorem State.ringSum_setRb_eq {s : State} (f : Rb → Nat) {i : Nat} {r : Rb} (hz : Sized s)
    (hf : f r = f (s.rb i)) : (s.setRb i r).ringSum f = s.ringSum f := by
  refine Finset.sum_congr rfl fun j hj => ?_
  by_cases h : j = i
  · subst h
    rw [State.rb_setRb_self s r (by rw [hz.rbs]; exact Finset.mem_range.1 hj), hf]
  · rw [State.rb_setRb_ne s r h]

/-! ### Every move makes the work left smaller -/

/-- Replacing a fabric by one with the same queue keeps every queue. -/
theorem State.queue_setFab {s : State} {d : Nat} {f : Fabric} (hf : f.queue = (s.fab d).queue) (n : Nat) :
    ((s.setFab d f).fab n).queue = (s.fab n).queue := by
  simp only [State.fab, State.setFab, getD_set]
  split
  · next h => rw [hf, State.fab, h.1]
  · rfl

theorem State.queue_setErr (s : State) (e : ErrKind) (p : Option Port) (n : Nat) :
    ((s.setErr e p).fab n).queue = (s.fab n).queue := by
  match p with
  | none => exact State.queue_setFab (by rfl) n
  | some (.rbp _) | some (.rbc _) | some (.rs _) | some (.ola _) => rfl

/-- No command issues another. -/
theorem Effect.keeps_queue {s t : State} (h : Effect s t) (d : Nat) : (t.fab d).queue = (s.fab d).queue := by
  cases h with
  | raised e p charge home => rw [State.raise, State.queue_respond, State.fab_record, State.queue_setErr]
  | initCross => rfl
  | answered => rw [State.queue_respond]
  | initSame | wrote | readOut | configured | streamReset | pushed | popped =>
    rw [State.queue_respond]; rfl

theorem State.queued_takeRequest {s : State} {d : Nat} {r : Request} (hz : Sized s) (hd : d < s.cfg.nDom)
    (hr : s.nextRequest d = some r) : (s.takeRequest d r).queued < s.queued := by
  have hlen : d < s.fabs.length := hz.fabs ▸ hd
  have hself : ((s.takeRequest d r).fab d).queue = (s.fab d).queue.tail :=
    congrArg Fabric.queue (State.fab_setFab_self s _ hlen)
  have hne : (s.fab d).queue ≠ [] := by
    intro hnil
    simp [State.nextRequest, hnil] at hr
  have hlt : ((s.takeRequest d r).fab d).queue.length < (s.fab d).queue.length := by
    rw [hself, List.length_tail]
    have := List.length_pos_iff.2 hne
    omega
  refine Finset.sum_lt_sum (fun n _ => ?_) ⟨d, Finset.mem_range.2 hd, hlt⟩
  by_cases hn : n = d
  · rw [hn]; exact hlt.le
  · exact (congrArg (·.queue.length) (State.fab_setFab_ne s _ hn)).le

theorem State.workLeft_initAck {s : State} {i : Nat} (h : Inv s) (hi : i < s.cfg.nRb)
    (hp : (s.rb i).pending = true) : (s.initAck i).workLeft < s.workLeft := by
  rw [State.initAck_of_pending hp]
  refine State.workLeft_lt_iff.2 (.inr ⟨State.queued_congr rfl fun d => by simp, .inl ?_⟩)
  exact State.ringSum_setRb_lt Rb.toAck h.sized hi (by simp [Rb.toAck, hp, Rb.acknowledged])

/-- A SYNC move brings its view closer to the cursor (R124). -/
theorem dist_syncTarget_lt {w view cursor draw : Nat} (hv : view < 2 ^ w) (hc : cursor < 2 ^ w) (hne : view ≠ cursor) :
    dist w (syncTarget w view cursor draw) cursor < dist w view cursor := by
  obtain ⟨-, hpos, hadd⟩ := syncTarget_spec (draw := draw) hv hc hne
  omega

/-- Replacing a ring by one with the same pending bit and less lag. -/
theorem State.workLeft_setRb {s : State} {i : Nat} {r : Rb} (h : Inv s) (hi : i < s.cfg.nRb)
    (hp : r.pending = (s.rb i).pending) (hlag : r.lag s.cfg.ptrW < (s.rb i).lag s.cfg.ptrW) :
    (s.setRb i r).workLeft < s.workLeft :=
  State.workLeft_lt_iff.2 (.inr ⟨State.queued_congr rfl fun _ => rfl,
    .inr ⟨State.ringSum_setRb_eq Rb.toAck h.sized (by simp [Rb.toAck, hp]),
      State.ringSum_setRb_lt (Rb.lag s.cfg.ptrW) h.sized hi hlag⟩⟩)

theorem State.workLeft_syncW2R {s : State} {i draw : Nat} (h : Inv s) (hi : i < s.cfg.nRb)
    (he : s.w2rEnabled i = true) : (s.syncW2R i draw).workLeft < s.workLeft := by
  rw [State.syncW2R_of_enabled he]
  obtain ⟨hwr, -, -, hwview⟩ := (h.rings i hi).widths
  have hlt := dist_syncTarget_lt (draw := draw) hwview hwr ((s.w2rEnabled_iff i).1 he).2.2
  exact State.workLeft_setRb h hi rfl (by simp only [Rb.lag]; omega)

theorem State.workLeft_syncR2W {s : State} {i draw : Nat} (h : Inv s) (hi : i < s.cfg.nRb)
    (he : s.r2wEnabled i = true) : (s.syncR2W i draw).workLeft < s.workLeft := by
  rw [State.syncR2W_of_enabled he]
  obtain ⟨-, hrview, hrd, -⟩ := (h.rings i hi).widths
  have hlt := dist_syncTarget_lt (draw := draw) hrview hrd ((s.r2wEnabled_iff i).1 he).2.2
  exact State.workLeft_setRb h hi rfl (by simp only [Rb.lag]; omega)

/-- The turn of an agent that has a move. -/
theorem Turn.workLeft_lt {s t : State} {e : Event} (h : Inv s) (he : s.enabled e = true) (ht : Turn s e t) :
    t.workLeft < s.workLeft := by
  cases ht with
  | idle d hnone => simp [State.enabled, hnone] at he
  | issued d r t next dom effect =>
    have hq : t.queued = (s.takeRequest d r).queued := State.queued_congr effect.keeps.1 effect.keeps_queue
    exact State.workLeft_lt_iff.2 (.inl (hq ▸ State.queued_takeRequest h.sized dom next))
  | initAck i ring => exact State.workLeft_initAck h ring he
  | syncW2R i draw ring => exact State.workLeft_syncW2R h ring he
  | syncR2W i draw ring => exact State.workLeft_syncR2W h ring he
  | blockReset => cases he

/-! ### Runs -/

/-- A move of the fair choice: the invariant and the empty schedule stay, and the work left gets smaller. -/
theorem step_fair {s : State} {e : Event} (h : Inv s) (hs : s.sched = []) (he : s.fairEvent = some e) :
    ∃ t, step s = .next t ∧ Inv t ∧ t.sched = [] ∧ t.workLeft < s.workLeft := by
  obtain ⟨t, ht⟩ := step_next (s := s) (by simp [SchedOk, hs])
  refine ⟨t, ht, ?_⟩
  rcases step_turn ht with ⟨e', rest, hs', -⟩ | ⟨-, e', he', hturn⟩ | ⟨-, hnone, -⟩
  · rw [hs] at hs'; cases hs'
  · obtain rfl : e = e' := Option.some.inj (he.symm.trans he')
    have hdraws : Inv { s with draws := s.draws + 1 } := h.setDraws _
    have hen : s.enabled e = true := List.find?_some he
    have hen' : State.enabled { s with draws := s.draws + 1 } e = true := by cases e <;> exact hen
    have hlt : t.workLeft < State.workLeft { s with draws := s.draws + 1 } := hturn.workLeft_lt hdraws hen'
    exact ⟨hturn.keeps_inv hdraws, hturn.keeps.2.trans hs, hlt⟩
  · rw [he] at hnone; cases hnone

/-- With an empty schedule the machine is idle where no agent has a move (R441). -/
theorem step_idle {s : State} (hs : s.sched = []) (hno : s.fairEvent = none) : step s = .next s := by
  simp [step, hs, hno]

theorem Core_run_succ {s t : State} (h : step s = .next t) (k : Nat) :
    Host.Core.run Sys2Proof.core (k + 1) s = Host.Core.run Sys2Proof.core k t := by
  simp [Host.Core.run, Sys2Proof.core, h]

/-- By induction on the work left. -/
theorem fair_run_reaches_end (s : State) (h : Inv s) (hs : s.sched = []) :
    ∃ k t, Host.Core.run Sys2Proof.core k s = .next t ∧ AtEnd t ∧ step t = .next t := by
  cases he : s.fairEvent with
  | none => exact ⟨0, s, rfl, atEnd_of_no_fairEvent h hs he, step_idle hs he⟩
  | some e =>
    obtain ⟨s', hstep, hinv, hsched, hlt⟩ := step_fair h hs he
    obtain ⟨k, t, hrun, hend⟩ := fair_run_reaches_end s' hinv hsched
    exact ⟨k + 1, t, (Core_run_succ hstep k).trans hrun, hend⟩
termination_by s.workLeft
decreasing_by exact hlt

/-- Settles O59: every move of the fair choice makes the work left smaller, and a host moves only where no ring has work. -/
theorem fairRunsReachTheirEnd : Obligations.FairRunsReachTheirEnd := by
  intro s h hs
  refine ⟨fair_run_reaches_end s h hs, fun d hd i hi => ?_⟩
  obtain ⟨hidle, hwview, hrview⟩ := quiescent_of_fairEvent_host h hd i hi
  exact ⟨hidle, by rw [Rb.psnapW, Rb.psnapR, hrview], by rw [Rb.csnapR, hwview]⟩

end Sys2Proof.Machine
end

section
/-! SUPPORT. Which results of the binary32 operations are NaNs (R21). -/

namespace Sys2Proof.Machine

/-! ### Words from a sign and a magnitude -/

theorem magBits_packF {neg : Bool} {bits : Nat} (h : bits < 2 ^ 31) : magBits (packF neg bits) = bits := by
  cases neg <;> simp [magBits, packF] <;> omega

theorem magBits_lt (a : Word) : magBits a < 2 ^ 31 := Nat.mod_lt _ (by decide)

theorem signBit_eq (a : Word) : signBit a = decide (2 ^ 31 ≤ a.toNat) := by
  have h := a.isLt
  rw [signBit, BitVec.getLsbD, Nat.testBit_eq_decide_div_mod_eq]
  simp only [decide_eq_decide]
  omega

/-- A word is made of its sign and its magnitude. -/
theorem packF_signBit_magBits (a : Word) : packF (signBit a) (magBits a) = a := by
  have h := a.isLt
  apply BitVec.eq_of_toNat_eq
  simp only [packF, magBits, signBit_eq, BitVec.toNat_ofNat, decide_eq_true_eq]
  split <;> omega

theorem isNaN_packF {neg : Bool} {bits : Nat} (h : bits < 2 ^ 31) : isNaN (packF neg bits) = decide (infBits < bits) := by
  rw [isNaN, magBits_packF h]

/-- No rounded magnitude, zero or infinity makes a NaN. -/
theorem isNaN_packF_of_le {neg : Bool} {bits : Nat} (h : bits ≤ infBits) : isNaN (packF neg bits) = false := by
  rw [isNaN_packF (Nat.lt_of_le_of_lt h (by decide))]
  simpa using h

/-! ### The drawn words -/

theorem isNaN_asNaN (d : BitVec 32) : isNaN (asNaN d) = true := by
  unfold asNaN
  split
  · rw [isNaN_packF (by decide)]; decide
  · next h =>
    have hlt : d.toNat % 2 ^ 23 < 2 ^ 23 := Nat.mod_lt _ (by decide)
    rw [isNaN_packF (by unfold infBits; omega)]
    simp only [decide_eq_true_eq]
    omega

/-- A NaN is drawn by its own bits. -/
theorem asNaN_of_isNaN {w : Word} (h : isNaN w = true) : asNaN w = w := by
  have hmag : infBits < magBits w := of_decide_eq_true h
  have hlt := magBits_lt w
  have hfrac : infBits + w.toNat % 2 ^ 23 = magBits w ∧ w.toNat % 2 ^ 23 ≠ 0 := by
    unfold magBits infBits at *
    omega
  unfold asNaN
  rw [if_neg hfrac.2, hfrac.1]
  exact packF_signBit_magBits w

/-! ### The operations -/

/-- Of an operation at two operands, by the draw: the NaN drawn, or one word that is no NaN. -/
def DrawnOrFixed (f : BitVec 32 → Word) : Prop := (∀ d, f d = asNaN d) ∨ ∃ r, isNaN r = false ∧ ∀ d, f d = r

theorem DrawnOrFixed.drawn : DrawnOrFixed asNaN := .inl fun _ => rfl

theorem DrawnOrFixed.fixed {r : Word} (h : isNaN r = false) : DrawnOrFixed fun _ => r := .inr ⟨r, h, fun _ => rfl⟩

theorem DrawnOrFixed.packed {neg : Bool} {bits : Nat} (h : bits ≤ infBits) : DrawnOrFixed fun _ => packF neg bits :=
  .fixed (isNaN_packF_of_le h)

theorem DrawnOrFixed.ite {p : Prop} [Decidable p] {f g : BitVec 32 → Word} (hf : p → DrawnOrFixed f)
    (hg : ¬p → DrawnOrFixed g) : DrawnOrFixed fun d => if p then f d else g d := by
  by_cases h : p
  · simpa only [if_pos h] using hf h
  · simpa only [if_neg h] using hg h

theorem isNaN_addFinite (a b : Word) : isNaN (addFinite a b) = false := by
  unfold addFinite
  split_ifs
  · exact isNaN_packF_of_le (roundMag_le _ _)
  · exact isNaN_packF_of_le (roundMag_le _ _)
  · exact isNaN_packF_of_le (roundMag_le _ _)
  · exact fZero_plain.1

theorem fadd_drawnOrFixed (a b : Word) : DrawnOrFixed (fadd · a b) :=
  .ite (fun _ => .drawn) fun hn => by
    obtain ⟨ha, hb⟩ : isNaN a = false ∧ isNaN b = false := by simpa using hn
    exact .ite (fun _ => .ite (fun _ => .drawn) fun _ => .fixed ha) fun _ =>
      .ite (fun _ => .fixed hb) fun _ => .fixed (isNaN_addFinite a b)

theorem fmul_drawnOrFixed (a b : Word) : DrawnOrFixed (fmul · a b) :=
  .ite (fun _ => .drawn) fun _ =>
    .ite (fun _ => .ite (fun _ => .drawn) fun _ => .packed le_rfl) fun _ => .packed (roundMag_le _ _)

theorem fdiv_drawnOrFixed (a b : Word) : DrawnOrFixed (fdiv · a b) :=
  .ite (fun _ => .drawn) fun _ =>
    .ite (fun _ => .ite (fun _ => .drawn) fun _ => .packed le_rfl) fun _ =>
      .ite (fun _ => .packed (Nat.zero_le _)) fun _ =>
        .ite (fun _ => .ite (fun _ => .drawn) fun _ => .packed le_rfl) fun _ => .packed (roundMag_le _ _)

/-- Settles O42: in each branch of each operation stands the draw or a word that is no NaN. -/
theorem onlyNaNResultsAreDrawn : Obligations.OnlyNaNResultsAreDrawn := by
  refine ⟨isNaN_asNaN, fun w hw => ⟨w, asNaN_of_isNaN hw⟩, fun op hop a b => ?_⟩
  simp only [List.mem_cons, List.not_mem_nil, or_false] at hop
  rcases hop with rfl | rfl | rfl | rfl
  · exact fadd_drawnOrFixed a b
  · exact fadd_drawnOrFixed a (fneg b)
  · exact fmul_drawnOrFixed a b
  · exact fdiv_drawnOrFixed a b

end Sys2Proof.Machine
end

section
/-! SUPPORT. Rounding to nearest, ties to even (R19): the binary32 grid, the rounded quotient on it, and the threshold of
overflow. -/

namespace Sys2Proof.Machine

/-! ### The grid of magnitudes -/

/-- The next magnitude is one spacing further. -/
theorem magOfBits_succ (b : Nat) : magOfBits (b + 1) = magOfBits b + 2 ^ (b / 2 ^ 23 - 1) := by
  have hdiv := Nat.div_add_mod b (2 ^ 23)
  have hlt := Nat.mod_lt b (Nat.two_pow_pos 23)
  unfold magOfBits
  by_cases hcarry : b % 2 ^ 23 + 1 < 2 ^ 23
  · rw [show (b + 1) / 2 ^ 23 = b / 2 ^ 23 by omega, show (b + 1) % 2 ^ 23 = b % 2 ^ 23 + 1 by omega]
    split
    · next h => rw [h]; rfl
    · ring
  · rw [show (b + 1) / 2 ^ 23 = b / 2 ^ 23 + 1 by omega, show (b + 1) % 2 ^ 23 = 0 by omega,
      show b % 2 ^ 23 = 2 ^ 23 - 1 by omega, if_neg (by omega)]
    cases b / 2 ^ 23 with
    | zero => rfl
    | succ e =>
      rw [if_neg (by omega)]
      simp only [Nat.add_sub_cancel, pow_succ 2 e]
      omega

theorem magOfBits_strictMono : StrictMono magOfBits :=
  strictMono_nat_of_lt_succ fun b => by
    rw [magOfBits_succ]
    exact Nat.lt_add_of_pos_right (Nat.two_pow_pos _)

/-- `k` is a 24-bit significand at exponent `e`: normalised unless `e` is the least exponent, and one above the largest
allowed, which is the next exponent's least. -/
def Significand (e k : Nat) : Prop := k ≤ 2 ^ 24 ∧ (e = 0 ∨ 2 ^ 23 ≤ k)

/-- A significand and its exponent in the 31 magnitude bits. -/
theorem magOfBits_significand {e k : Nat} (h : Significand e k) : magOfBits (e * 2 ^ 23 + k) = k * 2 ^ e := by
  obtain ⟨hle, hnorm⟩ := h
  unfold magOfBits
  rcases Nat.lt_or_ge k (2 ^ 23) with hsub | hnormal
  · obtain rfl : e = 0 := by omega
    rw [if_pos (by omega)]
    omega
  · rcases Nat.eq_or_lt_of_le hle with rfl | hlt
    · rw [show (e * 2 ^ 23 + 2 ^ 24) / 2 ^ 23 = e + 2 by omega, show (e * 2 ^ 23 + 2 ^ 24) % 2 ^ 23 = 0 by omega,
        if_neg (by omega), Nat.add_sub_cancel (m := 1) (n := e + 1), pow_succ]
      ring
    · rw [show (e * 2 ^ 23 + k) / 2 ^ 23 = e + 1 by omega, show (e * 2 ^ 23 + k) % 2 ^ 23 = k - 2 ^ 23 by omega,
        if_neg (by omega), Nat.add_sub_cancel, Nat.add_sub_cancel' hnormal]

/-- A magnitude above a significand is a spacing above it. -/
theorem Significand.succ_le_magOfBits {e k b : Nat} (h : Significand e k) (hb : e * 2 ^ 23 + k < b) :
    (k + 1) * 2 ^ e ≤ magOfBits b := by
  have hmono : magOfBits (e * 2 ^ 23 + k + 1) ≤ magOfBits b := magOfBits_strictMono.monotone hb
  have hspacing : 2 ^ e ≤ 2 ^ ((e * 2 ^ 23 + k) / 2 ^ 23 - 1) := by
    refine Nat.pow_le_pow_right (by decide) ?_
    have := h.2
    omega
  rw [magOfBits_succ, magOfBits_significand h] at hmono
  rw [Nat.add_mul, Nat.one_mul]
  omega

/-- A magnitude below a significand that has one below it at the same exponent is a spacing below it. -/
theorem Significand.magOfBits_le_pred {e k b : Nat} (h : Significand e k) (hb : b < e * 2 ^ 23 + (k + 1)) :
    magOfBits b ≤ k * 2 ^ e := by
  rw [← magOfBits_significand h]
  exact magOfBits_strictMono.monotone (by omega)

/-! ### The rounded quotient -/

/-- The rounded quotient is the quotient, with a remainder of at most half, or the next number, with at least half; at
exactly half it is even. -/
theorem roundDiv_cases (num den : Nat) :
    roundDiv num den = num / den ∧ 2 * (num % den) ≤ den ∧ (2 * (num % den) = den → num / den % 2 = 0) ∨
    roundDiv num den = num / den + 1 ∧ den ≤ 2 * (num % den) ∧ (2 * (num % den) = den → num / den % 2 = 1) := by
  unfold roundDiv
  split <;> omega

/-- A number above an odd one is reached exactly from half on. -/
theorem lt_roundDiv_iff_of_odd {num den m : Nat} (hden : 0 < den) (hm : m % 2 = 1) :
    m < roundDiv num den ↔ (2 * m + 1) * den ≤ 2 * num := by
  have hnum := Nat.div_add_mod num den
  have hlt := Nat.mod_lt num hden
  have hround := roundDiv_cases num den
  rcases Nat.lt_trichotomy (num / den) m with h | h | h
  · have : den * (num / den + 1) ≤ den * m := Nat.mul_le_mul_left _ h
    have : (2 * m + 1) * den = 2 * (den * m) + den := by ring
    rw [Nat.mul_succ] at *
    omega
  · have : (2 * m + 1) * den = 2 * (den * (num / den)) + den := by rw [h]; ring
    omega
  · have : den * (m + 1) ≤ den * (num / den) := Nat.mul_le_mul_left _ h
    have : (2 * m + 1) * den = 2 * (den * m) + den := by ring
    rw [Nat.mul_succ] at *
    omega

/-! ### The narrowed quotient -/

/-- The exponent at which a quotient is rounded: the least at which its whole part has at most 24 bits. -/
def roundExp (num den : Nat) : Nat := Nat.log2 (num / den) - 23

/-- The spacing at that exponent, in the scale of the numerator. -/
def roundUnit (num den : Nat) : Nat := den * 2 ^ roundExp num den

/-- The significand a quotient is rounded to. -/
def roundSig (num den : Nat) : Nat := roundDiv num (roundUnit num den)

/-- The magnitude bits a quotient is rounded to, before the cut at infinity. -/
def roundBits (num den : Nat) : Nat := roundExp num den * 2 ^ 23 + roundSig num den

theorem roundMag_eq (num den : Nat) : roundMag num den = min (roundBits num den) infBits := rfl

theorem roundUnit_pos {num den : Nat} (hden : 0 < den) : 0 < roundUnit num den := Nat.mul_pos hden (Nat.two_pow_pos _)

/-- The whole part at the rounding exponent is a significand that rounding up may still add one to. -/
theorem div_roundUnit (num den : Nat) : num / roundUnit num den < 2 ^ 24 ∧
    (roundExp num den = 0 ∨ 2 ^ 23 ≤ num / roundUnit num den) := by
  rw [roundUnit, ← Nat.div_div_eq_div_mul]
  rcases Nat.lt_or_ge (num / den) (2 ^ 24) with hsmall | hlarge
  · have hexp : roundExp num den = 0 := by
      have : Nat.log2 (num / den) < 24 := by
        rcases Nat.eq_zero_or_pos (num / den) with h0 | hpos
        · rw [h0]; decide
        · exact (Nat.log2_lt hpos.ne').2 hsmall
      unfold roundExp
      omega
    simpa [hexp] using hsmall
  · have hne : num / den ≠ 0 := by omega
    have hlog : 24 ≤ Nat.log2 (num / den) := (Nat.le_log2 hne).2 hlarge
    have hexp : Nat.log2 (num / den) = roundExp num den + 23 := by unfold roundExp; omega
    have hlow : 2 ^ 23 * 2 ^ roundExp num den ≤ num / den := by
      rw [← Nat.pow_add, Nat.add_comm, ← hexp]
      exact Nat.log2_self_le hne
    have hhigh : num / den < 2 ^ roundExp num den * 2 ^ 24 := by
      rw [← Nat.pow_add, show roundExp num den + 24 = Nat.log2 (num / den) + 1 by omega]
      exact Nat.lt_log2_self
    exact ⟨Nat.div_lt_of_lt_mul hhigh, .inr ((Nat.le_div_iff_mul_le (Nat.two_pow_pos _)).2 hlow)⟩

theorem div_roundUnit_significand (num den : Nat) : Significand (roundExp num den) (num / roundUnit num den) :=
  ⟨(div_roundUnit num den).1.le, (div_roundUnit num den).2⟩

theorem roundSig_significand (num den : Nat) : Significand (roundExp num den) (roundSig num den) := by
  obtain ⟨hlt, hnorm⟩ := div_roundUnit num den
  rcases roundDiv_cases num (roundUnit num den) with ⟨h, -⟩ | ⟨h, -⟩ <;>
    · unfold Significand roundSig
      omega

theorem roundBits_mod_two (num den : Nat) : roundBits num den % 2 = roundSig num den % 2 := by
  unfold roundBits
  omega

/-! ### Nothing is nearer -/

/-- A point at most half a spacing below a number, against one still lower or a spacing higher. -/
theorem abs_sub_le_of_below {n p q spacing : Nat} (hq : q ≤ n) (hhalf : 2 * (n - q) ≤ spacing)
    (hp : p < q ∨ q + spacing ≤ p) :
    |(n : Int) - q| ≤ |(n : Int) - p| ∧ (|(n : Int) - q| = |(n : Int) - p| → 2 * (n - q) = spacing) := by
  simp only [Int.abs_eq_natAbs]
  omega

/-- A point at most half a spacing above a number, against one still higher or a spacing lower. -/
theorem abs_sub_le_of_above {n p q spacing : Nat} (hq : n < q) (hhalf : 2 * (q - n) ≤ spacing)
    (hp : q < p ∨ p + spacing ≤ q) :
    |(n : Int) - q| ≤ |(n : Int) - p| ∧ (|(n : Int) - q| = |(n : Int) - p| → 2 * (q - n) = spacing) := by
  simp only [Int.abs_eq_natAbs]
  omega

/-- A significand at the rounding exponent, in the scale of the numerator. -/
theorem mul_mul_roundExp (num den k : Nat) : den * (k * 2 ^ roundExp num den) = roundUnit num den * k := by
  rw [roundUnit]
  ring

theorem mul_magOfBits_roundBits (num den : Nat) :
    den * magOfBits (roundBits num den) = roundUnit num den * roundSig num den := by
  rw [roundBits, magOfBits_significand (roundSig_significand num den), mul_mul_roundExp]

/-- Every magnitude above the rounded one is a spacing above it. -/
theorem roundBits_lt {num den b : Nat} (hb : roundBits num den < b) :
    roundUnit num den * (roundSig num den + 1) ≤ den * magOfBits b := by
  rw [← mul_mul_roundExp]
  exact Nat.mul_le_mul_left den ((roundSig_significand num den).succ_le_magOfBits hb)

/-- Every magnitude below one that was rounded up is a spacing below it. (The grid below a power of two is finer, but
rounding up never ends at the least significand of an exponent.) -/
theorem lt_roundBits {num den b : Nat} (hup : roundSig num den = num / roundUnit num den + 1)
    (hb : b < roundBits num den) : den * magOfBits b ≤ roundUnit num den * (num / roundUnit num den) := by
  rw [roundBits, hup] at hb
  rw [← mul_mul_roundExp]
  exact Nat.mul_le_mul_left den ((div_roundUnit_significand num den).magOfBits_le_pred hb)

/-- No magnitude is nearer than the rounded one, and where another is equally near the rounded one is even. -/
theorem roundBits_nearest {num den b : Nat} (hden : 0 < den) (hb : b ≠ roundBits num den) :
    |(num : Int) - den * magOfBits (roundBits num den)| ≤ |(num : Int) - den * magOfBits b| ∧
      (|(num : Int) - den * magOfBits (roundBits num den)| = |(num : Int) - den * magOfBits b| →
        roundBits num den % 2 = 0) := by
  have hscaled : ∀ {x y : Nat}, x < y → den * magOfBits x < den * magOfBits y := fun h =>
    Nat.mul_lt_mul_of_pos_left (magOfBits_strictMono h) hden
  have hdiv := Nat.div_add_mod num (roundUnit num den)
  have hrem := Nat.mod_lt num (roundUnit_pos (num := num) hden)
  have hvalue := mul_magOfBits_roundBits num den
  rw [roundBits_mod_two, ← Nat.cast_mul, ← Nat.cast_mul]
  rcases roundDiv_cases num (roundUnit num den) with ⟨hdown, hhalf, htie⟩ | ⟨hup, hhalf, htie⟩
  · rw [← roundSig] at hdown
    have hother : den * magOfBits b < den * magOfBits (roundBits num den) ∨
        den * magOfBits (roundBits num den) + roundUnit num den ≤ den * magOfBits b := by
      rcases Nat.lt_or_gt_of_ne hb with h | h
      · exact .inl (hscaled h)
      · rw [hvalue, ← Nat.mul_succ]
        exact .inr (roundBits_lt h)
    rw [hdown] at hvalue ⊢
    obtain ⟨hnear, heq⟩ := abs_sub_le_of_below (n := num) (by omega) (by omega) hother
    exact ⟨hnear, fun h => htie (by have := heq h; omega)⟩
  · rw [← roundSig] at hup
    have hother : den * magOfBits (roundBits num den) < den * magOfBits b ∨
        den * magOfBits b + roundUnit num den ≤ den * magOfBits (roundBits num den) := by
      rcases Nat.lt_or_gt_of_ne hb with h | h
      · rw [hvalue, hup, Nat.mul_succ]
        exact .inr (Nat.add_le_add_right (lt_roundBits hup h) _)
      · exact .inl (hscaled h)
    rw [hup, Nat.mul_succ] at hvalue
    obtain ⟨hnear, heq⟩ := abs_sub_le_of_above (n := num) (by omega) (by omega) hother
    refine ⟨hnear, fun h => ?_⟩
    have hodd := htie (by have := heq h; omega)
    omega

/-! ### Overflow -/

/-- Rounding overflows exactly from half a spacing above the largest finite magnitude on. -/
theorem infBits_le_roundBits_iff {num den : Nat} (hden : 0 < den) :
    infBits ≤ roundBits num den ↔ den * ((2 ^ 25 - 1) * 2 ^ 252) ≤ num := by
  obtain ⟨x, hx⟩ : ∃ x, x = den * 2 ^ 252 := ⟨_, rfl⟩
  have hthreshold : den * ((2 ^ 25 - 1) * 2 ^ 252) = (2 ^ 25 - 1) * x := by rw [hx]; ring
  have hpos : 0 < roundUnit num den := roundUnit_pos hden
  have hmono : ∀ {e f : Nat}, e ≤ f → den * 2 ^ e ≤ den * 2 ^ f := fun h =>
    Nat.mul_le_mul_left _ (Nat.pow_le_pow_right (by decide) h)
  obtain ⟨hle, hnorm⟩ := roundSig_significand num den
  obtain ⟨hlt, hdivNorm⟩ := div_roundUnit num den
  rw [hthreshold, roundBits, show infBits = 255 * 2 ^ 23 from rfl]
  rcases Nat.lt_trichotomy (roundExp num den) 253 with h | h | h
  · have hhigh : num < 2 ^ 24 * roundUnit num den := (Nat.div_lt_iff_lt_mul hpos).1 hlt
    have hunit : roundUnit num den ≤ x := hx ▸ hmono (by omega)
    clear hx
    omega
  · have hunit : roundUnit num den = 2 * x := by rw [roundUnit, h, hx]; ring
    have htie : 2 ^ 24 - 1 < roundSig num den ↔ _ := lt_roundDiv_iff_of_odd hpos (by decide)
    clear hx
    omega
  · have hlow : 2 ^ 23 * roundUnit num den ≤ num := (Nat.le_div_iff_mul_le hpos).1 (by omega)
    have hunit : 4 * x ≤ roundUnit num den := by
      calc 4 * x = den * 2 ^ 254 := by rw [hx]; ring
        _ ≤ roundUnit num den := hmono h
    clear hx
    omega

/-- Settles O41: the rounded bits are the result unless they reach infinity; no magnitude is nearer, and they reach
infinity exactly from the threshold on. -/
theorem roundingIsToNearestEven : Obligations.RoundingIsToNearestEven := by
  intro num den hden
  rw [← infBits_le_roundBits_iff hden, roundMag_eq]
  refine ⟨min_eq_right_iff, fun hfinite b _ => ?_⟩
  rw [min_eq_left (by omega)]
  rcases eq_or_ne b (roundBits num den) with rfl | hb
  · exact ⟨le_rfl, fun h => absurd rfl h⟩
  · obtain ⟨hnear, htie⟩ := roundBits_nearest hden hb
    exact ⟨hnear, fun _ => htie⟩

end Sys2Proof.Machine
end

section
/-! SUPPORT. The invariant of the machine: it holds after the block reset, and every step keeps it. -/

namespace Sys2Proof.Machine

/-- Settles O54: a step is a turn of an agent, or nothing moves; and every turn keeps the invariant. -/
theorem stepKeepsInvariant : Obligations.StepKeepsInvariant := by
  intro s t h hstep
  refine ⟨?_, (step_sched hstep).1⟩
  rcases step_turn hstep with ⟨e, rest, -, hturn⟩ | ⟨-, e, -, hturn⟩ | ⟨-, -, rfl⟩
  · have hsched : Inv { s with sched := rest } := h.congr rfl rfl rfl rfl rfl fun _ => rfl
    exact hturn.keeps_inv hsched
  · exact hturn.keeps_inv (h.setDraws _)
  · exact h

/-! ### The units after the block reset -/

@[simp] theorem State.fab_resetOf (c : Config) (d : Nat) : (State.resetOf c).fab d = Fabric.reset :=
  List.getElem?_getD_replicate_default_eq _ _ _

@[simp] theorem State.rb_resetOf (c : Config) (i : Nat) : (State.resetOf c).rb i = Rb.reset :=
  List.getElem?_getD_replicate_default_eq _ _ _

@[simp] theorem State.rs_resetOf (c : Config) (j : Nat) : (State.resetOf c).rs j = Rs.reset :=
  List.getElem?_getD_replicate_default_eq _ _ _

@[simp] theorem State.ola_resetOf (c : Config) (k : Nat) : (State.resetOf c).ola k = Ola.reset :=
  List.getElem?_getD_replicate_default_eq _ _ _

theorem State.sized_resetOf (c : Config) : Sized (State.resetOf c) :=
  ⟨List.length_replicate, List.length_replicate, List.length_replicate, List.length_replicate⟩

theorem Inv.resetOf {c : Config} (h : Legal c) : Inv (State.resetOf c) where
  legal := h
  sized := State.sized_resetOf c
  rings i _ := by rw [State.rb_resetOf]; exact .reset i
  resamplers j _ := by rw [State.rs_resetOf]; rfl
  spectral k _ := by rw [State.ola_resetOf]; exact .reset h
  fabrics d _ := by rw [State.fab_resetOf]; rfl

/-- Settles O51: every unit of every list is the reset unit, whose fields are the values of R451. -/
theorem resetValues : Obligations.ResetValues := by
  intro c
  obtain ⟨hfabs, hrbs, hrss, holas⟩ := State.sized_resetOf c
  refine ⟨rfl, hfabs, hrbs, hrss, holas, fun d => ?_, fun i => ?_, fun j => ?_, fun k => ?_, rfl⟩
  · rw [State.fab_resetOf]; rfl
  · rw [State.rb_resetOf]; exact ⟨rfl, rfl, rfl, rfl, rfl, rfl, rfl, rfl, rfl, rfl, rfl, rfl, rfl⟩
  · rw [State.rs_resetOf]; exact ⟨rfl, rfl, rfl⟩
  · rw [State.ola_resetOf]; exact ⟨rfl, rfl, rfl, rfl, rfl, rfl, rfl, rfl, rfl⟩

/-- Settles O53: every reset unit has its invariant, no reset ring has an INIT pending, and the schedule is empty. -/
theorem resetMeetsInvariant : Obligations.ResetMeetsInvariant := by
  intro c h
  refine ⟨.resetOf h, fun i _ j _ hi _ _ => ?_, fun e he => ?_⟩
  · rw [State.rb_resetOf] at hi; cases hi
  · cases he

end Sys2Proof.Machine
end

section
/-! SUPPORT. Ownership (R43, R44, R45, R133, R137, R163): what a command may change outside its
domain. -/

namespace Sys2Proof.Machine

/-- The producer domain's part of a ring: its cursor, its view, the storage, the configuration and the INIT bits. -/
def Rb.SameProducerSide (r r' : Rb) : Prop :=
  r'.wr = r.wr ∧ r'.rview = r.rview ∧ r'.mem = r.mem ∧ r'.perr = r.perr ∧ r'.cap = r.cap ∧ r'.ch = r.ch ∧
    r'.init = r.init ∧ r'.cinit = r.cinit ∧ r'.pending = r.pending

/-- The consumer domain's part of a ring. -/
def Rb.SameConsumerSide (r r' : Rb) : Prop := r'.rd = r.rd ∧ r'.wview = r.wview ∧ r'.cerr = r.cerr

theorem Rb.SameProducerSide.refl (r : Rb) : r.SameProducerSide r := ⟨rfl, rfl, rfl, rfl, rfl, rfl, rfl, rfl, rfl⟩

theorem Rb.SameConsumerSide.refl (r : Rb) : r.SameConsumerSide r := ⟨rfl, rfl, rfl⟩

/-- From s to t nothing changed that domain d does not own. -/
structure OnlyOwned (d : Nat) (s t : State) : Prop where
  units : d ≠ 0 → t.rss = s.rss ∧ t.olas = s.olas
  producers : ∀ i, d ≠ producerDomain s.cfg i → (s.rb i).SameProducerSide (t.rb i)
  consumers : ∀ i, d ≠ consumerDomain s.cfg i → (s.rb i).SameConsumerSide (t.rb i)
  fabrics : ∀ e, e ≠ d → t.fab e = s.fab e

theorem OnlyOwned.refl (d : Nat) (s : State) : OnlyOwned d s s :=
  ⟨fun _ => ⟨rfl, rfl⟩, fun _ _ => .refl _, fun _ _ => .refl _, fun _ _ => rfl⟩

/-! ### One lemma per update of the state -/

/-- Replacing a ring: the producer side may change in the producer's domain, the consumer side in the consumer's. -/
theorem OnlyOwned.setRb {d i : Nat} {s : State} {r : Rb}
    (hp : d ≠ producerDomain s.cfg i → (s.rb i).SameProducerSide r)
    (hc : d ≠ consumerDomain s.cfg i → (s.rb i).SameConsumerSide r) : OnlyOwned d s (s.setRb i r) := by
  have hrb : ∀ n, (s.setRb i r).rb n = s.rb n ∨ n = i ∧ (s.setRb i r).rb n = r := fun n => by
    simp only [State.rb, State.setRb, getD_set]
    split
    · next h => exact .inr ⟨h.1.symm, rfl⟩
    · exact .inl rfl
  refine ⟨fun _ => ⟨rfl, rfl⟩, fun n hn => ?_, fun n hn => ?_, fun _ _ => rfl⟩
  · rcases hrb n with h | ⟨rfl, h⟩
    · rw [h]; exact .refl _
    · rw [h]; exact hp hn
  · rcases hrb n with h | ⟨rfl, h⟩
    · rw [h]; exact .refl _
    · rw [h]; exact hc hn

theorem OnlyOwned.setRs {d j : Nat} {s : State} {r : Rs} (hd : 0 = d) : OnlyOwned d s (s.setRs j r) :=
  ⟨fun h => absurd hd.symm h, fun _ _ => .refl _, fun _ _ => .refl _, fun _ _ => rfl⟩

theorem OnlyOwned.setOla {d k : Nat} {s : State} {o : Ola} (hd : 0 = d) : OnlyOwned d s (s.setOla k o) :=
  ⟨fun h => absurd hd.symm h, fun _ _ => .refl _, fun _ _ => .refl _, fun _ _ => rfl⟩

theorem OnlyOwned.setFab (s : State) (d : Nat) (f : Fabric) : OnlyOwned d s (s.setFab d f) :=
  ⟨fun _ => ⟨rfl, rfl⟩, fun _ _ => .refl _, fun _ _ => .refl _, fun _ he => State.fab_setFab_ne s f he⟩

theorem OnlyOwned.setDraws {d : Nat} {s u : State} (h : OnlyOwned d s u) (n : Nat) :
    OnlyOwned d s { u with draws := n } := ⟨h.units, h.producers, h.consumers, h.fabrics⟩

theorem OnlyOwned.respond {d : Nat} {s u : State} (h : OnlyOwned d s u) (hd : u.cur.dom = d) (st : Status) (v : Word64)
    (n : Nat) (out : List Word) : OnlyOwned d s (u.respond st v n out) :=
  ⟨h.units, h.producers, h.consumers, fun e he => (State.fab_complete_ne u _ (hd ▸ he)).trans (h.fabrics e he)⟩

/-- An error register belongs to the domain of its port (R58, R163), and `ferr` to the issuing domain (R42). -/
theorem OnlyOwned.setErr (s : State) (e : ErrKind) {p : Option Port}
    (home : ∀ q, p = some q → homeDomain s.cfg q = some s.cur.dom) : OnlyOwned s.cur.dom s (s.setErr e p) := by
  cases p with
  | none => exact .setFab _ _ _
  | some q =>
    have hq := home q rfl
    cases q with
    | rbp i => exact .setRb (fun h => absurd (home_rbp hq).2.symm h) fun _ => .refl _
    | rbc i => exact .setRb (fun _ => .refl _) fun h => absurd (home_rbc hq).2.symm h
    | rs j => exact .setRs (home_rs hq).2
    | ola k => exact .setOla (home_ola hq).2

theorem OnlyOwned.raise (s : State) (e : ErrKind) {p : Option Port}
    (home : ∀ q, p = some q → homeDomain s.cfg q = some s.cur.dom) : OnlyOwned s.cur.dom s (s.raise e p) := by
  obtain ⟨hunits, hproducers, hconsumers, hfabrics⟩ := OnlyOwned.setErr s e home
  have hrec : OnlyOwned s.cur.dom s ((s.setErr e p).record e p) := ⟨hunits, hproducers, hconsumers, hfabrics⟩
  exact hrec.respond (congrArg Command.dom (s.setErr_keeps e p).2.1) _ _ _ _

/-! ### Every command, and a host's turn -/

theorem sameDomain_iff {c : Config} {i : Nat} : sameDomain c i = true ↔ producerDomain c i = consumerDomain c i := by
  simp [sameDomain]

/-- A command changes nothing outside the domain that issues it. A command of a ring's one port touches the other
port's side only where both live in one domain (R125, R204). -/
theorem Effect.onlyOwned {s t : State} (h : Effect s t) : OnlyOwned s.cur.dom s t := by
  cases h with
  | raised e p charge home => exact .raise s e home
  | answered st v k out => exact (OnlyOwned.refl _ s).respond rfl _ _ _ _
  | initSame i a b home same ok =>
    have hp := (home_rbp home).2
    have hc := sameDomain_iff.1 same
    exact (OnlyOwned.setRb (fun h => absurd hp.symm h) fun h => absurd (hp.symm.trans hc) h).respond rfl _ _ _ _
  | initCross i a b home cross ok => exact .setRb (fun h => absurd (home_rbp home).2.symm h) fun _ => .refl _
  | wrote i a k home init len room =>
    have hp := (home_rbp home).2
    refine (OnlyOwned.setRb (fun h => absurd hp.symm h) fun h => ?_).respond rfl _ _ _ _
    have hcross : sameDomain s.cfg i = false :=
      Bool.eq_false_iff.2 fun hs => h (hp.symm.trans (sameDomain_iff.1 hs))
    rw [hcross]; exact .refl _
  | readOut i a k home idle init room =>
    have hc := (home_rbc home).2
    refine (OnlyOwned.setRb (fun h => ?_) fun h => absurd hc.symm h).respond rfl _ _ _ _
    have hcross : sameDomain s.cfg i = false :=
      Bool.eq_false_iff.2 fun hs => h (hc.symm.trans (sameDomain_iff.1 hs).symm)
    rw [hcross]; exact .refl _
  | configured j m home => exact (OnlyOwned.setRs (home_rs home).2).respond rfl _ _ _ _
  | streamReset k home => exact (OnlyOwned.setOla (home_ola home).2).respond rfl _ _ _ _
  | pushed k a home rdy len room =>
    exact ((OnlyOwned.setOla (home_ola home).2).setDraws _).respond rfl _ _ _ _
  | popped k a m home rdy avail =>
    exact ((OnlyOwned.setOla (home_ola home).2).setDraws _).respond rfl _ _ _ _

/-- Taking a command off the queue touches only the fabric of its domain. -/
theorem Turn.host_onlyOwned {s t : State} {d : Nat} (h : Turn s (.host d) t) : OnlyOwned d s t := by
  cases h with
  | idle => exact .refl d s
  | issued _ r _ next dom effect =>
    obtain ⟨hunits, hproducers, hconsumers, hfabrics⟩ := effect.onlyOwned
    exact ⟨hunits, hproducers, hconsumers, fun e he => (hfabrics e he).trans (State.fab_setFab_ne s _ he)⟩

/-- Settles O58: the step is a turn of the scheduled host, whose command changes only what its domain owns. -/
theorem eachDomainChangesOnlyItsOwn : Obligations.EachDomainChangesOnlyItsOwn := by
  intro s t d rest hs hstep
  rcases step_turn hstep with ⟨e, rest', hs', hturn⟩ | ⟨hs', -⟩ | ⟨hs', -⟩
  · obtain ⟨rfl, rfl⟩ := List.cons.inj (hs.symm.trans hs')
    obtain ⟨hunits, hproducers, hconsumers, hfabrics⟩ := hturn.host_onlyOwned
    exact ⟨hunits, hproducers, hconsumers, hfabrics⟩
  · rw [hs] at hs'; cases hs'
  · rw [hs] at hs'; cases hs'

end Sys2Proof.Machine
end

section
/-! SUPPORT. The snapshots and flags of a ring with the invariant (R48 to R51, R210, R230, R233). -/

namespace Sys2Proof.Machine

/-- The ways along the cursors since INIT add up, since all of it is at most the capacity (R48). -/
theorem RingInv.dist_sinceInit {c : Config} {i : Nat} {rb : Rb} (hl : Legal c) (h : RingInv c i rb) :
    dist c.ptrW rb.rdSinceInit rb.wr =
      dist c.ptrW rb.rdSinceInit rb.wviewSinceInit + dist c.ptrW rb.wviewSinceInit rb.wr ∧
    dist c.ptrW rb.rview rb.wr = dist c.ptrW rb.rview rb.rdSinceInit + dist c.ptrW rb.rdSinceInit rb.wr := by
  cases hp : rb.pending with
  | false =>
    rw [Rb.rdSinceInit_idle hp, Rb.wviewSinceInit_idle hp]
    exact h.dist_bounds hl hp
  | true =>
    obtain ⟨-, -, -, -, hwr, hrview, -⟩ := h.pending hp
    simp [Rb.rdSinceInit_pending hp, Rb.wviewSinceInit_pending hp, hwr, hrview]

/-- No distance along the cursors since INIT is above the capacity (R48). -/
theorem RingInv.dist_le_cap {c : Config} {i : Nat} {rb : Rb} (hl : Legal c) (h : RingInv c i rb) :
    dist c.ptrW rb.rdSinceInit rb.wr ≤ rb.cap ∧ dist c.ptrW rb.rview rb.wr ≤ rb.cap ∧
      dist c.ptrW rb.rdSinceInit rb.wviewSinceInit ≤ rb.cap := by
  obtain ⟨hrd, hrview⟩ := h.dist_sinceInit hl
  have horder := h.order
  omega

/-- A view away from its cursor is a cross-domain ring's (R125). -/
theorem RingInv.cross_of_lag {c : Config} {i : Nat} {rb : Rb} (h : RingInv c i rb)
    (hlag : rb.wview ≠ rb.wr ∨ rb.rview ≠ rb.rd) : sameDomain c i = false := by
  cases hs : sameDomain c i with
  | false => rfl
  | true =>
    obtain ⟨hw, hr⟩ := h.exact hs
    exact hlag.elim (absurd hw) (absurd hr)

/-- A SYNC_R2W move gives the producer's snapshot more room (R233). -/
theorem RingInv.psnapW_lt_r2w {c : Config} {i : Nat} {rb : Rb} (hl : Legal c) (h : RingInv c i rb)
    (hp : rb.pending = false) (hne : rb.rview ≠ rb.rd) (draw : Nat) :
    rb.psnapW c.ptrW < { rb with rview := syncTarget c.ptrW rb.rview rb.rd draw }.psnapW c.ptrW := by
  have h' := h.r2w (draw := draw) hl (h.cross_of_lag (.inr hne)) hp hne
  have hbefore := (h.dist_bounds hl hp).2
  have hafter := (h'.dist_bounds hl hp).2
  have hcap := (h.dist_le_cap hl).2.1
  obtain ⟨-, hrview, hrd, -⟩ := h.widths
  have hcloser := dist_syncTarget_lt (draw := draw) hrview hrd hne
  simp only [Rb.psnapW, Rb.psnapR] at hafter ⊢
  omega

/-- A SYNC_W2R move gives the consumer's snapshot more frames (R233). -/
theorem RingInv.csnapR_lt_w2r {c : Config} {i : Nat} {rb : Rb} (hl : Legal c) (h : RingInv c i rb)
    (hp : rb.pending = false) (hne : rb.wview ≠ rb.wr) (draw : Nat) :
    rb.csnapR c.ptrW < { rb with wview := syncTarget c.ptrW rb.wview rb.wr draw }.csnapR c.ptrW := by
  have h' := h.w2r (draw := draw) hl (h.cross_of_lag (.inl hne)) hp hne
  have hbefore := (h.dist_bounds hl hp).1
  have hafter := (h'.dist_bounds hl hp).1
  obtain ⟨hwr, -, -, hwview⟩ := h.widths
  have hcloser := dist_syncTarget_lt (draw := draw) hwview hwr hne
  simp only [Rb.csnapR] at hafter ⊢
  omega

/-- Settles O26: the distances follow from the order of the cursors, and a SYNC move only shortens its own. -/
theorem snapshotsSumAndAreConservative : Obligations.SnapshotsSumAndAreConservative := by
  intro c i rb hl h
  obtain ⟨htrue, hprod, hcons⟩ := h.dist_le_cap hl
  refine ⟨htrue, hprod, hcons, Nat.add_sub_of_le hprod, fun hp => ?_⟩
  have hrd := Rb.rdSinceInit_idle hp
  have hwview := Rb.wviewSinceInit_idle hp
  obtain ⟨hwr, hrview⟩ := h.dist_bounds hl hp
  rw [hrd, hwview] at hcons
  refine ⟨hrd, hwview, Nat.add_sub_of_le hcons, ?_, ?_,
    fun draw => ⟨fun hne => h.psnapW_lt_r2w hl hp hne draw, fun hne => h.csnapR_lt_w2r hl hp hne draw⟩⟩
  · simp only [Rb.psnapW, Rb.psnapR]; omega
  · simp only [Rb.csnapR]; omega

theorem Rb.full_iff (w : Nat) (rb : Rb) : rb.full w = true ↔ rb.init = true ∧ dist w rb.rview rb.wr = rb.cap := by
  simp [Rb.full]

theorem Rb.empty_iff (rb : Rb) : rb.empty = true ↔ rb.cinit = false ∨ rb.wview = rb.rd := by
  simp [Rb.empty]

theorem RingInv.psnapW_eq_zero_iff {c : Config} {i : Nat} {rb : Rb} (hl : Legal c) (h : RingInv c i rb) :
    rb.psnapW c.ptrW = 0 ↔ dist c.ptrW rb.rview rb.wr = rb.cap := by
  have hcap := (h.dist_le_cap hl).2.1
  simp only [Rb.psnapW, Rb.psnapR]
  omega

theorem RingInv.csnapR_eq_zero_iff {c : Config} {i : Nat} {rb : Rb} (h : RingInv c i rb) :
    rb.csnapR c.ptrW = 0 ↔ rb.wview = rb.rd := by
  obtain ⟨-, -, hrd, hwview⟩ := h.widths
  exact ⟨fun h0 => (dist_eq_zero hrd hwview h0).symm, fun e => by rw [Rb.csnapR, e, dist_self]⟩

/-- Settles O27: on a full ring the producer's snapshot is between the true distance and the capacity, on an empty one
the consumer's is below the true distance. -/
theorem fullAndEmptyAreConservative : Obligations.FullAndEmptyAreConservative := by
  intro c i rb hl h
  have hcap := (h.dist_le_cap hl).2.1
  rw [Rb.full_iff, Rb.empty_iff, h.psnapW_eq_zero_iff hl, h.csnapR_eq_zero_iff]
  refine ⟨Iff.rfl, Iff.rfl, fun hi hfull => ⟨hi, ?_⟩, fun hi hempty => .inr (h.csnapR_eq_zero_iff.1 ?_)⟩
  · have hrview := (h.dist_bounds hl (h.idle hi)).2
    omega
  · have hwr := (h.dist_bounds hl (h.idle hi)).1
    rw [Rb.csnapR]
    omega

end Sys2Proof.Machine
end

section
/-! SUPPORT. The status registers of a ring (R55, R56): their fields fit the registers, so they read as they are. -/

namespace Sys2Proof.Machine

theorem RingInv.cap_lt_two_pow {c : Config} {i : Nat} {rb : Rb} (hl : Legal c) (h : RingInv c i rb) :
    rb.cap < 2 ^ 25 := by
  obtain ⟨k, -, hk, hmax⟩ := hl.capacity
  calc rb.cap ≤ 2 ^ k := hmax ▸ h.capacityMax
    _ < 2 ^ 25 := Nat.pow_lt_pow_right (by decide) (by omega)

theorem RingInv.ch_lt_two_pow {c : Config} {i : Nat} {rb : Rb} (hl : Legal c) (h : RingInv c i rb) :
    rb.ch < 2 ^ 4 := by
  have hmax := h.channelsMax
  have hlegal := hl.channels.2
  omega

/-- A cursor or view in PTR_W bits fits its 32-bit register. -/
theorem Legal.cursor_lt {c : Config} (hl : Legal c) {x : Nat} (h : x < 2 ^ c.ptrW) : x < 2 ^ 32 :=
  h.trans_le (Nat.pow_le_pow_right (by decide) hl.pointers.2)

theorem errVal_toNat (e : BitVec 32) : (e.setWidth 64).toNat = e.toNat := BitVec.toNat_setWidth_of_le (by decide)

theorem Rb.pflags_toNat (w : Nat) (rb : Rb) : (rb.pflags w).toNat =
    (if rb.init then 1 else 0) + (if rb.init = true ∧ dist w rb.rview rb.wr = rb.cap then 2 else 0) := by
  simp only [Rb.pflags, flagWord_toNat, Rb.full_iff]

theorem Rb.cflags_toNat (rb : Rb) : rb.cflags.toNat =
    (if rb.cinit then 1 else 0) + (if rb.cinit = false ∨ rb.wview = rb.rd then 2 else 0) := by
  simp only [Rb.cflags, flagWord_toNat, Rb.empty_iff]

theorem Rb.producerReg_some (w : Nat) (rb : Rb) {n : Nat} (h : n ≤ 5) : ∃ v, rb.producerReg w n = some v := by
  interval_cases n <;> exact ⟨_, rfl⟩

theorem Rb.producerReg_reserved (w : Nat) (rb : Rb) {n : Nat} (h : 5 < n) : rb.producerReg w n = none := by
  obtain ⟨k, rfl⟩ := Nat.exists_eq_add_of_lt h
  rw [Nat.add_comm 5 k]; rfl

theorem Rb.consumerReg_some (rb : Rb) {n : Nat} (h : n ≤ 5) : ∃ v, rb.consumerReg n = some v := by
  interval_cases n <;> exact ⟨_, rfl⟩

theorem Rb.consumerReg_reserved (rb : Rb) {n : Nat} (h : 5 < n) : rb.consumerReg n = none := by
  obtain ⟨k, rfl⟩ := Nat.exists_eq_add_of_lt h
  rw [Nat.add_comm 5 k]; rfl

theorem execRbPstat_home {s : State} {n : BitVec 4} (h : Admitted s (.rbp n.toNat)) (a : BitVec 24) :
    exec (.rbPstat n a) s =
      .next (s.answerReg (.rbp n.toNat) ((s.rb n.toNat).producerReg s.cfg.ptrW a.toNat)) :=
  congrArg _ (State.onPort_home h.home)

theorem execRbCstat_home {s : State} {n : BitVec 4} (h : Admitted s (.rbc n.toNat))
    (hp : (s.rb n.toNat).pending = false) (a : BitVec 24) :
    exec (.rbCstat n a) s = .next (s.answerReg (.rbc n.toNat) ((s.rb n.toNat).consumerReg a.toNat)) :=
  (congrArg _ (State.onPort_home h.home)).trans (by simp [hp, count])

/-- Settles O33: each register of R55 is as wide as its field can get. -/
theorem producerStatusRegisters : Obligations.ProducerStatusRegisters := by
  intro s n a hinv hadm
  have hring := hinv.rings _ (home_rbp hadm.home).1
  obtain ⟨hwr, hrview, -, -⟩ := hring.widths
  rw [execRbPstat_home hadm a]
  refine ⟨fun ha => ?_, fun ha => ?_⟩
  · obtain ⟨v, hv⟩ := (s.rb n.toNat).producerReg_some s.cfg.ptrW ha
    refine ⟨_, v, by rw [hv]; rfl, onlyAnswer_respond, answers_respond rfl rfl hadm.dom_lt,
      ?_, ?_, ?_, ?_, ?_, ?_⟩ <;> rintro rfl <;> obtain rfl := Option.some.inj hv
    · exact regVal_toNat (by decide) (hring.cap_lt_two_pow hinv.legal)
    · exact regVal_toNat (by decide) (hring.ch_lt_two_pow hinv.legal)
    · exact regVal_toNat (by decide) (hinv.legal.cursor_lt hwr)
    · exact regVal_toNat (by decide) (hinv.legal.cursor_lt hrview)
    · exact Rb.pflags_toNat _ _
    · exact errVal_toNat _
  · rw [Rb.producerReg_reserved _ _ ha]; rfl

/-- Settles O34: each register of R56 is as wide as its field can get. -/
theorem consumerStatusRegisters : Obligations.ConsumerStatusRegisters := by
  intro s n a hinv hadm hp
  have hring := hinv.rings _ (home_rbc hadm.home).1
  obtain ⟨-, -, hrd, hwview⟩ := hring.widths
  rw [execRbCstat_home hadm hp a]
  refine ⟨fun ha => ?_, fun ha => ?_⟩
  · obtain ⟨v, hv⟩ := (s.rb n.toNat).consumerReg_some ha
    refine ⟨_, v, by rw [hv]; rfl, onlyAnswer_respond, answers_respond rfl rfl hadm.dom_lt,
      ?_, ?_, ?_, ?_, ?_, ?_⟩ <;> rintro rfl <;> obtain rfl := Option.some.inj hv
    · exact regVal_toNat (by decide) (hring.cap_lt_two_pow hinv.legal)
    · exact regVal_toNat (by decide) (hring.ch_lt_two_pow hinv.legal)
    · exact regVal_toNat (by decide) (hinv.legal.cursor_lt hrd)
    · exact regVal_toNat (by decide) (hinv.legal.cursor_lt hwview)
    · exact Rb.cflags_toNat _
    · exact errVal_toNat _
  · rw [Rb.consumerReg_reserved _ ha]; rfl

end Sys2Proof.Machine
end

section
/-! SUPPORT. The Gray code (R121, R123): its inverse, and the one bit that a step changes. -/

namespace Sys2Proof.Machine

/-- The XOR of the first n right shifts of a Gray word telescopes. -/
theorem foldl_gray_ushiftRight {w : Nat} (b : BitVec w) (n : Nat) :
    (List.range n).foldl (fun acc k => acc ^^^ (gray b >>> k)) 0 = b ^^^ (b >>> n) := by
  induction n with
  | zero => simp
  | succ n ih =>
    have hgray : gray b >>> n = (b >>> n) ^^^ (b >>> (n + 1)) := by
      rw [gray, BitVec.ushiftRight_xor_distrib, ← BitVec.shiftRight_add, Nat.add_comm]
    calc (List.range (n + 1)).foldl (fun acc k => acc ^^^ (gray b >>> k)) 0
        = (b ^^^ (b >>> n)) ^^^ ((b >>> n) ^^^ (b >>> (n + 1))) := by
          rw [List.range_succ, List.foldl_append, ih, ← hgray]; rfl
      _ = b ^^^ (b >>> (n + 1)) := by
          rw [BitVec.xor_assoc, ← BitVec.xor_assoc (b >>> n), BitVec.xor_self, BitVec.zero_xor]

theorem ungray_gray {w : Nat} (b : BitVec w) : ungray (gray b) = b := by
  rw [ungray, foldl_gray_ushiftRight, BitVec.ushiftRight_eq_zero (Nat.le_refl w), BitVec.xor_zero]

/-- Settles O30: the XOR of the right shifts telescopes to the word itself. -/
theorem ungrayInvertsGray : Obligations.UngrayInvertsGray := fun _ b => ungray_gray b

/-- The Gray code is linear. -/
theorem gray_xor_gray {w : Nat} (a b : BitVec w) : gray a ^^^ gray b = gray (a ^^^ b) := by
  simp only [gray, BitVec.ushiftRight_xor_distrib]
  ac_rfl

theorem getLsbD_gray {w : Nat} (b : BitVec w) (j : Nat) : (gray b).getLsbD j = (b.getLsbD j ^^ b.getLsbD (1 + j)) := by
  rw [gray, BitVec.getLsbD_xor, BitVec.getLsbD_ushiftRight]

/-- Counting up by one flips the bits up to the lowest 0. -/
theorem testBit_xor_add_one (n : Nat) : ∃ i, ∀ j, (n ^^^ (n + 1)).testBit j = decide (j ≤ i) := by
  induction n using Nat.strong_induction_on with
  | _ n ih =>
    have hzero : (n ^^^ (n + 1)).testBit 0 = true := by
      rw [Nat.testBit_zero, Nat.xor_mod_two_eq, decide_eq_true_eq]
      omega
    have hsucc : ∀ j, (n ^^^ (n + 1)).testBit (j + 1) = (n / 2 ^^^ (n + 1) / 2).testBit j := fun j => by
      rw [Nat.testBit_xor, Nat.testBit_succ, Nat.testBit_succ, ← Nat.testBit_xor]
    rcases Nat.mod_two_eq_zero_or_one n with heven | hodd
    · have hhalf : (n + 1) / 2 = n / 2 := by omega
      refine ⟨0, fun j => ?_⟩
      cases j with
      | zero => simpa using hzero
      | succ j => simp [hsucc, hhalf]
    · obtain ⟨i, hi⟩ := ih (n / 2) (by omega)
      have hhalf : (n + 1) / 2 = n / 2 + 1 := by omega
      refine ⟨i + 1, fun j => ?_⟩
      cases j with
      | zero => simpa using hzero
      | succ j => simp [hsucc, hhalf, hi]

/-- On a word of w bits the lowest 0, or the top bit of a word of ones, is the last bit to flip. -/
theorem getLsbD_xor_add_one {w : Nat} (b : BitVec w) (hw : 0 < w) :
    ∃ i < w, ∀ j, (b ^^^ (b + 1)).getLsbD j = decide (j ≤ i) := by
  obtain ⟨i, hi⟩ := testBit_xor_add_one b.toNat
  refine ⟨min i (w - 1), by omega, fun j => ?_⟩
  have hsum : (b ^^^ (b + 1)).toNat = (b.toNat ^^^ (b.toNat + 1)) % 2 ^ w := by
    rw [BitVec.toNat_xor, Nat.xor_mod_two_pow, Nat.mod_eq_of_lt b.isLt, BitVec.toNat_add]
    simp
  rw [BitVec.getLsbD, hsum, Nat.testBit_mod_two_pow, hi, ← Bool.decide_and, decide_eq_decide]
  omega

/-- Settles O31: the flipped bits are the ones up to bit i, and the Gray code of such a word is bit i alone. -/
theorem grayStepChangesOneBit : Obligations.GrayStepChangesOneBit := by
  intro w b hw
  obtain ⟨i, hi, hflip⟩ := getLsbD_xor_add_one b hw
  refine ⟨i, hi, BitVec.eq_of_getLsbD_eq fun j hj => ?_⟩
  rw [gray_xor_gray, getLsbD_gray, hflip, hflip, BitVec.getLsbD_twoPow]
  grind

end Sys2Proof.Machine
end

section
/-! SUPPORT. The Gray-coded crossing (R120 to R124): every move keeps it in order. -/

namespace Sys2Proof.Machine

variable {w : Nat} {x : Crossing w}

/-- Order spelled out: the cursor, the published copy, the value before its last change, and the samples. -/
theorem Crossing.inOrder_iff : x.inOrder ↔ x.chain ≠ [] ∧ x.ahead x.bpub ≤ x.ahead x.cursor ∧
    x.ahead x.before ≤ x.ahead x.bpub ∧ (∀ g ∈ x.chain, x.ahead (ungray g) ≤ x.ahead x.before) ∧
    x.chain.Pairwise fun g h => x.ahead (ungray h) ≤ x.ahead (ungray g) := by
  simp only [Crossing.inOrder, List.map_cons, List.map_map, List.pairwise_cons, List.mem_cons, List.mem_map,
    List.pairwise_map, Function.comp_apply, forall_eq_or_imp, forall_exists_index, and_imp, forall_apply_eq_imp_iff₂]
  constructor
  · rintro ⟨hne, ⟨hpub, -, -⟩, ⟨hbefore, -⟩, hchain, hsamples⟩
    exact ⟨hne, hpub, hbefore, hchain, hsamples⟩
  · rintro ⟨hne, hpub, hbefore, hchain, hsamples⟩
    exact ⟨hne, ⟨hpub, hbefore.trans hpub, fun g hg => ((hchain g hg).trans hbefore).trans hpub⟩,
      ⟨hbefore, fun g hg => (hchain g hg).trans hbefore⟩, hchain, hsamples⟩

theorem Crossing.ahead_lt (b : BitVec w) : x.ahead b < 2 ^ w := (b - x.view).isLt

/-- Moving a value forward moves it ahead of the view by as much, as long as it does not lap the view. -/
theorem Crossing.ahead_add {b : BitVec w} {n : Nat} (h : x.ahead b + n < 2 ^ w) :
    x.ahead (b + BitVec.ofNat w n) = x.ahead b + n := by
  have hsub : b + BitVec.ofNat w n - x.view = b - x.view + BitVec.ofNat w n := by
    ring
  rw [Crossing.ahead] at h ⊢
  rw [hsub, BitVec.toNat_add, BitVec.toNat_ofNat, Nat.add_mod_mod, Nat.mod_eq_of_lt h]
  rfl

theorem Crossing.ahead_injective {a b : BitVec w} (h : x.ahead a = x.ahead b) : a = b :=
  sub_left_injective (BitVec.eq_of_toNat_eq h)

/-- A value short of the cursor steps forward by one and does not pass the cursor (R121). -/
theorem Crossing.ahead_step {b : BitVec w} (h : x.ahead b ≤ x.ahead x.cursor) (hne : b ≠ x.cursor) :
    x.ahead (b + 1) = x.ahead b + 1 ∧ x.ahead b + 1 ≤ x.ahead x.cursor := by
  have hlt : x.ahead b < x.ahead x.cursor := lt_of_le_of_ne h fun e => hne (Crossing.ahead_injective e)
  exact ⟨Crossing.ahead_add ((Nat.succ_le_of_lt hlt).trans_lt (Crossing.ahead_lt _)), hlt⟩

/-- From another view on the way, a value is ahead by what is left of the way. -/
theorem Crossing.ahead_of_view {y : Crossing w} {b : BitVec w} (h : x.ahead y.view ≤ x.ahead b) :
    y.ahead b = x.ahead b - x.ahead y.view := by
  have hsub : b - y.view = (b - x.view) - (y.view - x.view) := by ring
  rw [Crossing.ahead, hsub, BitVec.toNat_sub_of_le h]
  rfl

/-! ### The three moves -/

theorem Crossing.inOrder_command (h : x.inOrder) {n : Nat} (hn : x.ahead x.cursor + n < 2 ^ w) :
    (x.command n).inOrder := by
  obtain ⟨hne, hpub, hbefore, hchain, hsamples⟩ := Crossing.inOrder_iff.1 h
  have hcursor : (x.command n).ahead (x.command n).cursor = x.ahead x.cursor + n := Crossing.ahead_add hn
  exact Crossing.inOrder_iff.2 ⟨hne, hcursor ▸ hpub.trans (Nat.le_add_right _ _), hbefore, hchain, hsamples⟩

theorem Crossing.sourceEdge_of_eq (h : x.bpub = x.cursor) : x.sourceEdge = x := if_pos h

theorem Crossing.sourceEdge_of_ne (h : x.bpub ≠ x.cursor) :
    x.sourceEdge = { x with before := x.bpub, bpub := x.bpub + 1 } := if_neg h

theorem Crossing.inOrder_sourceEdge (h : x.inOrder) :
    x.sourceEdge.inOrder ∧ x.sourceEdge.view = x.view ∧ x.sourceEdge.cursor = x.cursor := by
  by_cases heq : x.bpub = x.cursor
  · rw [Crossing.sourceEdge_of_eq heq]
    exact ⟨h, rfl, rfl⟩
  · obtain ⟨hne, hpub, hbefore, hchain, hsamples⟩ := Crossing.inOrder_iff.1 h
    obtain ⟨hstep, hle⟩ := Crossing.ahead_step hpub heq
    rw [Crossing.sourceEdge_of_ne heq]
    exact ⟨Crossing.inOrder_iff.2 ⟨hne, hstep.trans_le hle, hstep ▸ Nat.le_succ _,
      fun g hg => (hchain g hg).trans hbefore, hsamples⟩, rfl, rfl⟩

/-- What a sample edge puts into the chain is between the samples and the published copy (R122). -/
theorem Crossing.sampleEdge_samples (h : x.inOrder) (late : Bool) :
    (∀ g ∈ (x.sampleEdge late).chain, x.ahead (ungray g) ≤ x.ahead x.bpub) ∧
    (x.sampleEdge late).chain.Pairwise fun g h => x.ahead (ungray h) ≤ x.ahead (ungray g) := by
  obtain ⟨-, -, hbefore, hchain, hsamples⟩ := Crossing.inOrder_iff.1 h
  have hnew : x.ahead x.before ≤ x.ahead (if late then x.before else x.bpub) ∧
      x.ahead (if late then x.before else x.bpub) ≤ x.ahead x.bpub := by
    cases late
    · exact ⟨hbefore, Nat.le_refl _⟩
    · exact ⟨Nat.le_refl _, hbefore⟩
  have hkept : ∀ g ∈ x.chain.dropLast, x.ahead (ungray g) ≤ x.ahead x.before := fun g hg =>
    hchain g (List.mem_of_mem_dropLast hg)
  simp only [Crossing.sampleEdge, List.pairwise_cons, List.mem_cons, forall_eq_or_imp, ungray_gray]
  exact ⟨⟨hnew.2, fun g hg => (hkept g hg).trans hbefore⟩, fun g hg => (hkept g hg).trans hnew.1,
    hsamples.sublist (List.dropLast_sublist _)⟩

/-- The view after a sample edge is the least of the new samples. -/
theorem Crossing.sampleEdge_view_le (h : x.inOrder) (late : Bool) {g : BitVec w}
    (hg : g ∈ (x.sampleEdge late).chain) : x.ahead (x.sampleEdge late).view ≤ x.ahead (ungray g) := by
  have hne : (x.sampleEdge late).chain ≠ [] := List.cons_ne_nil _ _
  rw [Crossing.view, List.getLastD_eq_getLast?, List.getLast?_eq_some_getLast hne, Option.getD_some]
  exact (Crossing.sampleEdge_samples h late).2.rel_getLast_of_rel_getLast_getLast hg (Nat.le_refl _)

theorem Crossing.inOrder_sampleEdge (h : x.inOrder) (late : Bool) :
    (x.sampleEdge late).inOrder ∧ x.ahead (x.sampleEdge late).view ≤ x.ahead x.cursor := by
  obtain ⟨-, hpub, -, -, -⟩ := Crossing.inOrder_iff.1 h
  obtain ⟨hbound, hsamples⟩ := Crossing.sampleEdge_samples h late
  have hview := fun g hg => Crossing.sampleEdge_view_le h late (g := g) hg
  have hviewPub : x.ahead (x.sampleEdge late).view ≤ x.ahead x.bpub :=
    (hview _ List.mem_cons_self).trans (hbound _ List.mem_cons_self)
  have hrebase : ∀ {a b : BitVec w}, x.ahead (x.sampleEdge late).view ≤ x.ahead a → x.ahead a ≤ x.ahead b →
      (x.sampleEdge late).ahead a ≤ (x.sampleEdge late).ahead b := fun ha hab => by
    rw [Crossing.ahead_of_view ha, Crossing.ahead_of_view (ha.trans hab)]
    exact Nat.sub_le_sub_right hab _
  refine ⟨Crossing.inOrder_iff.2 ⟨List.cons_ne_nil _ _, hrebase hviewPub hpub, Nat.le_refl _,
    fun g hg => hrebase (hview g hg) (hbound g hg), ?_⟩, hviewPub.trans hpub⟩
  exact hsamples.imp_of_mem fun _ hb hab => hrebase (hview _ hb) hab

/-- Settles O32: the values from the cursor down to the oldest sample stay in order, and the new view is one of them. -/
theorem crossingRefinesViewRule : Obligations.CrossingRefinesViewRule := fun _ _ h =>
  ⟨fun _ hn => ⟨Crossing.inOrder_command h hn, rfl⟩, Crossing.inOrder_sourceEdge h, fun late =>
    ⟨(Crossing.inOrder_sampleEdge h late).1, rfl, (Crossing.inOrder_sampleEdge h late).2⟩⟩

end Sys2Proof.Machine
end

section
/-! SUPPORT. The byte-wide link (R106, R107): the bytes of a word carry the word. -/

namespace Sys2Proof

theorem length_linkBytes {w : Nat} (n : Nat) (v : BitVec w) : (linkBytes n v).length = n := by
  simp [linkBytes]

theorem getElem?_linkBytes {w n j : Nat} (v : BitVec w) (hj : j < n) :
    (linkBytes n v)[j]? = some (v.extractLsb' (8 * j) 8) := by
  simp [linkBytes, hj]

/-- Bit i of a carried word is bit i % 8 of byte i / 8. -/
theorem getLsbD_linkWord {w i : Nat} (bs : List Byte) (hi : i < w) :
    (linkWord w bs).getLsbD i = (bs.getD (i / 8) 0).getLsbD (i % 8) := by
  induction bs generalizing i with
  | nil => simp [linkWord]
  | cons b bs ih =>
    rw [linkWord, BitVec.getLsbD_or, BitVec.getLsbD_shiftLeft, BitVec.getLsbD_setWidth]
    by_cases hlow : i < 8
    · simp [hi, hlow, Nat.div_eq_of_lt hlow, Nat.mod_eq_of_lt hlow]
    · obtain ⟨k, rfl⟩ := Nat.exists_eq_add_of_le (Nat.le_of_not_lt hlow)
      have hdiv : (8 + k) / 8 = k / 8 + 1 := by omega
      simp [hi, hdiv, ih (show k < w by omega)]

/-- Enough bytes of a word give the word back (R107). -/
theorem linkWord_linkBytes {w n : Nat} (v : BitVec w) (h : w ≤ 8 * n) : linkWord w (linkBytes n v) = v := by
  refine BitVec.eq_of_getLsbD_eq fun i hi => ?_
  have hbyte : (linkBytes n v).getD (i / 8) 0 = v.extractLsb' (8 * (i / 8)) 8 := by
    rw [List.getD_eq_getElem?_getD, getElem?_linkBytes v (by omega), Option.getD_some]
  rw [getLsbD_linkWord _ hi, hbyte, BitVec.getLsbD_extractLsb', Nat.div_add_mod]
  simp [Nat.mod_lt]

theorem bytesWord_wordBytes (w : Word64) : bytesWord (wordBytes w) = w := linkWord_linkBytes w (by decide)

theorem length_wordBytes (w : Word64) : (wordBytes w).length = 8 := length_linkBytes 8 w

/-- The front of a byte stream that begins with a command word. -/
theorem decodeBytes_wordBytes (w : Word64) (rest : List Byte) :
    decodeBytes (wordBytes w ++ rest) = (decodeWord w).map fun i => (i, rest) := by
  have hlen : ¬ (wordBytes w ++ rest).length < 8 := by simp [length_wordBytes]
  rw [decodeBytes, if_neg hlen, List.take_left' (length_wordBytes w), List.drop_left' (length_wordBytes w),
    bytesWord_wordBytes]
  cases decodeWord w <;> rfl

theorem bytesStream_streamBytes (xs : List Word) (rest : List Byte) :
    bytesStream xs.length (streamBytes xs ++ rest) = xs := by
  induction xs with
  | nil => rfl
  | cons x xs ih =>
    have hlen : (dataBytes x).length = 4 := length_linkBytes 4 x
    have hword : linkWord 32 (dataBytes x) = x := linkWord_linkBytes x (by decide)
    rw [streamBytes, List.flatMap_cons, List.append_assoc, List.length_cons, bytesStream, List.take_left' hlen,
      List.drop_left' hlen, hword, ← streamBytes, ih]

/-- Settles O5: the bytes of a word are its slices of eight bits, and eight or four of them give the word back. -/
theorem byteLinkIsLittleEndian : Obligations.ByteLinkIsLittleEndian := by
  refine ⟨fun w rest => ⟨length_wordBytes w, fun j hj => getElem?_linkBytes w hj, bytesWord_wordBytes w,
    fun i hi => ?_, fun e he => ?_⟩, fun x => ⟨length_linkBytes 4 x, fun j hj => getElem?_linkBytes x hj⟩,
    bytesStream_streamBytes⟩
  · rw [decodeBytes_wordBytes, hi]; rfl
  · rw [decodeBytes_wordBytes, he]; rfl

end Sys2Proof
end

section
/-! SUPPORT. A SYNC move (R124, R125): the views its draw reaches, and the turn that makes it. -/

namespace Sys2Proof.Machine

/-- Settles O28: the draw is one less than the distance to the view it reaches. -/
theorem syncDrawsReachEveryAllowedView : Obligations.SyncDrawsReachEveryAllowedView := by
  intro w view cursor v hview hcursor hv hne
  constructor
  · rintro ⟨draw, rfl⟩
    obtain ⟨-, hpos, hadd⟩ := syncTarget_spec (draw := draw) hview hcursor hne
    exact ⟨hpos, by omega⟩
  · rintro ⟨hpos, hle⟩
    refine ⟨dist w view v - 1, ?_⟩
    have hdraw : 1 + (dist w view v - 1) % dist w view cursor = dist w view v := by
      rw [Nat.mod_eq_of_lt (by omega)]; omega
    rw [syncTarget, hdraw, advance_dist hview hv]

/-- The turn of a scheduled agent that exists. -/
theorem step_scheduled {s : State} {e : Event} {rest : List Event} (h : s.sched = e :: rest) :
    step s = runEvent e { s with sched := rest } := by
  rw [step, h]

theorem step_syncW2R {s : State} {i draw : Nat} {rest : List Event} (hs : s.sched = .syncW2R i draw :: rest)
    (hi : i < s.cfg.nRb) : step s = .next (State.syncW2R { s with sched := rest } i draw) :=
  (step_scheduled hs).trans (if_pos (decide_eq_true hi))

theorem step_syncR2W {s : State} {i draw : Nat} {rest : List Event} (hs : s.sched = .syncR2W i draw :: rest)
    (hi : i < s.cfg.nRb) : step s = .next (State.syncR2W { s with sched := rest } i draw) :=
  (step_scheduled hs).trans (if_pos (decide_eq_true hi))

/-- When SYNC_W2R[i] has a move, with the placement of the ports spelled out (R124, R125). -/
theorem State.w2rEnabled_iff_placed (s : State) (i : Nat) : s.w2rEnabled i = true ↔
    (producerDomain s.cfg i ≠ consumerDomain s.cfg i ∧ (s.rb i).pending = false) ∧ (s.rb i).wview ≠ (s.rb i).wr := by
  rw [State.w2rEnabled_iff, ← Bool.not_eq_true, sameDomain_iff, and_assoc]

theorem State.r2wEnabled_iff_placed (s : State) (i : Nat) : s.r2wEnabled i = true ↔
    (producerDomain s.cfg i ≠ consumerDomain s.cfg i ∧ (s.rb i).pending = false) ∧ (s.rb i).rview ≠ (s.rb i).rd := by
  rw [State.r2wEnabled_iff, ← Bool.not_eq_true, sameDomain_iff, and_assoc]

/-- Settles O29: the turn replaces the view where the view rule enables it, and leaves the state where it does not. -/
theorem syncTurnMovesOnlyTheView : Obligations.SyncTurnMovesOnlyTheView := by
  intro s i draw rest hi _
  refine ⟨fun hs => ?_, fun hs => ?_⟩
  · rw [step_syncW2R hs hi]
    have hiff := State.w2rEnabled_iff_placed { s with sched := rest } i
    refine ⟨fun h => congrArg _ (State.syncW2R_of_enabled (hiff.2 h)), fun h => congrArg _ ?_⟩
    exact State.syncW2R_of_disabled (Bool.eq_false_iff.2 fun he => h (hiff.1 he))
  · rw [step_syncR2W hs hi]
    have hiff := State.r2wEnabled_iff_placed { s with sched := rest } i
    refine ⟨fun h => congrArg _ (State.syncR2W_of_enabled (hiff.2 h)), fun h => congrArg _ ?_⟩
    exact State.syncR2W_of_disabled (Bool.eq_false_iff.2 fun he => h (hiff.1 he))

end Sys2Proof.Machine
end

section
/-! SUPPORT. Frames in and out of a ring (R211 to R213, R221, R222, R231): what an accepted RB.WRITE and an accepted
RB.READ make of the state, and the frames a ring holds. -/

namespace Sys2Proof.Machine

/-! ### Accepted commands -/

theorem execRbWrite_accepted {s : State} {n : BitVec 4} {a : BitVec 24}
    (home : homeDomain s.cfg (.rbp n.toNat) = some s.cur.dom) (hinit : (s.rb n.toNat).init = true)
    (hlen : s.cur.offered.length = a.toNat * (s.rb n.toNat).ch) :
    exec (.rbWrite n a) s = .next
      ((s.setRb n.toNat ((s.rb n.toNat).written s.cfg.ptrW (sameDomain s.cfg n.toNat) s.dataIn
        ((s.rb n.toNat).writeCount s.cfg.ptrW a.toNat))).respond .ok
        (countVal ((s.rb n.toNat).writeCount s.cfg.ptrW a.toNat))
        ((s.rb n.toNat).writeCount s.cfg.ptrW a.toNat * (s.rb n.toNat).ch) []) :=
  (congrArg _ (State.onPort_home home)).trans (by simp [hinit, hlen, State.offers, count])

theorem execRbRead_accepted {s : State} {n : BitVec 4} {a : BitVec 24}
    (home : homeDomain s.cfg (.rbc n.toNat) = some s.cur.dom) (hidle : (s.rb n.toNat).pending = false)
    (hcinit : (s.rb n.toNat).cinit = true) :
    exec (.rbRead n a) s = .next
      ((s.setRb n.toNat ((s.rb n.toNat).consumed s.cfg.ptrW (sameDomain s.cfg n.toNat)
        ((s.rb n.toNat).readCount s.cfg.ptrW a.toNat))).respond .ok
        (countVal ((s.rb n.toNat).readCount s.cfg.ptrW a.toNat)) 0
        ((s.rb n.toNat).loadFrames ((s.rb n.toNat).readCount s.cfg.ptrW a.toNat))) :=
  (congrArg _ (State.onPort_home home)).trans (by simp [hidle, hcinit, count])

/-- The ring that an accepted command of its ports leaves. -/
theorem State.rb_setRb_respond {s : State} {i : Nat} (hz : Sized s) (hi : i < s.cfg.nRb) (r : Rb) (st : Status)
    (v : Word64) (n : Nat) (out : List Word) : ((s.setRb i r).respond st v n out).rb i = r := by
  rw [State.rb_respond, State.rb_setRb_self s r (hz.rbs ▸ hi)]

/-- Word c of frame f is among the words of k frames. -/
theorem frameWord_lt {f k c ch : Nat} (hf : f < k) (hc : c < ch) : f * ch + c < k * ch :=
  Nat.mul_comm ch f ▸ Nat.mul_add_lt_mul_of_lt_of_lt hf hc

/-- Settles O20: the ring after the command is the ring with the frames stored and the cursor moved. -/
theorem writeStoresFramesAndAdvances : Obligations.WriteStoresFramesAndAdvances := by
  intro s n a hadm hinit hlen
  have hi := (home_rbp hadm.home).1
  have hcount : (s.rb n.toNat).writeCount s.cfg.ptrW a.toNat ≤ (s.rb n.toNat).cap :=
    (Nat.min_le_right _ _).trans (Nat.sub_le _ _)
  refine ⟨_, execRbWrite_accepted hadm.home hinit hlen, onlyRing_respond, answers_respond rfl rfl hadm.dom_lt, ?_⟩
  rw [State.rb_setRb_respond hadm.sized hi]
  refine ⟨?_, fun f hf c hc => ?_, fun x hx => Rb.read_store_out hx⟩
  · simp only [Rb.written, sameDomain_iff]; rfl
  · have hlt : f * (s.rb n.toNat).ch + c < s.cur.offered.length :=
      hlen ▸ frameWord_lt (hf.trans_le (Nat.min_le_left _ _)) hc
    rw [List.getElem?_eq_getElem hlt]
    refine (Rb.read_store_in hcount hf hc).trans ?_
    rw [State.dataIn, List.getD_eq_getElem _ _ hlt]

/-! ### Delivered words -/

theorem Rb.length_loadFrames (rb : Rb) (k : Nat) : (rb.loadFrames k).length = k * rb.ch := by
  simp [Rb.loadFrames]

/-- Word c of frame f among the delivered words (R221). -/
theorem Rb.getElem?_loadFrames {rb : Rb} {k f c : Nat} (hf : f < k) (hc : c < rb.ch) :
    (rb.loadFrames k)[f * rb.ch + c]? = some (Mem.word rb.mem (rb.wordIndex (rb.rd + f) c)) := by
  have hpos : 0 < rb.ch := Nat.zero_lt_of_lt hc
  have hdiv : (f * rb.ch + c) / rb.ch = f := by
    rw [Nat.mul_comm, Nat.mul_add_div hpos, Nat.div_eq_of_lt hc, Nat.add_zero]
  have hmod : (f * rb.ch + c) % rb.ch = c := by rw [Nat.mul_comm, Nat.mul_add_mod, Nat.mod_eq_of_lt hc]
  simp [Rb.loadFrames, List.getElem?_range (frameWord_lt hf hc), hdiv, hmod]

theorem Mem.word_of_read {m : Mem} {a : Nat} {v : Word} (h : Mem.read m a = some v) : Mem.word m a = v := by
  rw [Mem.word, h, Option.getD_some]

/-- Settles O21: the delivered words are those at the frames from rd on, and the ring is the ring with the cursor moved. -/
theorem readDeliversFramesAndAdvances : Obligations.ReadDeliversFramesAndAdvances := by
  intro s n a hadm hidle hcinit
  have hi := (home_rbc hadm.home).1
  refine ⟨_, _, execRbRead_accepted hadm.home hidle hcinit, onlyRing_respond, answers_respond rfl rfl hadm.dom_lt,
    Rb.length_loadFrames _ _, fun f hf c hc v hv => ?_, ?_⟩
  · rw [← Mem.word_of_read hv]
    exact Rb.getElem?_loadFrames hf hc
  · rw [State.rb_setRb_respond hadm.sized hi]
    simp only [Rb.consumed, sameDomain_iff]; rfl

/-! ### The frames a ring holds -/

/-- Which frames a ring holds depends on its shape, its true cursors and its storage alone. -/
theorem Rb.unread_congr {rb r : Rb} (w : Nat) (hcap : r.cap = rb.cap) (hch : r.ch = rb.ch) (hwr : r.wr = rb.wr)
    (hrd : r.rd = rb.rd) (hmem : r.mem = rb.mem) : r.unread w = rb.unread w := by
  simp only [Rb.unread, Rb.frame, Rb.wordIndex, Rb.slot, hcap, hch, hwr, hrd, hmem]

/-- The capacity of an initialised ring is a power of two that divides the cursors' range (R43, R9). -/
theorem RingInv.cap_eq_two_pow {c : Config} {i : Nat} {rb : Rb} (hl : Legal c) (h : RingInv c i rb)
    (hinit : rb.init = true) : ∃ k ≤ c.ptrW, rb.cap = 2 ^ k := by
  rcases h.capacity with h0 | ⟨k, -, hk⟩
  · have := (h.configured hinit).1
    omega
  · exact ⟨k, h.log_le hl hk, hk⟩

/-- The frames from a point on: the first k of them, and those from k further on. -/
theorem Rb.unread_eq_append {w m k : Nat} {rb : Rb} (hm : m ≤ w) (hcap : rb.cap = 2 ^ m) (hwr : rb.wr < 2 ^ w)
    (hrd : rb.rd < 2 ^ w) (hk : k ≤ dist w rb.rd rb.wr) (same : Bool) :
    rb.unread w = (List.range k).map (fun f => rb.frame (rb.rd + f)) ++ (rb.consumed w same k).unread w := by
  have hleft : dist w (advance w rb.rd k) rb.wr = dist w rb.rd rb.wr - k := dist_advance_left hrd hwr hk
  have hframe : ∀ f, (rb.consumed w same k).frame (advance w rb.rd k + f) = rb.frame (rb.rd + (k + f)) := fun f =>
    List.map_congr_left fun c _ =>
      congrArg (Mem.read rb.mem) ((Rb.wordIndex_advance hcap hm).trans (by rw [Nat.add_assoc]))
  have hrest : (rb.consumed w same k).unread w =
      (List.range (dist w rb.rd rb.wr - k)).map fun f => rb.frame (rb.rd + (k + f)) := by
    rw [← hleft]
    exact List.map_congr_left fun f _ => hframe f
  rw [hrest, Rb.unread, ← Nat.add_sub_of_le hk, List.range_add, List.map_append, List.map_map, Nat.add_sub_cancel_left]
  rfl

/-- The delivered words, in frames, are the frames read, where all their words were written (R103, R221). -/
theorem Rb.framesOf_loadFrames {rb : Rb} {k : Nat}
    (hwritten : ∀ f < k, ∀ c < rb.ch, (Mem.read rb.mem (rb.wordIndex (rb.rd + f) c)).isSome = true) :
    framesOf rb.ch k (rb.loadFrames k) = (List.range k).map fun f => rb.frame (rb.rd + f) := by
  refine List.map_congr_left fun f hf => List.map_congr_left fun c hc => ?_
  rw [List.mem_range] at hf hc
  obtain ⟨v, hv⟩ := Option.isSome_iff_exists.1 (hwritten f hf c hc)
  rw [Rb.getElem?_loadFrames hf hc, hv, Mem.word_of_read hv]

/-- Settles O23: the frames read are the first of the frames held, and every one of them was written. -/
theorem readTakesOldestUnreadFrames : Obligations.ReadTakesOldestUnreadFrames := by
  intro s t n a c hinv home hcinit hexec hans
  obtain ⟨hi, hdom⟩ := home_rbc home
  have hring := hinv.rings _ hi
  have hinit : (s.rb n.toNat).init = true := hring.sides.trans hcinit
  have hidle := hring.idle hinit
  have hdomlt : s.cur.dom < s.fabs.length := by
    rw [hinv.sized.fabs, ← hdom]
    exact (hinv.legal.placed _ hi).2
  obtain rfl := Host.Outcome.next.inj (hexec.symm.trans (execRbRead_accepted home hidle hcinit))
  obtain rfl := answers_unique hans (answers_respond rfl rfl hdomlt)
  have hk : (s.rb n.toNat).readCount s.cfg.ptrW a.toNat ≤ dist s.cfg.ptrW (s.rb n.toNat).rd (s.rb n.toNat).wr :=
    (Nat.min_le_right _ _).trans ((hring.dist_bounds hinv.legal hidle).1 ▸ Nat.le_add_right _ _)
  obtain ⟨m, hm, hcap⟩ := hring.cap_eq_two_pow hinv.legal hinit
  obtain ⟨hwr, -, hrd, -⟩ := hring.widths
  rw [State.rb_setRb_respond hinv.sized hi, Rb.unread_eq_append hm hcap hwr hrd hk (sameDomain s.cfg n.toNat)]
  exact congrArg (· ++ _) (Rb.framesOf_loadFrames fun f hf => hring.written hidle f (hf.trans_le hk)).symm

end Sys2Proof.Machine
end

section
/-! SUPPORT. What leaves the frames of a ring alone (R131, R132, R134): every move but a command of the ring's own ports
and the block reset. -/

namespace Sys2Proof.Machine

/-! ### A command of another port leaves the ring as it is -/

theorem State.rb_raise_of_ne {s : State} {e : ErrKind} {p : Option Port} {i : Nat} (hp : p ≠ some (.rbp i))
    (hc : p ≠ some (.rbc i)) : (s.raise e p).rb i = s.rb i := by
  rw [State.raise, State.rb_respond, State.rb_record]
  match p with
  | none | some (.rs _) | some (.ola _) => rfl
  | some (.rbp j) => exact State.rb_setRb_ne s _ fun h => hp (h ▸ rfl)
  | some (.rbc j) => exact State.rb_setRb_ne s _ fun h => hc (h ▸ rfl)

theorem State.rb_ite {b : Prop} [Decidable b] {t u : State} {i : Nat} {r : Rb} (ht : t.rb i = r) (hu : u.rb i = r) :
    (if b then t else u).rb i = r := by
  split
  · exact ht
  · exact hu

/-- A command away from its port's domain is charged to no ring. -/
theorem State.rb_onPort {s t : State} {p : Port} {i : Nat} (h : t.rb i = s.rb i) : (s.onPort p t).rb i = s.rb i :=
  State.rb_ite h (State.rb_raise_of_ne nofun nofun)

/-- A command stores and raises on its own port alone. -/
theorem exec_rb_of_port_ne {c : Instr} {s t : State} {i : Nat} (h : exec c s = .next t) (hp : c.port ≠ .rbp i)
    (hc : c.port ≠ .rbc i) : t.rb i = s.rb i := by
  have hraise : ∀ e, (s.raise e (some c.port)).rb i = s.rb i := fun e =>
    State.rb_raise_of_ne (fun he => hp (Option.some.inj he)) fun he => hc (Option.some.inj he)
  have hreg : ∀ r, (s.answerReg c.port r).rb i = s.rb i := fun r => by
    cases r with
    | none => exact hraise _
    | some v => rfl
  cases c with
  | rbInit n a b =>
    have hset := fun r => State.rb_setRb_ne s (i := n.toNat) (n := i) r fun e => hp (e ▸ rfl)
    cases h; exact State.rb_onPort (State.rb_ite (State.rb_ite (hset _) (hset _)) rfl)
  | rbWrite n a =>
    have hset := fun r => State.rb_setRb_ne s (i := n.toNat) (n := i) r fun e => hp (e ▸ rfl)
    cases h; exact State.rb_onPort (State.rb_ite (hraise _) (State.rb_ite (hraise _) (hset _)))
  | rbRead n a =>
    have hset := fun r => State.rb_setRb_ne s (i := n.toNat) (n := i) r fun e => hc (e ▸ rfl)
    cases h; exact State.rb_onPort (State.rb_ite (hraise _) (State.rb_ite (hraise _) (hset _)))
  | rbPavail | olaPop => cases h; exact State.rb_onPort (State.rb_ite (hraise _) rfl)
  | rbCavail | rsRun => cases h; exact State.rb_onPort (State.rb_ite (hraise _) (State.rb_ite (hraise _) rfl))
  | olaPush =>
    cases h; exact State.rb_onPort (State.rb_ite (hraise _) (State.rb_ite (hraise _) (State.rb_ite (hraise _) rfl)))
  | rbCstat => cases h; exact State.rb_onPort (State.rb_ite (hraise _) (hreg _))
  | rbPstat | rsStat | olaStat => cases h; exact State.rb_onPort (hreg _)
  | rsCfg | rsReset | olaReset => cases h; exact State.rb_onPort rfl

/-! ### Moves that leave the frames of the ring they touch -/

/-- Replacing a ring by one that holds the same frames leaves the frames of every ring. -/
theorem State.unread_setRb {s : State} {w j : Nat} {r : Rb} (h : r.unread w = (s.rb j).unread w) (i : Nat) :
    ((s.setRb j r).rb i).unread w = (s.rb i).unread w := by
  simp only [State.rb, State.setRb, getD_set]
  split
  · next hij => rw [h, hij.1]; rfl
  · rfl

/-- An error bit is no part of a frame. -/
theorem State.unread_raise (s : State) (e : ErrKind) (p : Option Port) (w i : Nat) :
    ((s.raise e p).rb i).unread w = (s.rb i).unread w := by
  rw [State.raise, State.rb_respond, State.rb_record]
  match p with
  | none | some (.rs _) | some (.ola _) => rfl
  | some (.rbp _) | some (.rbc _) => exact State.unread_setRb (by exact Rb.unread_congr w rfl rfl rfl rfl rfl) i

theorem State.unread_syncW2R (s : State) (j draw w i : Nat) :
    ((s.syncW2R j draw).rb i).unread w = (s.rb i).unread w := by
  cases he : s.w2rEnabled j with
  | true =>
    rw [State.syncW2R_of_enabled he]
    exact State.unread_setRb (by exact Rb.unread_congr w rfl rfl rfl rfl rfl) i
  | false => rw [State.syncW2R_of_disabled he]

theorem State.unread_syncR2W (s : State) (j draw w i : Nat) :
    ((s.syncR2W j draw).rb i).unread w = (s.rb i).unread w := by
  cases he : s.r2wEnabled j with
  | true =>
    rw [State.syncR2W_of_enabled he]
    exact State.unread_setRb (by exact Rb.unread_congr w rfl rfl rfl rfl rfl) i
  | false => rw [State.syncR2W_of_disabled he]

/-- An acknowledge moves the cursors of the ring whose INIT is pending alone (R206). -/
theorem State.rb_initAck_of_idle {s : State} {i : Nat} (h : (s.rb i).pending = false) (j : Nat) :
    (s.initAck j).rb i = s.rb i := by
  cases hp : (s.rb j).pending with
  | true =>
    have hne : i ≠ j := fun e => by rw [e, hp] at h; cases h
    rw [State.initAck_of_pending hp, State.rb_complete, State.rb_setRb_ne s _ hne]
  | false => rw [State.initAck_of_not_pending hp]

/-! ### The command on the port -/

theorem port_of_needZero {f : BitVec 24} {c i : Instr} (h : needZero f c = .ok i) : i.port = c.port := by
  unfold needZero at h
  split at h
  · cases h; rfl
  · cases h

theorem port_of_needZeros {f g v : BitVec 24} {c i : Instr}
    (h : (if f = v then needZero g c else .error .operandNotZero) = .ok i) : i.port = c.port := by
  split at h
  · exact port_of_needZero h
  · cases h

theorem port_of_decodeCfg {n : BitVec 4} {a b : BitVec 24} {i : Instr} (h : decodeCfg n a b = .ok i) :
    i.port = .rs n.toNat := by
  unfold decodeCfg at h
  split at h
  · exact port_of_needZero h
  · exact port_of_needZeros h

/-- A word that decodes names the port of its command: UNIT selects both (R152, R153). -/
theorem portOf_of_decodeWord {w : Word64} {i : Instr} (h : decodeWord w = .ok i) : portOf w = some i.port := by
  unfold decodeWord at h
  split at h
  case isFalse => cases h
  unfold decodeRow at h
  split at h
  case h_1 hu _ | h_12 hu _ => cases h; rw [portOf, hu]; rfl
  case h_2 hu _ | h_4 hu _ | h_6 hu _ | h_8 hu _ | h_13 hu _ | h_16 hu _ | h_17 hu _ | h_18 hu _ =>
    rw [portOf, hu, port_of_needZero h]; rfl
  case h_3 hu _ | h_7 hu _ | h_11 hu _ | h_15 hu _ => rw [portOf, hu, port_of_needZeros h]; rfl
  case h_10 hu _ => rw [portOf, hu, port_of_decodeCfg h]; rfl
  case h_5 | h_9 | h_14 | h_19 | h_20 => cases h

/-- A command word that names no port of ring i leaves the frames of ring i, whether it decodes or not. -/
theorem runCommand_unread {s t : State} {i : Nat} (w : Nat) (h : runCommand s = .next t)
    (hp : portOf s.cur.word ≠ some (.rbp i)) (hc : portOf s.cur.word ≠ some (.rbc i)) :
    (t.rb i).unread w = (s.rb i).unread w := by
  unfold runCommand at h
  split at h
  · next c hdec =>
    rw [portOf_of_decodeWord hdec] at hp hc
    rw [exec_rb_of_port_ne h (fun e => hp (e ▸ rfl)) fun e => hc (e ▸ rfl)]
  · cases h
    exact State.unread_raise _ _ _ _ _

/-- The turn of an agent that changes the frames of ring i is a command of the ring's own ports, or the block reset. -/
theorem runEvent_unread {s t : State} {e : Event} {i : Nat} (w : Nat) (hidle : (s.rb i).pending = false)
    (h : runEvent e s = .next t) (hne : (t.rb i).unread w ≠ (s.rb i).unread w) :
    (∃ d r, e = .host d ∧ s.nextRequest d = some r ∧
      (portOf r.word = some (.rbp i) ∨ portOf r.word = some (.rbc i))) ∨ e = .blockReset := by
  cases runEvent_turn h with
  | idle => exact absurd rfl hne
  | issued d r t next dom effect =>
    refine .inl ⟨d, r, rfl, next, by_contra fun hports => hne ?_⟩
    have hrun : runCommand (s.takeRequest d r) = .next t := by
      simpa [runEvent, State.agentExists, dom, hostTurn, next] using h
    exact runCommand_unread (s := s.takeRequest d r) w hrun (fun hp => hports (.inl hp)) fun hc => hports (.inr hc)
  | initAck j => exact absurd (congrArg (Rb.unread w) (State.rb_initAck_of_idle hidle j)) hne
  | syncW2R j draw => exact absurd (State.unread_syncW2R s j draw w i) hne
  | syncR2W j draw => exact absurd (State.unread_syncR2W s j draw w i) hne
  | blockReset => exact .inr rfl

/-- `step_turn` with the event that ran, so that the command of a host's turn is still known. -/
theorem step_runEvent {s t : State} (h : step s = .next t) :
    (∃ e rest, s.sched = e :: rest ∧ runEvent e { s with sched := rest } = .next t) ∨
    (s.sched = [] ∧ ∃ e, s.fairEvent = some e ∧ runEvent e { s with draws := s.draws + 1 } = .next t) ∨ t = s := by
  unfold step at h
  split at h
  · next e rest hs => exact .inl ⟨e, rest, hs, h⟩
  · next hs =>
    split at h
    · next e he => exact .inr (.inl ⟨hs, e, he, h⟩)
    · cases h; exact .inr (.inr rfl)

theorem State.fairEvent_ne_blockReset (s : State) : s.fairEvent ≠ some .blockReset := fun h =>
  absurd (List.find?_some h) (by simp [State.enabled])

/-- Settles O24: the step is a turn, and of the turns only those two change the frames of the ring. -/
theorem onlyRingCommandsChangeUnreadFrames : Obligations.OnlyRingCommandsChangeUnreadFrames := by
  intro s t i hidle hstep hne
  rcases step_runEvent hstep with ⟨e, rest, hs, h⟩ | ⟨hs, e, he, h⟩ | rfl
  · rcases runEvent_unread (s := { s with sched := rest }) s.cfg.ptrW hidle h hne with ⟨d, r, rfl, hnext, hport⟩ | rfl
    · exact .inl ⟨d, r, .inl (by rw [hs]; rfl), hnext, hport⟩
    · exact .inr (by rw [hs]; rfl)
  · rcases runEvent_unread (s := { s with draws := s.draws + 1 }) s.cfg.ptrW hidle h hne with
      ⟨d, r, rfl, hnext, hport⟩ | rfl
    · exact .inl ⟨d, r, .inr ⟨hs, he⟩, hnext, hport⟩
    · exact absurd he s.fairEvent_ne_blockReset
  · exact absurd rfl hne

end Sys2Proof.Machine
end

section
/-! SUPPORT. The command word and its command (R151 to R158, R162): the fields of a word, the round trip both ways, and
the rows of the opcode map. -/

namespace Sys2Proof

/-! ### A word and its fields -/

theorem bitVec_append_inj {v w : Nat} {x x' : BitVec v} {y y' : BitVec w} :
    x ++ y = x' ++ y' ↔ x = x' ∧ y = y' := by
  refine ⟨fun h => ⟨?_, ?_⟩, fun ⟨hx, hy⟩ => hx ▸ hy ▸ rfl⟩
  · simpa only [BitVec.extractLsb'_append_eq_left] using congrArg (BitVec.extractLsb' w v) h
  · simpa only [BitVec.extractLsb'_append_eq_right] using congrArg (BitVec.extractLsb' 0 w) h

/-- The word of six fields, RSV among them (R151). -/
def wordOf (u o n r : BitVec 4) (b a : BitVec 24) : Word64 := u ++ o ++ n ++ r ++ b ++ a

theorem packWord_eq_wordOf (u o n : BitVec 4) (b a : BitVec 24) : packWord u o n b a = wordOf u o n 0 b a := rfl

theorem wordOf_eq_wordOf_iff {u o n r u' o' n' r' : BitVec 4} {b a b' a' : BitVec 24} :
    wordOf u o n r b a = wordOf u' o' n' r' b' a' ↔ u = u' ∧ o = o' ∧ n = n' ∧ r = r' ∧ b = b' ∧ a = a' := by
  have h : u ++ o ++ n ++ r ++ b ++ a = u' ++ o' ++ n' ++ r' ++ b' ++ a' ↔
      u = u' ∧ o = o' ∧ n = n' ∧ r = r' ∧ b = b' ∧ a = a' := by simp only [bitVec_append_inj, and_assoc]
  exact h

theorem wordOf_and_wordOf (u o n r u' o' n' r' : BitVec 4) (b a b' a' : BitVec 24) :
    wordOf u o n r b a &&& wordOf u' o' n' r' b' a' =
      wordOf (u &&& u') (o &&& o') (n &&& n') (r &&& r') (b &&& b') (a &&& a') := by
  have h : (u ++ o ++ n ++ r ++ b ++ a) &&& (u' ++ o' ++ n' ++ r' ++ b' ++ a') =
      (u &&& u') ++ (o &&& o') ++ (n &&& n') ++ (r &&& r') ++ (b &&& b') ++ (a &&& a') := by
    simp only [BitVec.and_append]
  exact h

/-- Every word is the word of its fields. -/
theorem wordOf_fields (w : Word64) : wordOf (unitOf w) (opOf w) (instOf w) (rsvOf w) (opB w) (opA w) = w := by
  simp only [wordOf, unitOf, opOf, instOf, rsvOf, opB, opA, Nat.reduceAdd, BitVec.extractLsb'_eq_self,
    BitVec.extractLsb'_append_extractLsb'_eq_extractLsb' (w := 64)]

/-- A word is a packed word exactly when its fields are those, and RSV is zero (R151, R157). -/
theorem eq_packWord_iff {w : Word64} {u o n : BitVec 4} {b a : BitVec 24} : w = packWord u o n b a ↔
    unitOf w = u ∧ opOf w = o ∧ instOf w = n ∧ rsvOf w = 0 ∧ opB w = b ∧ opA w = a := by
  conv_lhs => rw [← wordOf_fields w, packWord_eq_wordOf, wordOf_eq_wordOf_iff]

theorem decodeWord_packWord (u o n : BitVec 4) (b a : BitVec 24) :
    decodeWord (packWord u o n b a) = decodeRow u o n a b := by
  obtain ⟨hu, ho, hn, hr, hb, ha⟩ := eq_packWord_iff.1 (Eq.refl (packWord u o n b a))
  rw [decodeWord, if_pos hr, hu, ho, hn, hb, ha]

/-! ### The round trip -/

/-- Settles O2: a packed word decodes by the row of its UNIT and OP, and each row gives back its command. -/
theorem decodeOfEncodeIsTheCommand : Obligations.DecodeOfEncodeIsTheCommand := by
  intro i
  cases i with
  | rsCfg n m => cases m <;> exact decodeWord_packWord ..
  | _ => exact decodeWord_packWord ..

theorem needZero_eq_ok {f : BitVec 24} {c i : Instr} (h : needZero f c = .ok i) : f = 0 ∧ i = c := by
  unfold needZero at h
  split at h
  next hf => cases h; exact ⟨hf, rfl⟩
  next => cases h

/-- Two operand fields that must be zero, or one that must hold a value and one that must be zero (R158). -/
theorem needZeros_eq_ok {f g v : BitVec 24} {c i : Instr}
    (h : (if f = v then needZero g c else .error .operandNotZero) = .ok i) : f = v ∧ g = 0 ∧ i = c := by
  split at h
  next hf => exact ⟨hf, needZero_eq_ok h⟩
  next => cases h

theorem encode_of_decodeCfg {n : BitVec 4} {a b : BitVec 24} {i : Instr} (h : decodeCfg n a b = .ok i) :
    encode i = packWord 3 0 n b a := by
  unfold decodeCfg at h
  split at h
  next ha => obtain ⟨rfl, rfl⟩ := needZero_eq_ok h; rw [ha]; rfl
  next => obtain ⟨rfl, rfl, rfl⟩ := needZeros_eq_ok h; rfl

/-- The row of the decoder that answers with a command is the row the command is packed by (R153). -/
theorem encode_of_decodeRow {u o n : BitVec 4} {a b : BitVec 24} {i : Instr} (h : decodeRow u o n a b = .ok i) :
    encode i = packWord u o n b a := by
  have hfield : ∀ {x : BitVec 4} {k : Nat}, x.toNat = k → x = BitVec.ofNat 4 k := fun h => by
    rw [← h, BitVec.ofNat_toNat, BitVec.setWidth_eq]
  unfold decodeRow at h
  split at h
  case h_1 hu ho | h_12 hu ho => cases h; rw [hfield hu, hfield ho]; rfl
  case h_2 hu ho | h_4 hu ho | h_6 hu ho | h_8 hu ho | h_13 hu ho | h_16 hu ho | h_17 hu ho | h_18 hu ho =>
    obtain ⟨rfl, rfl⟩ := needZero_eq_ok h; rw [hfield hu, hfield ho]; rfl
  case h_3 hu ho | h_7 hu ho | h_11 hu ho | h_15 hu ho =>
    obtain ⟨rfl, rfl, rfl⟩ := needZeros_eq_ok h; rw [hfield hu, hfield ho]; rfl
  case h_10 hu ho => rw [hfield hu, hfield ho]; exact encode_of_decodeCfg h
  case h_5 | h_9 | h_14 | h_19 | h_20 => cases h

/-- Settles O3: RSV of a word that decodes is zero, so the word is packed from its fields, and by its command's row. -/
theorem encodeOfDecodeIsTheWord : Obligations.EncodeOfDecodeIsTheWord := by
  intro w i h
  unfold decodeWord at h
  split at h
  next hr => rw [encode_of_decodeRow h]; exact (eq_packWord_iff.2 ⟨rfl, rfl, rfl, hr, rfl, rfl⟩).symm
  next => cases h

/-- The words that decode are the words of the commands. -/
theorem decodes_iff_encodes {w : Word64} : (∃ i, decodeWord w = .ok i) ↔ ∃ i, encode i = w :=
  ⟨fun ⟨i, h⟩ => ⟨i, encodeOfDecodeIsTheWord w i h⟩, fun ⟨i, h⟩ => ⟨i, h ▸ decodeOfEncodeIsTheCommand i⟩⟩

/-- Settles O1: each example word is the word of its command. -/
theorem exampleWordsDecode : Obligations.ExampleWordsDecode :=
  ⟨decodeOfEncodeIsTheCommand (.rbInit 0 100 2), decodeOfEncodeIsTheCommand (.rbWrite 0 200),
    decodeOfEncodeIsTheCommand (.rbRead 2 192), decodeOfEncodeIsTheCommand (.rsCfg 1 .int),
    decodeOfEncodeIsTheCommand (.rsRun 0 10 100), decodeOfEncodeIsTheCommand (.olaPop 0 96)⟩

/-! ### The rows of the opcode map -/

/-- A row of the opcode map by its fields: UNIT and OP, and the bits of B and of A that must be zero (R153, R158). -/
structure OpcodeRow where
  unit : BitVec 4
  op : BitVec 4
  bZero : BitVec 24
  aZero : BitVec 24

/-- The match and mask words of a row: all of UNIT, OP and RSV count, and nothing of INST. -/
def OpcodeRow.words (r : OpcodeRow) : Word64 × Word64 :=
  (packWord r.unit r.op 0 0 0, wordOf 0xF 0xF 0x0 0xF r.bZero r.aZero)

/-- The fields of the rows, in the table's order. -/
def opcodeRows : List OpcodeRow :=
  let all := BitVec.allOnes 24
  [⟨1, 0, 0, 0⟩, ⟨1, 1, all, 0⟩, ⟨1, 2, all, all⟩, ⟨1, 3, all, 0⟩,
   ⟨2, 1, all, 0⟩, ⟨2, 2, all, all⟩, ⟨2, 3, all, 0⟩,
   ⟨3, 0, all, 0xFFFFFE⟩, ⟨3, 1, all, all⟩, ⟨3, 2, 0, 0⟩, ⟨3, 3, all, 0⟩,
   ⟨4, 0, all, all⟩, ⟨4, 1, all, 0⟩, ⟨4, 2, all, 0⟩, ⟨4, 3, all, 0⟩]

theorem opcodeMap_eq : opcodeMap = opcodeRows.map OpcodeRow.words := by decide

/-- A word selects a row when UNIT and OP are the row's and every must-be-zero bit is zero (R153, R157, R158). -/
theorem selects_words_iff {w : Word64} {r : OpcodeRow} : selects w r.words = true ↔
    unitOf w = r.unit ∧ opOf w = r.op ∧ rsvOf w = 0 ∧ opB w &&& r.bZero = 0 ∧ opA w &&& r.aZero = 0 := by
  have hall : ∀ x : BitVec 4, x &&& 0xF#4 = x := fun _ => BitVec.and_allOnes
  conv_lhs => rw [← wordOf_fields w]
  simp only [selects, OpcodeRow.words, packWord_eq_wordOf, wordOf_and_wordOf, wordOf_eq_wordOf_iff, hall,
    decide_eq_true_eq, BitVec.ofNat_eq_ofNat, BitVec.and_zero, true_and]

/-- UNIT and OP tell the rows apart (R153). -/
theorem opcodeRows_nodup : (opcodeRows.map fun r => (r.unit, r.op)).Nodup := by decide

theorem opcodeRows_eq_of_selects {w : Word64} {r₁ r₂ : OpcodeRow} (h₁ : r₁ ∈ opcodeRows) (h₂ : r₂ ∈ opcodeRows)
    (hs₁ : selects w r₁.words = true) (hs₂ : selects w r₂.words = true) : r₁ = r₂ := by
  obtain ⟨hu₁, ho₁, -⟩ := selects_words_iff.1 hs₁
  obtain ⟨hu₂, ho₂, -⟩ := selects_words_iff.1 hs₂
  exact List.inj_on_of_nodup_map opcodeRows_nodup h₁ h₂ (by rw [← hu₁, ← ho₁, hu₂, ho₂])

/-! ### The word of every command selects a row, and no other word does -/

theorem exists_selects_packWord {u o n : BitVec 4} {b a : BitVec 24} (bZero aZero : BitVec 24)
    (hrow : ⟨u, o, bZero, aZero⟩ ∈ opcodeRows) (hb : b &&& bZero = 0) (ha : a &&& aZero = 0) :
    ∃ r ∈ opcodeRows, selects (packWord u o n b a) r.words = true := by
  obtain ⟨hu, ho, -, hr, hB, hA⟩ := eq_packWord_iff.1 (Eq.refl (packWord u o n b a))
  exact ⟨_, hrow, selects_words_iff.2 ⟨hu, ho, hr, by rw [hB, hb], by rw [hA, ha]⟩⟩

theorem exists_selects_encode (i : Instr) : ∃ r ∈ opcodeRows, selects (encode i) r.words = true := by
  cases i with
  | rbInit | rsRun => exact exists_selects_packWord 0 0 (by simp [opcodeRows]) BitVec.and_zero BitVec.and_zero
  | rbWrite | rbPstat | rbRead | rbCstat | rsStat | olaPush | olaPop | olaStat =>
    exact exists_selects_packWord (.allOnes 24) 0 (by simp [opcodeRows]) BitVec.zero_and BitVec.and_zero
  | rbPavail | rbCavail | rsReset | olaReset =>
    exact exists_selects_packWord (.allOnes 24) (.allOnes 24) (by simp [opcodeRows]) BitVec.zero_and BitVec.zero_and
  | rsCfg n m =>
    cases m <;> exact exists_selects_packWord (.allOnes 24) 0xFFFFFE (by simp [opcodeRows]) BitVec.zero_and (by decide)

/-- The operand fields that a row allows are those of a command. -/
def OpcodeRow.Spelled (r : OpcodeRow) : Prop := ∀ (n : BitVec 4) (b a : BitVec 24),
  b &&& r.bZero = 0 → a &&& r.aZero = 0 → ∃ i, encode i = packWord r.unit r.op n b a

theorem OpcodeRow.Spelled.operandsAB {u o : BitVec 4} (c : BitVec 4 → BitVec 24 → BitVec 24 → Instr)
    (h : ∀ n a b, encode (c n a b) = packWord u o n b a) : Spelled ⟨u, o, 0, 0⟩ := fun n b a _ _ => ⟨c n a b, h n a b⟩

theorem OpcodeRow.Spelled.operandA {u o : BitVec 4} (c : BitVec 4 → BitVec 24 → Instr)
    (h : ∀ n a, encode (c n a) = packWord u o n 0 a) : Spelled ⟨u, o, .allOnes 24, 0⟩ := fun n b a hb _ => by
  obtain rfl : b = 0 := BitVec.and_allOnes.symm.trans hb
  exact ⟨c n a, h n a⟩

theorem OpcodeRow.Spelled.noOperand {u o : BitVec 4} (c : BitVec 4 → Instr)
    (h : ∀ n, encode (c n) = packWord u o n 0 0) : Spelled ⟨u, o, .allOnes 24, .allOnes 24⟩ := fun n b a hb ha => by
  obtain rfl : b = 0 := BitVec.and_allOnes.symm.trans hb
  obtain rfl : a = 0 := BitVec.and_allOnes.symm.trans ha
  exact ⟨c n, h n⟩

/-- Bits 23:1 of A are zero, and bit 0 is the mode (R155). -/
theorem eq_zero_or_one_of_and {x : BitVec 24} (h : x &&& 0xFFFFFE = 0) : x = 0 ∨ x = 1 := by
  have hx : x = x &&& 1 := by
    calc x = x &&& (0xFFFFFE ||| 1) := BitVec.and_allOnes.symm
      _ = x &&& 0xFFFFFE ||| x &&& 1 := BitVec.and_or_distrib_left
      _ = x &&& 1 := by rw [h]; exact BitVec.zero_or
  have hnat : x.toNat = x.toNat % 2 := by
    calc x.toNat = (x &&& 1).toNat := congrArg _ hx
      _ = x.toNat % 2 := Nat.and_one_is_mod _
  rcases Nat.mod_two_eq_zero_or_one x.toNat with h2 | h2
  · exact .inl (BitVec.eq_of_toNat_eq (hnat.trans h2))
  · exact .inr (BitVec.eq_of_toNat_eq (hnat.trans h2))

theorem OpcodeRow.Spelled.mode : Spelled ⟨3, 0, .allOnes 24, 0xFFFFFE⟩ := fun n b a hb ha => by
  obtain rfl : b = 0 := BitVec.and_allOnes.symm.trans hb
  rcases eq_zero_or_one_of_and ha with rfl | rfl
  · exact ⟨.rsCfg n .dec, rfl⟩
  · exact ⟨.rsCfg n .int, rfl⟩

theorem opcodeRows_spelled : ∀ r ∈ opcodeRows, r.Spelled := by
  simp only [opcodeRows, List.forall_mem_cons]
  exact ⟨.operandsAB .rbInit fun _ _ _ => rfl, .operandA .rbWrite fun _ _ => rfl,
    .noOperand .rbPavail fun _ => rfl, .operandA .rbPstat fun _ _ => rfl,
    .operandA .rbRead fun _ _ => rfl, .noOperand .rbCavail fun _ => rfl,
    .operandA .rbCstat fun _ _ => rfl,
    .mode, .noOperand .rsReset fun _ => rfl,
    .operandsAB .rsRun fun _ _ _ => rfl, .operandA .rsStat fun _ _ => rfl,
    .noOperand .olaReset fun _ => rfl, .operandA .olaPush fun _ _ => rfl,
    .operandA .olaPop fun _ _ => rfl, .operandA .olaStat fun _ _ => rfl, nofun⟩

/-- The words that select a row are the words of the commands. -/
theorem selects_iff_encodes {w : Word64} : (∃ row ∈ opcodeMap, selects w row = true) ↔ ∃ i, encode i = w := by
  rw [opcodeMap_eq]
  constructor
  · rintro ⟨row, hrow, hs⟩
    obtain ⟨r, hr, rfl⟩ := List.mem_map.1 hrow
    obtain ⟨hu, ho, hrsv, hb, ha⟩ := selects_words_iff.1 hs
    rw [eq_packWord_iff.2 ⟨hu, ho, rfl, hrsv, rfl, rfl⟩]
    exact opcodeRows_spelled r hr _ _ _ hb ha
  · rintro ⟨i, rfl⟩
    obtain ⟨r, hr, hs⟩ := exists_selects_encode i
    exact ⟨r.words, List.mem_map_of_mem hr, hs⟩

/-- Settles O4: the words that decode and the words that select a row are the words of the commands. -/
theorem decoderAgreesWithOpcodeMap : Obligations.DecoderAgreesWithOpcodeMap := by
  refine fun w => ⟨decodes_iff_encodes.trans selects_iff_encodes.symm, ?_⟩
  rw [opcodeMap_eq]
  intro row₁ h₁ row₂ h₂ hs₁ hs₂
  obtain ⟨r₁, hr₁, rfl⟩ := List.mem_map.1 h₁
  obtain ⟨r₂, hr₂, rfl⟩ := List.mem_map.1 h₂
  rw [opcodeRows_eq_of_selects hr₁ hr₂ hs₁ hs₂]

end Sys2Proof
end

section
/-! SUPPORT. A scheduled host's turn, by the word it takes off the queue (R162, R163, R430). -/

namespace Sys2Proof.Machine

theorem runEvent_host {s : State} {d : Nat} {r : Request} (hd : d < s.cfg.nDom) (hr : s.nextRequest d = some r) :
    runEvent (.host d) s = runCommand (s.takeRequest d r) := by
  have hexists : s.agentExists (.host d) = true := decide_eq_true hd
  simp only [runEvent, hexists, if_true, hostTurn, hr]

/-- The turn of a scheduled host that has a command to issue. -/
theorem step_host {s : State} {d : Nat} {rest : List Event} {r : Request} (hs : s.sched = .host d :: rest)
    (hd : d < s.cfg.nDom) (hr : s.nextRequest d = some r) :
    step s = runCommand (State.takeRequest { s with sched := rest } d r) :=
  (step_scheduled hs).trans (runEvent_host (s := { s with sched := rest }) hd hr)

theorem runCommand_of_decodes {s : State} {i : Instr} (h : decodeWord s.cur.word = .ok i) : runCommand s = exec i s := by
  rw [runCommand, h]

theorem runCommand_of_reserved {s : State} {e : DecodeError} (h : decodeWord s.cur.word = .error e) :
    runCommand s = .next (s.raise .illegal (s.chargedTo (portOf s.cur.word))) := by
  rw [runCommand, h, State.refuseWord]

theorem State.chargedTo_home {s : State} {p : Port} (h : homeDomain s.cfg p = some s.cur.dom) :
    s.chargedTo (some p) = some p := if_pos ((s.routes_iff p).2 h)

theorem State.chargedTo_away {s : State} {p : Option Port} (h : ∀ q, p = some q → homeDomain s.cfg q ≠ some s.cur.dom) :
    s.chargedTo p = none := by
  cases p with
  | none => rfl
  | some q => exact if_neg fun hq => h q rfl ((s.routes_iff q).1 hq)

/-- Settles O6: the turn runs the command on the port, and the decoder answers with i. -/
theorem stepExecutesDecodedCommand : Obligations.StepExecutesDecodedCommand := by
  intro s d rest r i hs hd hr hi
  rw [step_host hs hd hr]
  exact runCommand_of_decodes hi

/-- Settles O7: the turn refuses the word on the port, and the charge follows the port the word names. -/
theorem stepRefusesReservedWord : Obligations.StepRefusesReservedWord := by
  intro s d rest r e hs hd hr he u
  have hstep : step s = .next (u.raise .illegal (u.chargedTo (portOf r.word))) :=
    (step_host hs hd hr).trans (runCommand_of_reserved he)
  refine ⟨fun p hp hhome => ?_, fun haway => ?_⟩
  · rw [hstep, hp, State.chargedTo_home hhome]
  · rw [hstep, State.chargedTo_away haway]

/-! ### A command away from its port's domain -/

theorem exec_away {i : Instr} {s : State} (h : homeDomain s.cfg i.port ≠ some s.cur.dom) :
    exec i s = .next (s.raise .illegal none) := by
  cases i <;> exact congrArg Host.Outcome.next (State.onPort_away h)

theorem State.ferr_raise_none {s : State} (e : ErrKind) (h : s.cur.dom < s.fabs.length) :
    ((s.raise e none).fab s.cur.dom).ferr = (s.fab s.cur.dom).ferr ||| errBit e := by
  rw [State.raise, State.ferr_respond, State.fab_record, State.setErr, State.fab_setFab_self s _ h]

/-- Settles O9: every command runs on its port, and away from there it is ILLEGAL, charged to `ferr`. -/
theorem wrongDomainIsIllegal : Obligations.WrongDomainIsIllegal := fun _ _ haway =>
  ⟨exec_away haway, fun hz hd => State.ferr_raise_none .illegal (hz.fabs ▸ hd)⟩

end Sys2Proof.Machine
end

section
/-! SUPPORT. RB.WRITE as a queue operation (R213, R231): the frames held stay, and the frames written follow them. -/

namespace Sys2Proof.Machine

/-- A store from wr on leaves the words of the frames held, as long as all of them fit the capacity (R101, R131). -/
theorem Rb.frame_written_of_held {w m k f : Nat} {rb : Rb} (hm : m ≤ w) (hcap : rb.cap = 2 ^ m) (hwr : rb.wr < 2 ^ w)
    (hrd : rb.rd < 2 ^ w) (hroom : dist w rb.rd rb.wr + k ≤ rb.cap) (hf : f < dist w rb.rd rb.wr) (same : Bool)
    (data : Nat → Word) : (rb.written w same data k).frame (rb.rd + f) = rb.frame (rb.rd + f) := by
  refine List.map_congr_left fun c hc => Rb.read_store_out fun g hg d hd e => ?_
  rw [Rb.wordIndex_wr hcap hm hrd hwr] at e
  have hsame := (Rb.wordIndex_inj (by omega) (by omega) hd (List.mem_range.1 hc) e).1
  omega

/-- The frames from wr on are those of the data-in stream (R211, R213). -/
theorem Rb.frame_written_of_new {w m k f : Nat} {rb : Rb} (hm : m ≤ w) (hcap : rb.cap = 2 ^ m) (hwr : rb.wr < 2 ^ w)
    (hrd : rb.rd < 2 ^ w) (hk : k ≤ rb.cap) (hf : f < k) (same : Bool) (data : Nat → Word) :
    (rb.written w same data k).frame (rb.rd + (dist w rb.rd rb.wr + f)) =
      (List.range rb.ch).map fun c => some (data (f * rb.ch + c)) := by
  refine List.map_congr_left fun c hc => ?_
  have hstored := Rb.read_store_in (data := data) hk hf (List.mem_range.1 hc)
  rwa [Rb.wordIndex_wr hcap hm hrd hwr] at hstored

/-- The ring as a queue: k frames written are k frames more at the end. -/
theorem Rb.unread_written {w m k : Nat} {rb : Rb} (hm : m ≤ w) (hcap : rb.cap = 2 ^ m) (hwr : rb.wr < 2 ^ w)
    (hrd : rb.rd < 2 ^ w) (hroom : dist w rb.rd rb.wr + k ≤ rb.cap) (hwide : rb.cap < 2 ^ w) (same : Bool)
    (data : Nat → Word) : (rb.written w same data k).unread w =
      rb.unread w ++ (List.range k).map fun f => (List.range rb.ch).map fun c => some (data (f * rb.ch + c)) := by
  have hdist : dist w rb.rd (advance w rb.wr k) = dist w rb.rd rb.wr + k := dist_advance_right hrd hwr (by omega)
  have hunread : (rb.written w same data k).unread w =
      (List.range (dist w rb.rd rb.wr + k)).map fun f => (rb.written w same data k).frame (rb.rd + f) := by
    rw [← hdist]; rfl
  rw [hunread, List.range_add, List.map_append, List.map_map]
  congr 1
  · exact List.map_congr_left fun f hf =>
      Rb.frame_written_of_held hm hcap hwr hrd hroom (List.mem_range.1 hf) same data
  · exact List.map_congr_left fun f hf =>
      Rb.frame_written_of_new hm hcap hwr hrd (by omega) (List.mem_range.1 hf) same data

/-- The offered words in frames, where k frames are offered (R106, R213). -/
theorem State.framesOf_offered {s : State} {ch k a : Nat} (hlen : s.cur.offered.length = a * ch) (hk : k ≤ a) :
    framesOf ch k s.cur.offered = (List.range k).map fun f => (List.range ch).map fun c => some (s.dataIn (f * ch + c)) := by
  refine List.map_congr_left fun f hf => List.map_congr_left fun c hc => ?_
  have hlt : f * ch + c < s.cur.offered.length :=
    hlen ▸ frameWord_lt ((List.mem_range.1 hf).trans_le hk) (List.mem_range.1 hc)
  rw [List.getElem?_eq_getElem hlt, State.dataIn, List.getD_eq_getElem _ _ hlt]

/-- The room the producer sees is room: what is written fits beside the frames held (R210, R230). -/
theorem RingInv.dist_add_writeCount_le {c : Config} {i : Nat} {rb : Rb} (hl : Legal c) (h : RingInv c i rb)
    (hp : rb.pending = false) (a : Nat) : dist c.ptrW rb.rd rb.wr + rb.writeCount c.ptrW a ≤ rb.cap := by
  have hdist := (h.dist_bounds hl hp).2
  have hle := (h.dist_le_cap hl).2.1
  have hcount : rb.writeCount c.ptrW a ≤ rb.cap - dist c.ptrW rb.rview rb.wr := Nat.min_le_right _ _
  omega

/-- Settles O22: the frames written come after the frames held, and none of those is overwritten. -/
theorem writeAppendsToUnreadFrames : Obligations.WriteAppendsToUnreadFrames := by
  intro s t n a hinv home hinit hlen hexec
  have hi := (home_rbp home).1
  have hring := hinv.rings _ hi
  obtain rfl := Host.Outcome.next.inj (hexec.symm.trans (execRbWrite_accepted home hinit hlen))
  obtain ⟨m, hm, hcap⟩ := hring.cap_eq_two_pow hinv.legal hinit
  obtain ⟨hwr, -, hrd, -⟩ := hring.widths
  have hroom := hring.dist_add_writeCount_le hinv.legal (hring.idle hinit) a.toNat
  have hwide : (s.rb n.toNat).cap < 2 ^ s.cfg.ptrW := by
    have hlegal := hinv.legal.cap_lt
    have hmax := hring.capacityMax
    have hpos := (hring.configured hinit).1
    omega
  rw [State.rb_setRb_respond hinv.sized hi, Rb.unread_written hm hcap hwr hrd hroom hwide]
  exact congrArg (_ ++ ·) (State.framesOf_offered hlen (Nat.min_le_left _ _)).symm

end Sys2Proof.Machine
end

section
/-! SUPPORT. A pending RB.INIT (R205, R430): whose host it holds, and which turns start one. -/

namespace Sys2Proof.Machine

/-! ### The held host and the SYNC agents -/

theorem State.held_iff (s : State) (d : Nat) :
    s.held d = true ↔ ∃ i < s.cfg.nRb, producerDomain s.cfg i = d ∧ (s.rb i).pending = true := by
  simp [State.held]

theorem State.nextRequest_of_held {s : State} {d : Nat} (h : s.held d = true) : s.nextRequest d = none := if_pos h

theorem State.not_held_of_nextRequest {s : State} {d : Nat} {r : Request} (h : s.nextRequest d = some r) :
    s.held d = false :=
  Bool.eq_false_iff.2 fun hheld => by rw [State.nextRequest_of_held hheld] at h; cases h

theorem State.w2rEnabled_of_pending {s : State} {i : Nat} (h : (s.rb i).pending = true) : s.w2rEnabled i = false := by
  simp [State.w2rEnabled, h]

theorem State.r2wEnabled_of_pending {s : State} {i : Nat} (h : (s.rb i).pending = true) : s.r2wEnabled i = false := by
  simp [State.r2wEnabled, h]

/-- The turn of a host that has nothing to issue or is held. -/
theorem runEvent_host_idle {s : State} {d : Nat} (hd : d < s.cfg.nDom) (hr : s.nextRequest d = none) :
    runEvent (.host d) s = .next s := by
  have hexists : s.agentExists (.host d) = true := decide_eq_true hd
  simp only [runEvent, hexists, if_true, hostTurn, hr]

/-- Settles O19: the pending ring holds its host and disables both SYNC agents. -/
theorem pendingInitHoldsHostAndViews : Obligations.PendingInitHoldsHostAndViews := by
  intro s i rest hi hd hp
  refine ⟨fun hs => ?_, fun draw hs => ?_⟩
  · have hheld : State.held { s with sched := rest } (producerDomain s.cfg i) = true :=
      (State.held_iff _ _).2 ⟨i, hi, rfl, hp⟩
    exact (step_scheduled hs).trans (runEvent_host_idle hd (State.nextRequest_of_held hheld))
  · have hp' : (State.rb { s with sched := rest } i).pending = true := hp
    rcases hs with hs | hs
    · rw [step_syncW2R hs hi, State.syncW2R_of_disabled (State.w2rEnabled_of_pending hp')]
    · rw [step_syncR2W hs hi, State.syncR2W_of_disabled (State.r2wEnabled_of_pending hp')]

/-! ### Which moves start an INIT -/

/-- No ring has an RB.INIT pending in t that had none in s. -/
def NoNewPending (s t : State) : Prop := ∀ j, (t.rb j).pending = true → (s.rb j).pending = true

theorem NoNewPending.refl (s : State) : NoNewPending s s := fun _ => id

theorem NoNewPending.setRb {s : State} {i : Nat} {r : Rb} (h : r.pending = true → (s.rb i).pending = true) :
    NoNewPending s (s.setRb i r) := by
  intro j hj
  simp only [State.rb, State.setRb, getD_set] at hj
  split at hj
  · next hij => exact hij.1 ▸ h hj
  · exact hj

theorem NoNewPending.raise (s : State) (e : ErrKind) (p : Option Port) : NoNewPending s (s.raise e p) := by
  have herr : NoNewPending s (s.setErr e p) := by
    match p with
    | none | some (.rs _) | some (.ola _) => exact .refl s
    | some (.rbp _) | some (.rbc _) => exact .setRb id
  exact herr

/-- A command starts no INIT, or it is the RB.INIT of one ring of the issuing domain. -/
theorem Effect.noNewPending_or_init {s t : State} (h : Effect s t) :
    NoNewPending s t ∨ ∃ i, producerDomain s.cfg i = s.cur.dom ∧ ∀ j, j ≠ i → t.rb j = s.rb j := by
  cases h with
  | raised e p charge home => exact .inl (.raise s e p)
  | answered | configured | streamReset | pushed | popped => exact .inl (.refl s)
  | initSame i a b home same ok => exact .inl (NoNewPending.setRb (r := (s.rb i).initialised true (initCap a) b) id)
  | initCross i a b home cross ok => exact .inr ⟨i, (home_rbp home).2, fun j hj => State.rb_setRb_ne s _ hj⟩
  | wrote i a k home init len room =>
    exact .inl (NoNewPending.setRb (r := (s.rb i).written s.cfg.ptrW (sameDomain s.cfg i) s.dataIn k) id)
  | readOut i a k home idle init room =>
    exact .inl (NoNewPending.setRb (r := (s.rb i).consumed s.cfg.ptrW (sameDomain s.cfg i) k) id)

theorem NoNewPending.initAck (s : State) (i : Nat) : NoNewPending s (s.initAck i) := by
  cases hp : (s.rb i).pending with
  | true => rw [State.initAck_of_pending hp]; exact NoNewPending.setRb (r := (s.rb i).acknowledged) fun _ => hp
  | false => rw [State.initAck_of_not_pending hp]; exact .refl s

theorem NoNewPending.syncW2R (s : State) (i draw : Nat) : NoNewPending s (s.syncW2R i draw) := by
  cases he : s.w2rEnabled i with
  | true => rw [State.syncW2R_of_enabled he]; exact .setRb id
  | false => rw [State.syncW2R_of_disabled he]; exact .refl s

theorem NoNewPending.syncR2W (s : State) (i draw : Nat) : NoNewPending s (s.syncR2W i draw) := by
  cases he : s.r2wEnabled i with
  | true => rw [State.syncR2W_of_enabled he]; exact .setRb id
  | false => rw [State.syncR2W_of_disabled he]; exact .refl s

theorem NoNewPending.blockReset (s : State) : NoNewPending s s.blockReset := fun j hj => by
  rw [State.rb_blockReset] at hj; cases hj

/-- A turn starts no INIT, or it is the RB.INIT of one ring of a domain whose host is not held. -/
theorem Turn.noNewPending_or_init {s t : State} {e : Event} (h : Turn s e t) :
    NoNewPending s t ∨ ∃ i, s.held (producerDomain s.cfg i) = false ∧ ∀ j, j ≠ i → t.rb j = s.rb j := by
  cases h with
  | idle => exact .inl (.refl s)
  | issued d r t next dom effect =>
    refine effect.noNewPending_or_init.imp id fun ⟨i, hd, hrest⟩ => ⟨i, ?_, hrest⟩
    have hd' : producerDomain s.cfg i = d := hd
    rw [hd']
    exact State.not_held_of_nextRequest next
  | initAck i ring => exact .inl (.initAck s i)
  | syncW2R i draw ring => exact .inl (.syncW2R s i draw)
  | syncR2W i draw ring => exact .inl (.syncR2W s i draw)
  | blockReset => exact .inl (.blockReset s)

/-! ### At most one per domain -/

theorem OnePending.of_noNewPending {s t : State} (h : OnePending s) (hc : t.cfg = s.cfg) (hn : NoNewPending s t) :
    OnePending t := by
  intro i hi j hj hpi hpj hdom
  rw [hc] at hi hj hdom
  exact h i hi j hj (hn i hpi) (hn j hpj) hdom

/-- An INIT of a ring whose host was not held is the only one of its domain. -/
theorem OnePending.of_init {s t : State} {i : Nat} (h : OnePending s) (hc : t.cfg = s.cfg)
    (hfree : s.held (producerDomain s.cfg i) = false) (hrest : ∀ j, j ≠ i → t.rb j = s.rb j) : OnePending t := by
  have hidle : ∀ j < s.cfg.nRb, j ≠ i → producerDomain s.cfg j = producerDomain s.cfg i → (t.rb j).pending ≠ true :=
    fun j hj hne hdom hp =>
      Bool.eq_false_iff.1 hfree ((s.held_iff _).2 ⟨j, hj, hdom, hrest j hne ▸ hp⟩)
  intro j hj k hk hpj hpk hdom
  rw [hc] at hj hk hdom
  by_cases hji : j = i
  · subst hji
    exact by_contra fun hne => hidle k hk (Ne.symm hne) hdom.symm hpk
  · by_cases hki : k = i
    · subst hki
      exact absurd hpj (hidle j hj hji hdom)
    · exact h j hj k hk (hrest j hji ▸ hpj) (hrest k hki ▸ hpk) hdom

theorem Turn.keeps_onePending {s t : State} {e : Event} (h : OnePending s) (ht : Turn s e t) : OnePending t := by
  rcases ht.noNewPending_or_init with hn | ⟨i, hfree, hrest⟩
  · exact h.of_noNewPending ht.keeps.1 hn
  · exact h.of_init ht.keeps.1 hfree hrest

/-- Settles O55: a turn starts at most one INIT, and only in a domain that has none pending. -/
theorem oneInitPendingPerDomain : Obligations.OneInitPendingPerDomain := by
  intro s t _ h hstep
  rcases step_turn hstep with ⟨e, rest, -, hturn⟩ | ⟨-, e, -, hturn⟩ | ⟨-, -, rfl⟩
  · exact hturn.keeps_onePending (s := { s with sched := rest }) h
  · exact hturn.keeps_onePending (s := { s with draws := s.draws + 1 }) h
  · exact h

end Sys2Proof.Machine
end

section
/-! SUPPORT. RB.INIT (R201 to R206, R408): the capacity it gives, its refusals, its producer phase and its acknowledge. -/

namespace Sys2Proof.Machine

/-! ### Capacity and arguments -/

/-- No power of two that is at least n is below `nextPow2 n`. -/
theorem nextPow2_le_two_pow {n k : Nat} (h : n ≤ 2 ^ k) : nextPow2 n ≤ 2 ^ k := by
  unfold nextPow2
  split
  · exact Nat.one_le_two_pow
  · have hlog : Nat.log2 (n - 1) < k := (Nat.log2_lt (by omega)).2 (by omega)
    exact Nat.pow_le_pow_right (by decide) hlog

/-- Settles O14: the capacity is a power of two, and below every other that is large enough. -/
theorem capacityRoundsUpToPowerOfTwo : Obligations.CapacityRoundsUpToPowerOfTwo := by
  intro a
  obtain ⟨⟨k, -, hk⟩, htwo, hreq⟩ := initCap_spec a
  exact ⟨⟨k, hk⟩, hreq, htwo, fun _ ha h2 => nextPow2_le_two_pow (Nat.max_le.2 ⟨ha, h2⟩)⟩

/-- The check of R202 on the operand fields. -/
theorem initAccepts_iff {c : Config} {a b : BitVec 24} : initAccepts c a.toNat b.toNat = true ↔
    a ≠ 0 ∧ b ≠ 0 ∧ nextPow2 (max a.toNat 2) ≤ c.maxCap ∧ b.toNat ≤ c.maxCh := by
  change _ ↔ a ≠ 0 ∧ b ≠ 0 ∧ initCap a.toNat ≤ c.maxCap ∧ b.toNat ≤ c.maxCh
  simp [initAccepts, BitVec.toNat_eq, and_assoc]

theorem execRbInit_refused {s : State} {n : BitVec 4} {a b : BitVec 24}
    (home : homeDomain s.cfg (.rbp n.toNat) = some s.cur.dom) (hbad : initAccepts s.cfg a.toNat b.toNat = false) :
    exec (.rbInit n a b) s = .next (s.respond .fail 0 0 []) :=
  (congrArg _ (State.onPort_home home)).trans (by simp [count, hbad])

theorem execRbInit_same {s : State} {n : BitVec 4} {a b : BitVec 24}
    (home : homeDomain s.cfg (.rbp n.toNat) = some s.cur.dom) (hok : initAccepts s.cfg a.toNat b.toNat = true)
    (hs : sameDomain s.cfg n.toNat = true) :
    exec (.rbInit n a b) s = .next ((s.setRb n.toNat
      ((s.rb n.toNat).initialised true (initCap a.toNat) b.toNat)).respond .ok (countVal (initCap a.toNat)) 0 []) :=
  (congrArg _ (State.onPort_home home)).trans (by simp [count, hok, hs])

theorem execRbInit_cross {s : State} {n : BitVec 4} {a b : BitVec 24}
    (home : homeDomain s.cfg (.rbp n.toNat) = some s.cur.dom) (hok : initAccepts s.cfg a.toNat b.toNat = true)
    (hs : sameDomain s.cfg n.toNat = false) :
    exec (.rbInit n a b) s =
      .next (s.setRb n.toNat ((s.rb n.toNat).initialised false (initCap a.toNat) b.toNat)) :=
  (congrArg _ (State.onPort_home home)).trans (by simp [count, hok, hs])

/-- Settles O15: each of the arguments fails the check of R202. -/
theorem initRefusesBadArguments : Obligations.InitRefusesBadArguments := by
  intro s n a b hadm hbad
  have hrefused : initAccepts s.cfg a.toNat b.toNat = false := by
    refine Bool.eq_false_iff.2 fun hok => ?_
    obtain ⟨ha, hb, hcap, hch⟩ := initAccepts_iff.1 hok
    rcases hbad with h | h | h | h
    · exact ha h
    · exact hb h
    · exact absurd hcap (Nat.not_le.2 h)
    · exact absurd hch (Nat.not_le.2 h)
  exact ⟨_, execRbInit_refused hadm.home hrefused, onlyAnswer_respond, answers_respond rfl rfl hadm.dom_lt⟩

/-! ### An accepted RB.INIT -/

/-- Cursor and view at one place, and a capacity: not FULL (R49). -/
theorem Rb.not_full_of_view_eq {rb : Rb} (w : Nat) (hview : rb.rview = rb.wr) (hcap : 0 < rb.cap) :
    rb.full w = false := by
  refine Bool.eq_false_iff.2 fun h => ?_
  have hdist := ((rb.full_iff w).1 h).2
  rw [hview, dist_self] at hdist
  omega

/-- Settles O16: the ring after the command is the ring initialised on both sides, with nothing written. -/
theorem initOfSameDomainRing : Obligations.InitOfSameDomainRing := by
  intro s n a b hadm hsame ha hb hcap hch
  have hok : initAccepts s.cfg a.toNat b.toNat = true := initAccepts_iff.2 ⟨ha, hb, hcap, hch⟩
  refine ⟨_, execRbInit_same hadm.home hok (sameDomain_iff.2 hsame), onlyRing_respond,
    answers_respond rfl rfl hadm.dom_lt, ?_⟩
  rw [State.rb_setRb_respond hadm.sized (home_rbp hadm.home).1]
  have hpos : 0 < initCap a.toNat := Nat.zero_lt_of_lt (initCap_spec a.toNat).2.1
  exact ⟨rfl, Rb.not_full_of_view_eq _ rfl hpos, (Rb.empty_iff _).2 (.inr rfl)⟩

/-- Settles O17: the ring after the command is the ring with its producer side reset and the INIT pending. -/
theorem initOfCrossDomainRing : Obligations.InitOfCrossDomainRing := by
  intro s n a b hadm hcross ha hb hcap hch
  have hok : initAccepts s.cfg a.toNat b.toNat = true := initAccepts_iff.2 ⟨ha, hb, hcap, hch⟩
  have hs : sameDomain s.cfg n.toNat = false := Bool.eq_false_iff.2 fun h => hcross (sameDomain_iff.1 h)
  refine ⟨_, execRbInit_cross hadm.home hok hs, onlyRing_setRb, fun _ => rfl, ?_⟩
  rw [State.rb_setRb_self s _ (hadm.sized.rbs ▸ (home_rbp hadm.home).1)]
  rfl

/-! ### The acknowledge -/

theorem step_initAck {s : State} {i : Nat} {rest : List Event} (hs : s.sched = .initAck i :: rest)
    (hi : i < s.cfg.nRb) : step s = .next (State.initAck { s with sched := rest } i) :=
  (step_scheduled hs).trans (if_pos (decide_eq_true hi))

/-- A completion adds to the list of its domain alone. -/
theorem State.done_complete (s : State) {d : Nat} (c : Completion) (hd : d < s.fabs.length) (e : Nat) :
    ((s.complete d c).fab e).done = if e = d then (s.fab e).done ++ [c] else (s.fab e).done := by
  split
  · next h => rw [h, State.fab_complete_self s c hd]
  · next h => rw [State.fab_complete_ne s c h]

/-- Settles O18: the turn acknowledges the ring and completes the command in the producer's domain. -/
theorem initAckCompletesInit : Obligations.InitAckCompletesInit := by
  intro s i rest hs hi hz hd hp
  refine ⟨_, (step_initAck hs hi).trans (congrArg _ (State.initAck_of_pending (s := { s with sched := rest }) hp)),
    rfl, ?_, fun j hj => ?_, rfl, rfl, rfl, rfl, fun d => ⟨?_, ?_, ?_⟩⟩
  · exact State.rb_setRb_self { s with sched := rest } _ (hz.rbs ▸ hi)
  · exact State.rb_setRb_ne { s with sched := rest } _ hj
  · exact State.ferr_complete _ _ _ _
  · exact State.queue_complete _ _ _ _
  · exact State.done_complete _ _ (hz.fabs ▸ hd) d

end Sys2Proof.Machine
end

section
/-! SUPPORT. The availability of a port (R210, R215, R225): both halves of the packed answer fit 32 bits. -/

namespace Sys2Proof.Machine

theorem execRbPavail_accepted {s : State} {n : BitVec 4} (home : homeDomain s.cfg (.rbp n.toNat) = some s.cur.dom)
    (hinit : (s.rb n.toNat).init = true) :
    exec (.rbPavail n) s = .next (s.respond .ok
      (availVal ((s.rb n.toNat).psnapR s.cfg.ptrW) ((s.rb n.toNat).psnapW s.cfg.ptrW)) 0 []) :=
  (congrArg _ (State.onPort_home home)).trans (by simp [hinit])

theorem execRbCavail_accepted {s : State} {n : BitVec 4} (home : homeDomain s.cfg (.rbc n.toNat) = some s.cur.dom)
    (hidle : (s.rb n.toNat).pending = false) (hcinit : (s.rb n.toNat).cinit = true) :
    exec (.rbCavail n) s = .next (s.respond .ok
      (availVal ((s.rb n.toNat).csnapR s.cfg.ptrW) ((s.rb n.toNat).csnapW s.cfg.ptrW)) 0 []) :=
  (congrArg _ (State.onPort_home home)).trans (by simp [hidle, hcinit])

/-- The packed answer of a distance within a capacity (R160). -/
theorem RingInv.availVal_toNat_of_le {c : Config} {i : Nat} {rb : Rb} (hl : Legal c) (h : RingInv c i rb) {r : Nat}
    (hr : r ≤ rb.cap) : (availVal r (rb.cap - r)).toNat = (rb.cap - r) * 2 ^ 32 + r := by
  have hcap := h.cap_lt_two_pow hl
  exact availVal_toNat (by omega) (by omega)

/-- Settles O25: each port answers its snapshot, which the invariant keeps within the capacity. -/
theorem availabilityIsTheSnapshot : Obligations.AvailabilityIsTheSnapshot := by
  intro s n hinv hd
  have hdlt : s.cur.dom < s.fabs.length := hinv.sized.fabs ▸ hd
  refine ⟨fun home hinit => ?_, fun home hidle hcinit => ?_⟩
  · have hring := hinv.rings _ (home_rbp home).1
    exact ⟨_, _, execRbPavail_accepted home hinit, onlyAnswer_respond, answers_respond rfl rfl hdlt,
      hring.availVal_toNat_of_le hinv.legal (hring.dist_le_cap hinv.legal).2.1⟩
  · have hring := hinv.rings _ (home_rbc home).1
    have hle := (hring.dist_le_cap hinv.legal).2.2
    rw [Rb.rdSinceInit_idle hidle, Rb.wviewSinceInit_idle hidle] at hle
    exact ⟨_, _, execRbCavail_accepted home hidle hcinit, onlyAnswer_respond, answers_respond rfl rfl hdlt,
      hring.availVal_toNat_of_le hinv.legal hle⟩

end Sys2Proof.Machine
end

section
/-! SUPPORT. The resampler (R261 to R276): what its commands make of the state, its status registers, and the words an
RS.RUN delivers. -/

namespace Sys2Proof.Machine

/-! ### Configuration -/

theorem execRsCfg_home {s : State} {n : BitVec 4} (h : Admitted s (.rs n.toNat)) (m : RsMode) :
    exec (.rsCfg n m) s =
      .next ((s.setRs n.toNat { s.rs n.toNat with mode := m, cfgd := true }).respond .ok 0 0 []) :=
  congrArg _ (State.onPort_home h.home)

theorem execRsReset_home {s : State} {n : BitVec 4} (h : Admitted s (.rs n.toNat)) :
    exec (.rsReset n) s = .next (s.respond .ok 0 0 []) :=
  congrArg _ (State.onPort_home h.home)

theorem onlyResampler_respond {s : State} {j : Nat} {r : Rs} {st : Status} {v : Word64} {n : Nat} {out : List Word} :
    OnlyResampler j s ((s.setRs j r).respond st v n out) :=
  ⟨keeps_respond rfl rfl rfl rfl rfl, fun i hi => by rw [State.rs_respond, State.rs_setRs_ne s r hi], rfl, rfl, rfl⟩

/-- Settles O36: RS.CFG replaces the named resampler alone, and RS.RESET answers without replacing any. -/
theorem resamplerConfigAndReset : Obligations.ResamplerConfigAndReset := by
  intro s n m hadm
  have hj : n.toNat < s.rss.length := hadm.sized.rss ▸ (home_rs hadm.home).1
  refine ⟨⟨_, execRsCfg_home hadm m, onlyResampler_respond, answers_respond rfl rfl hadm.dom_lt, ?_⟩,
    _, execRsReset_home hadm, onlyAnswer_respond, answers_respond rfl rfl hadm.dom_lt⟩
  rw [State.rs_respond, State.rs_setRs_self s _ hj]

/-! ### Status registers -/

theorem execRsStat_home {s : State} {n : BitVec 4} (h : Admitted s (.rs n.toNat)) (a : BitVec 24) :
    exec (.rsStat n a) s = .next (s.answerReg (.rs n.toNat) ((s.rs n.toNat).reg a.toNat)) :=
  congrArg _ (State.onPort_home h.home)

theorem Rs.reg_some (r : Rs) {n : Nat} (h : n ≤ 1) : ∃ v, r.reg n = some v := by
  interval_cases n <;> exact ⟨_, rfl⟩

theorem Rs.reg_reserved (r : Rs) {n : Nat} (h : 1 < n) : r.reg n = none := by
  obtain ⟨k, rfl⟩ := Nat.exists_eq_add_of_lt h
  rw [Nat.add_comm 1 k]; rfl

theorem modeBit_iff (m : RsMode) : modeBit m = true ↔ m = .int := by cases m <;> decide

theorem Rs.modeWord_toNat (r : Rs) :
    r.modeWord.toNat = (if r.mode = .int then 1 else 0) + (if r.cfgd then 2 else 0) := by
  simp only [Rs.modeWord, flagWord_toNat, modeBit_iff]

/-- Settles O37: both registers of R57 read as they are, and there is no third. -/
theorem resamplerStatusRegisters : Obligations.ResamplerStatusRegisters := by
  intro s n a hadm
  rw [execRsStat_home hadm a]
  refine ⟨fun ha => ?_, fun ha => ?_⟩
  · obtain ⟨v, hv⟩ := (s.rs n.toNat).reg_some ha
    refine ⟨_, v, by rw [hv]; rfl, onlyAnswer_respond, answers_respond rfl rfl hadm.dom_lt, ?_, ?_⟩ <;>
      rintro rfl <;> obtain rfl := Option.some.inj hv
    · exact Rs.modeWord_toNat _
    · exact errVal_toNat _
  · rw [Rs.reg_reserved _ ha]; rfl

/-! ### An accepted RS.RUN -/

/-- An accepted RS.RUN is its answer, whose words are those of `runOut` (R263, R276). -/
theorem execRsRun_accepted {s : State} {n : BitVec 4} {a : BitVec 24}
    (home : homeDomain s.cfg (.rs n.toNat) = some s.cur.dom) (hcfgd : (s.rs n.toNat).cfgd = true)
    (hlen : s.cur.offered.length = a.toNat) (b : BitVec 24) :
    exec (.rsRun n a b) s = .next (s.respond .ok (countVal (runCount (s.rs n.toNat).mode a.toNat b.toNat)) a.toNat
      (runOut (s.rs n.toNat).mode a.toNat b.toNat s.cur.offered)) :=
  (congrArg _ (State.onPort_home home)).trans (by simp [hcfgd, hlen, State.offers, count])

theorem length_decimate (draw : Nat → BitVec 32) (x : List Word) (n : Nat) : (decimate draw x n).length = n := by
  simp [decimate]

/-- Output i of decimate mode is the mean of its triple (R264, R265). -/
theorem getElem?_decimate (draw : Nat → BitVec 32) {x : List Word} {n i : Nat} (hi : i < n) {u v w : Word}
    (hu : x[3 * i]? = some u) (hv : x[3 * i + 1]? = some v) (hw : x[3 * i + 2]? = some w) :
    (decimate draw x n)[i]? = some (mean3 draw (3 * i) u v w) := by
  simp [decimate, List.getElem?_range hi, List.getD_eq_getElem?_getD, hu, hv, hw]

/-- Settles O38: an accepted RS.RUN delivers `decimate`, whose outputs are the means of the triples. -/
theorem decimateDeliversMeansOfTriples : Obligations.DecimateDeliversMeansOfTriples := by
  intro s n a b hadm hcfgd hmode hlen
  have hrun := execRsRun_accepted hadm.home hcfgd hlen b
  rw [hmode] at hrun
  exact ⟨_, _, hrun, onlyAnswer_respond, answers_respond rfl rfl hadm.dom_lt, length_decimate _ _ _,
    fun i hi u v w hu hv hw => ⟨_, _, _, getElem?_decimate _ hi hu hv hw⟩⟩

theorem length_interpolate (draw : Nat → BitVec 32) (x : List Word) (n : Nat) : (interpolate draw x n).length = n := by
  simp [interpolate]

theorem getElem?_interpolate (draw : Nat → BitVec 32) (x : List Word) {n j : Nat} (hj : j < n) :
    (interpolate draw x n)[j]? = some (interp draw x j) := by
  simp [interpolate, List.getElem?_range hj]

/-- At phase 0 and for the last input the output is the input (R268, R269). -/
theorem interp_held (draw : Nat → BitVec 32) {x : List Word} {j : Nat} {u : Word} (hu : x[j / 3]? = some u)
    (h : j % 3 = 0 ∨ j / 3 + 1 = x.length) : interp draw x j = u := by
  rw [interp, if_pos h, List.getD_eq_getElem?_getD, hu, Option.getD_some]

/-- The phase of a ramp output as binary32 (R268): 1.0 or 2.0. -/
theorem int2f_phase {j : Nat} (h : j % 3 ≠ 0) : int2f (j % 3) = if j % 3 = 1 then 0x3F800000 else 0x40000000 := by
  obtain h1 | h2 : j % 3 = 1 ∨ j % 3 = 2 := by omega
  · rw [h1]; decide
  · rw [h2]; decide

/-- At phases 1 and 2 the output is on the ramp to the next input, if there is one (R268). -/
theorem interp_ramp (draw : Nat → BitVec 32) {x : List Word} {j : Nat} {u v : Word} (hp : j % 3 ≠ 0)
    (hu : x[j / 3]? = some u) (hv : x[j / 3 + 1]? = some v) :
    interp draw x j = fadd (draw (4 * j + 3)) u (fdiv (draw (4 * j + 2)) (fmul (draw (4 * j + 1)) (fsub (draw (4 * j)) v u)
      (if j % 3 = 1 then 0x3F800000 else 0x40000000)) fThree) := by
  have hlt : j / 3 + 1 < x.length := (List.getElem?_eq_some_iff.1 hv).1
  have hmoving : ¬ (j % 3 = 0 ∨ j / 3 + 1 = x.length) := by omega
  simp only [interp, if_neg hmoving, List.getD_eq_getElem?_getD, hu, hv, Option.getD_some, int2f_phase hp]

/-- Settles O39: an accepted RS.RUN delivers `interpolate`, whose outputs are held or on the ramp. -/
theorem interpolateRampsAndHolds : Obligations.InterpolateRampsAndHolds := by
  intro s n a b hadm hcfgd hmode hlen
  have hrun := execRsRun_accepted hadm.home hcfgd hlen b
  rw [hmode] at hrun
  refine ⟨_, _, hrun, onlyAnswer_respond, answers_respond rfl rfl hadm.dom_lt, length_interpolate _ _ _,
    fun j hj => ⟨fun hheld => ?_, fun hp u v hu hv =>
      ⟨_, _, _, _, (getElem?_interpolate _ _ hj).trans (congrArg some (interp_ramp _ hp hu hv))⟩⟩⟩
  have hlt : j / 3 < s.cur.offered.length := by omega
  have hu := List.getElem?_eq_getElem hlt
  exact (getElem?_interpolate _ _ hj).trans ((congrArg some (interp_held _ hu (hlen ▸ hheld))).trans hu.symm)

/-- Settles O40: the answer of an accepted RS.RUN is a function of the mode, A, B and the offered words. -/
theorem runIsStateless : Obligations.RunIsStateless := by
  intro s₁ s₂ t₁ t₂ n₁ n₂ a b c₁ c₂ hadm₁ hadm₂ hcfgd₁ hcfgd₂ hmode hoffered hlen hrun₁ hrun₂ hans₁ hans₂
  rw [execRsRun_accepted hadm₁.home hcfgd₁ hlen b] at hrun₁
  rw [execRsRun_accepted hadm₂.home hcfgd₂ (hoffered ▸ hlen) b, ← hmode, ← hoffered] at hrun₂
  obtain rfl := Host.Outcome.next.inj hrun₁
  obtain rfl := Host.Outcome.next.inj hrun₂
  refine ⟨?_, State.respond_rss _ _ _ _ _⟩
  exact (answers_unique hans₁ (answers_respond rfl rfl hadm₁.dom_lt)).trans
    (answers_unique (answers_respond rfl rfl hadm₂.dom_lt) hans₂)

end Sys2Proof.Machine
end

section
/-! SUPPORT. The spectral processor (R300 to R330): what its commands make of the state, its status registers, the
samples a push stores, the cycle a full hop runs, and the samples a pop delivers. -/

namespace Sys2Proof.Machine

/-- The unit that an accepted command of its port leaves. -/
theorem State.ola_setOla_respond {s : State} {k : Nat} (hz : Sized s) (hk : k < s.cfg.nOla) (o : Ola) (d : Nat)
    (st : Status) (v : Word64) (n : Nat) (out : List Word) :
    ({ s.setOla k o with draws := d }.respond st v n out).ola k = o :=
  State.ola_setOla_self s o (hz.olas ▸ hk)

/-- A word something has written is the word that is read. -/
theorem Mem.read_eq_some_word {m : Mem} {a : Nat} (h : (Mem.read m a).isSome = true) :
    Mem.read m a = some (Mem.word m a) := by
  obtain ⟨v, hv⟩ := Option.isSome_iff_exists.1 h
  rw [Mem.word_of_read hv, hv]

/-! ### OLA.RESET -/

theorem execOlaReset_home {s : State} {n : BitVec 4} (h : Admitted s (.ola n.toNat)) :
    exec (.olaReset n) s = .next ((s.setOla n.toNat ((s.ola n.toNat).streaming s.cfg)).respond .ok 0 0 []) :=
  congrArg _ (State.onPort_home h.home)

/-- Settles O43: the command replaces the named unit by the streaming one, whose arrays are all zeros. -/
theorem spectralResetClearsTheStream : Obligations.SpectralResetClearsTheStream := by
  intro s n hadm
  have hzeros : ∀ {size k : Nat}, k < size → Mem.read (Mem.zeros size) k = some 0 :=
    fun hk => (Mem.read_zeros _ _).trans (if_pos hk)
  refine ⟨_, execOlaReset_home hadm, onlySpectral_respond (d := s.draws), answers_respond rfl rfl hadm.dom_lt, ?_⟩
  rw [State.ola_respond, State.ola_setOla_self s _ (hadm.sized.olas ▸ (home_ola hadm.home).1)]
  exact ⟨rfl, rfl, rfl, rfl, rfl, rfl, rfl, rfl, rfl, fun _ hk => hzeros hk, fun _ hp => ⟨hzeros hp, hzeros hp⟩⟩

/-! ### Status registers -/

theorem execOlaStat_home {s : State} {n : BitVec 4} (h : Admitted s (.ola n.toNat)) (a : BitVec 24) :
    exec (.olaStat n a) s = .next (s.answerReg (.ola n.toNat) ((s.ola n.toNat).reg s.cfg a.toNat)) :=
  congrArg _ (State.onPort_home h.home)

theorem Ola.reg_some (c : Config) (o : Ola) {n : Nat} (h : n ≤ 14) : ∃ v, o.reg c n = some v := by
  interval_cases n <;> exact ⟨_, rfl⟩

theorem Ola.reg_reserved (c : Config) (o : Ola) {n : Nat} (h : 14 < n) : o.reg c n = none := by
  obtain ⟨k, rfl⟩ := Nat.exists_eq_add_of_lt h
  rw [Nat.add_comm 14 k]; rfl

theorem Ola.stateWord_toNat (o : Ola) : o.stateWord.toNat = if o.rdy then 1 else 0 := flagWord_toNat o.rdy false

theorem countVal_toNat {n : Nat} (h : n < 2 ^ 64) : (countVal n).toNat = n :=
  (BitVec.toNat_ofNat n 64).trans (Nat.mod_eq_of_lt h)

/-- The sizes of a legal spectral processor are at most that of its accumulator ring. -/
theorem Legal.spectral_le_olaRing {c : Config} (hl : Legal c) :
    c.olaN ≤ c.olaRing ∧ c.olaHop ≤ c.olaRing ∧ c.olaHist ≤ c.olaRing ∧ c.olaPad ≤ c.olaRing := by
  have hparts := hl.parts
  have hring := hl.accumulator.1
  omega

/-- No more samples are available than the accumulator ring has cells (R309). -/
theorem SpectralInv.avail_lt {c : Config} {o : Ola} (hl : Legal c) (h : SpectralInv c o) : o.avail < c.olaRing := by
  have hroom := h.room
  have hparts := hl.parts
  have hhops := hl.hops
  omega

/-- Settles O35: the offsets and counts are below the ring's size, which fits 32 bits, and the other registers are as
wide as their fields. -/
theorem spectralStatusRegisters : Obligations.SpectralStatusRegisters := by
  intro s n a hinv hadm
  have hl := hinv.legal
  have hunit := hinv.spectral _ (home_ola hadm.home).1
  obtain ⟨hN, hHop, hHist, hPad⟩ := hl.spectral_le_olaRing
  have hreg : ∀ {x : Nat}, x < s.cfg.olaRing → (regVal 32 x).toNat = x := fun hx =>
    regVal_toNat (by decide) (hx.trans_le hl.accumulator.2)
  have hsize : ∀ {x : Nat}, x ≤ s.cfg.olaRing → (countVal x).toNat = x := fun hx =>
    countVal_toNat ((hx.trans hl.accumulator.2).trans_lt (by decide))
  rw [execOlaStat_home hadm a]
  refine ⟨fun ha => ?_, fun ha => ?_⟩
  · obtain ⟨v, hv⟩ := (s.ola n.toNat).reg_some s.cfg ha
    refine ⟨_, v, by rw [hv]; rfl, onlyAnswer_respond, answers_respond rfl rfl hadm.dom_lt,
      ?_, ?_, ?_, ?_, ?_, ?_, ?_, ?_, ?_, ?_, ?_, ?_, ?_, ?_, ?_⟩ <;> rintro rfl <;> obtain rfl := Option.some.inj hv
    · rfl
    · rfl
    · rfl
    · exact hreg (hunit.avail_lt hl)
    · exact hreg (hunit.fillRange.trans_le hHop)
    · exact hreg hunit.woRange
    · exact hreg hunit.roRange
    · exact errVal_toNat _
    · exact hsize hN
    · exact hsize hHop
    · exact hsize hHist
    · exact hsize hPad
    · exact hsize le_rfl
    · exact errVal_toNat _
    · exact Ola.stateWord_toNat _
  · rw [Ola.reg_reserved _ _ ha]; rfl

/-! ### An accepted or refused OLA.PUSH -/

theorem Ola.overruns_iff {c : Config} {o : Ola} {a : Nat} : o.overruns c a = true ↔
    1 ≤ o.pushCycles c a ∧ c.olaRing < o.avail + (o.pushCycles c a - 1) * c.olaHop + c.olaN := by
  simp [Ola.overruns]

theorem Ola.overruns_eq_false_iff {c : Config} {o : Ola} {a : Nat} : o.overruns c a = false ↔
    ¬ (1 ≤ o.pushCycles c a ∧ c.olaRing < o.avail + (o.pushCycles c a - 1) * c.olaHop + c.olaN) := by
  rw [← Ola.overruns_iff, Bool.not_eq_true]

/-- Settles O13: the check of the last cycle is the one R301 makes before any change. -/
theorem overrunIsRefused : Obligations.OverrunIsRefused := by
  intro s n a o c home hrdy hlen hcycle hover
  have hoverruns : o.overruns s.cfg a.toNat = true := Ola.overruns_iff.2 ⟨hcycle, hover⟩
  exact (congrArg _ (State.onPort_home home)).trans (by simp [o, hrdy, hlen, State.offers, count, hoverruns])

/-- What an accepted OLA.PUSH of the offered words to unit k leaves (R301). -/
def State.olaPushed (s : State) (k : Nat) : State :=
  { s.setOla k (pushAll s.cfg (s.ola k) s.draws s.cur.offered).1 with
    draws := (pushAll s.cfg (s.ola k) s.draws s.cur.offered).2 }.respond .ok
      (countVal ((s.ola k).pushCycles s.cfg s.cur.offered.length)) s.cur.offered.length []

theorem execOlaPush_accepted {s : State} {n : BitVec 4} {a : BitVec 24} (hadm : Admitted s (.ola n.toNat))
    (hrdy : (s.ola n.toNat).rdy = true) (hlen : s.cur.offered.length = a.toNat)
    (hroom : (s.ola n.toNat).overruns s.cfg a.toNat = false) :
    exec (.olaPush n a) s = .next (s.olaPushed n.toNat) :=
  (congrArg _ (State.onPort_home hadm.home)).trans
    (by simp [hrdy, hlen, State.offers, count, hroom, State.olaPushed])

theorem onlySpectral_olaPushed (s : State) (k : Nat) : OnlySpectral k s (s.olaPushed k) := onlySpectral_respond

theorem answers_olaPushed {s : State} {k a : Nat} (hadm : Admitted s (.ola k)) (hlen : s.cur.offered.length = a) :
    Answers s (s.olaPushed k)
      { st := .ok, val := countVal ((s.ola k).pushCycles s.cfg a), taken := a, out := [] } := by
  subst hlen
  exact answers_respond rfl rfl hadm.dom_lt

theorem State.ola_olaPushed {s : State} {k : Nat} (hadm : Admitted s (.ola k)) :
    (s.olaPushed k).ola k = (pushAll s.cfg (s.ola k) s.draws s.cur.offered).1 :=
  State.ola_setOla_respond hadm.sized (home_ola hadm.home).1 _ _ _ _ _ _

/-! ### The counters of a push -/

/-- The registers after a push (R301, R307): those that move with the samples and the cycles. -/
theorem pushAll_counters {c : Config} {o : Ola} (h : SpectralInv c o) (d : Nat) (xs : List Word) :
    (pushAll c o d xs).1.fill = (o.fill + xs.length) % c.olaHop ∧
    (pushAll c o d xs).1.avail = o.avail + o.pushCycles c xs.length * c.olaHop ∧
    (pushAll c o d xs).1.wo = (o.wo + o.pushCycles c xs.length * c.olaHop) % c.olaRing ∧
    (pushAll c o d xs).1.hops = o.hops + BitVec.ofNat 64 (o.pushCycles c xs.length) :=
  pushLoop_counters c xs (o, d) (Nat.zero_lt_of_lt h.fillRange) h.fillRange h.woRange

/-- The registers after a push: the pushed counter and those that stay. -/
theorem pushAll_keeps (c : Config) (o : Ola) (d : Nat) (xs : List Word) :
    (pushAll c o d xs).1.pushed = o.pushed + BitVec.ofNat 64 xs.length ∧ (pushAll c o d xs).1.ro = o.ro ∧
    (pushAll c o d xs).1.popped = o.popped ∧ (pushAll c o d xs).1.rdy = o.rdy ∧ (pushAll c o d xs).1.err = o.err := by
  obtain ⟨hrdy, hpushed, hpopped, hro, herr⟩ := pushLoop_keeps c xs (o, d)
  exact ⟨congrArg (· + _) hpushed, hro, hpopped, hrdy, herr⟩

/-- Settles O44: the counters are those of the loop over the samples. -/
theorem pushRunsItsHopCycles : Obligations.PushRunsItsHopCycles := by
  intro s n a hinv hadm hrdy hlen o c hroom
  have hunit := hinv.spectral _ (home_ola hadm.home).1
  obtain ⟨hfill, havail, hwo, hhops⟩ := pushAll_counters hunit s.draws s.cur.offered
  obtain ⟨hpushed, hkept⟩ := pushAll_keeps s.cfg o s.draws s.cur.offered
  refine ⟨_, execOlaPush_accepted hadm hrdy hlen (Ola.overruns_eq_false_iff.2 hroom), onlySpectral_olaPushed _ _, ?_⟩
  rw [State.ola_olaPushed hadm]
  rw [hlen] at hfill havail hwo hhops hpushed
  exact ⟨answers_olaPushed hadm hlen, hfill, havail, hwo, hhops, hpushed, hkept⟩

/-! ### A block in two parts -/

/-- The state in which the command on the port offers other words. -/
def State.offering (s : State) (zs : List Word) : State := { s with cur := { s.cur with offered := zs } }

theorem Admitted.offering {s : State} {p : Port} (h : Admitted s p) (zs : List Word) : Admitted (s.offering zs) p :=
  ⟨⟨h.sized.fabs, h.sized.rbs, h.sized.rss, h.sized.olas⟩, h.domain, h.home⟩

theorem Admitted.olaPushed {s : State} {k : Nat} {p : Port} (h : Admitted s p) : Admitted (s.olaPushed k) p := by
  refine ⟨⟨?_, h.sized.rbs, h.sized.rss, ?_⟩, h.domain, h.home⟩
  · exact (State.respond_length _ _ _ _ _).trans h.sized.fabs
  · exact (State.setOla_length _ _ _).trans h.sized.olas

/-- The second part of a block runs the cycles that the first part has left of the whole. -/
theorem pushCycles_append {c : Config} {o : Ola} (h : SpectralInv c o) (d : Nat) (xs : List Word) (b : Nat) :
    o.pushCycles c (xs.length + b) = o.pushCycles c xs.length + (pushAll c o d xs).1.pushCycles c b := by
  unfold Ola.pushCycles
  rw [(pushAll_counters h d xs).1, ← Nat.mul_add_div (Nat.zero_lt_of_lt h.fillRange), ← Nat.add_assoc (c.olaHop * _),
    Nat.div_add_mod, Nat.add_assoc]

/-- Both parts of a block that does not overrun the accumulator ring do not overrun it (R309). -/
theorem overruns_append {c : Config} {o : Ola} (h : SpectralInv c o) (d : Nat) {xs : List Word} {b : Nat}
    (hroom : o.overruns c (xs.length + b) = false) :
    o.overruns c xs.length = false ∧ (pushAll c o d xs).1.overruns c b = false := by
  rw [Ola.overruns_eq_false_iff] at *
  rw [Ola.overruns_eq_false_iff, (pushAll_counters h d xs).2.1]
  rw [pushCycles_append h d] at hroom
  generalize o.pushCycles c xs.length = k at *
  generalize (pushAll c o d xs).1.pushCycles c b = l at *
  refine ⟨fun ⟨hk, hover⟩ => hroom ⟨by omega, ?_⟩, fun ⟨hl, hover⟩ => hroom ⟨by omega, ?_⟩⟩
  · have : (k - 1) * c.olaHop ≤ (k + l - 1) * c.olaHop := Nat.mul_le_mul_right _ (by omega)
    omega
  · rw [Nat.add_sub_assoc hl, Nat.add_mul]
    omega

theorem execOlaPush_offering {s : State} {n : BitVec 4} {a : BitVec 24} {zs : List Word}
    (hadm : Admitted s (.ola n.toNat)) (hrdy : (s.ola n.toNat).rdy = true) (hlen : zs.length = a.toNat)
    (hroom : (s.ola n.toNat).overruns s.cfg a.toNat = false) :
    exec (.olaPush n a) (s.offering zs) = .next ((s.offering zs).olaPushed n.toNat) :=
  execOlaPush_accepted (hadm.offering zs) hrdy hlen hroom

theorem answers_olaPushed_offering {s : State} {k a : Nat} {zs : List Word} (hadm : Admitted s (.ola k))
    (hlen : zs.length = a) : Answers s ((s.offering zs).olaPushed k)
      { st := .ok, val := countVal ((s.ola k).pushCycles s.cfg a), taken := a, out := [] } :=
  show Answers (s.offering zs) _ _ from answers_olaPushed (hadm.offering zs) hlen

theorem State.ola_olaPushed_offering {s : State} {k : Nat} (hadm : Admitted s (.ola k)) (zs : List Word) :
    ((s.offering zs).olaPushed k).ola k = (pushAll s.cfg (s.ola k) s.draws zs).1 :=
  State.ola_olaPushed (hadm.offering zs)

theorem State.draws_olaPushed_offering (s : State) (k : Nat) (zs : List Word) :
    ((s.offering zs).olaPushed k).draws = (pushAll s.cfg (s.ola k) s.draws zs).2 := rfl

theorem State.cfg_olaPushed_offering (s : State) (k : Nat) (zs : List Word) :
    ((s.offering zs).olaPushed k).cfg = s.cfg := rfl

/-- Settles O47: the loop over a block is the loop over its parts, and the second part meets the counters that the first
has left. -/
theorem pushingInPartsIsPushingAtOnce : Obligations.PushingInPartsIsPushingAtOnce := by
  intro s n a b c xs ys hinv hadm hrdy hxs hys hc o k k₁ offering took hroom
  -- The statement's own `offering` is `State.offering`, of which the lemmas above speak.
  have hoffering : offering = State.offering := rfl
  clear_value offering
  subst hoffering
  have hunit : SpectralInv s.cfg o := hinv.spectral _ (home_ola hadm.home).1
  have hlen : (xs ++ ys).length = c.toNat := by rw [List.length_append, hxs, hys, hc]
  have hwhole : o.overruns s.cfg c.toNat = false := Ola.overruns_eq_false_iff.2 hroom
  obtain ⟨hfirst, hsecond⟩ := overruns_append hunit s.draws (xs := xs) (b := b.toNat) (by rwa [hxs, ← hc])
  have hcycles : (pushAll s.cfg o s.draws xs).1.pushCycles s.cfg b.toNat = k - k₁ := by
    have hsum := pushCycles_append hunit s.draws xs b.toNat
    rw [hxs, ← hc] at hsum
    exact Nat.eq_sub_of_add_eq' hsum.symm
  obtain ⟨-, -, -, hready, -⟩ := pushAll_keeps s.cfg o s.draws xs
  have hola := State.ola_olaPushed_offering hadm xs
  have hadm₁ : Admitted ((s.offering xs).olaPushed n.toNat) (.ola n.toNat) := (hadm.offering xs).olaPushed
  refine ⟨_, _, _, execOlaPush_offering hadm hrdy hlen hwhole, answers_olaPushed_offering hadm hlen,
    execOlaPush_offering hadm hrdy hxs (hxs ▸ hfirst), answers_olaPushed_offering hadm hxs,
    execOlaPush_offering hadm₁ ?_ hys ?_, ?_, ?_, ?_⟩
  · rw [hola, hready, hrdy]
  · rw [hola, State.cfg_olaPushed_offering, hsecond]
  · rw [← hcycles, ← hola, ← State.cfg_olaPushed_offering s n.toNat xs]
    exact answers_olaPushed_offering hadm₁ hys
  · simp only [State.ola_olaPushed_offering hadm₁, State.ola_olaPushed_offering hadm, State.cfg_olaPushed_offering,
      State.draws_olaPushed_offering, pushAll_append]
  · simp only [State.ola_olaPushed_offering hadm, State.cfg_olaPushed_offering, State.draws_olaPushed_offering,
      pushAll_append]

/-! ### The stored samples -/

/-- Words written one after the other from an index on. -/
def Mem.writeFrom : Mem → Nat → List Word → Mem
  | m, _, [] => m
  | m, a, x :: xs => Mem.writeFrom (Mem.write m a x) (a + 1) xs

theorem Mem.read_writeFrom (m : Mem) (a : Nat) (xs : List Word) (b : Nat) :
    Mem.read (Mem.writeFrom m a xs) b = if b < a then Mem.read m b else (xs[b - a]?).or (Mem.read m b) := by
  induction xs generalizing m a with
  | nil => simp [Mem.writeFrom]
  | cons x xs ih =>
    rw [Mem.writeFrom, ih, Mem.read_write]
    rcases Nat.lt_trichotomy b a with h | rfl | h
    · rw [if_pos (by omega), if_neg (by omega), if_pos h]
    · simp
    · rw [if_neg (by omega), if_neg (by omega), if_neg (by omega), show b - a = b - (a + 1) + 1 by omega,
        List.getElem?_cons_succ]

/-- Up to the end of the written words: what was there before them, then the words. -/
theorem Mem.read_writeFrom_of_lt {m : Mem} {a b : Nat} {xs : List Word} (h : b < a + xs.length) :
    Mem.read (Mem.writeFrom m a xs) b = if b < a then Mem.read m b else xs[b - a]? := by
  rw [Mem.read_writeFrom]
  split
  · rfl
  · rw [List.getElem?_eq_getElem (by omega), Option.some_or]

theorem Mem.read_writeFrom_outside {m : Mem} {a b : Nat} {xs : List Word} (h : b < a ∨ a + xs.length ≤ b) :
    Mem.read (Mem.writeFrom m a xs) b = Mem.read m b := by
  rw [Mem.read_writeFrom]
  split
  · rfl
  · rw [List.getElem?_eq_none (by omega), Option.none_or]

/-- The unit with samples stored in its hop accumulator from the fill on (R301). -/
def Ola.stored (o : Ola) (xs : List Word) : Ola := { o with hop := Mem.writeFrom o.hop o.fill xs }

theorem pushSample_stored {c : Config} {st : Ola × Nat} (h : st.1.fill + 1 ≠ c.olaHop) (x : Word) :
    pushSample c st x = ({ st.1 with hop := Mem.write st.1.hop st.1.fill x, fill := st.1.fill + 1 }, st.2) := if_neg h

theorem pushSample_cycle {c : Config} {st : Ola × Nat} (h : st.1.fill + 1 = c.olaHop) (x : Word) :
    pushSample c st x = ({ (st.1.stored [x]).hopCycle c st.2 with fill := 0 }, st.2 + cycleDraws c) := if_pos h

/-- The loop over samples that do not fill the hop (R301, R302). -/
theorem pushLoop_stored {c : Config} (xs : List Word) (st : Ola × Nat) (h : st.1.fill + xs.length < c.olaHop) :
    xs.foldl (pushSample c) st = ({ st.1.stored xs with fill := st.1.fill + xs.length }, st.2) := by
  induction xs generalizing st with
  | nil => rfl
  | cons x xs ih =>
    rw [List.length_cons] at h
    rw [List.foldl_cons, pushSample_stored (by omega), ih _ (by simp only; omega)]
    simp only [Ola.stored, Mem.writeFrom, List.length_cons, Nat.add_assoc, Nat.add_comm 1]

/-- The loop over samples that fill the hop exactly: all are stored, then the cycle runs (R301). -/
theorem pushLoop_cycle {c : Config} (xs : List Word) (st : Ola × Nat) (hfill : st.1.fill < c.olaHop)
    (h : st.1.fill + xs.length = c.olaHop) :
    xs.foldl (pushSample c) st = ({ (st.1.stored xs).hopCycle c st.2 with fill := 0 }, st.2 + cycleDraws c) := by
  induction xs generalizing st with
  | nil => exact absurd h hfill.ne
  | cons x xs ih =>
    rw [List.length_cons] at h
    by_cases hlast : st.1.fill + 1 = c.olaHop
    · obtain rfl : xs = [] := List.length_eq_zero_iff.1 (by omega)
      exact pushSample_cycle hlast x
    · rw [List.foldl_cons, pushSample_stored hlast, ih _ (by simp only; omega) (by simp only; omega)]
      rfl

theorem pushAll_stored {c : Config} {o : Ola} {xs : List Word} (d : Nat) (h : o.fill + xs.length < c.olaHop) :
    (pushAll c o d xs).1 =
      { o.stored xs with fill := o.fill + xs.length, pushed := o.pushed + BitVec.ofNat 64 xs.length } := by
  rw [pushAll, pushLoop_stored xs (o, d) h]
  rfl

theorem pushAll_cycle {c : Config} {o : Ola} {xs : List Word} (d : Nat) (hfill : o.fill < c.olaHop)
    (h : o.fill + xs.length = c.olaHop) :
    (pushAll c o d xs).1 =
      { (o.stored xs).hopCycle c d with fill := 0, pushed := o.pushed + BitVec.ofNat 64 xs.length } := by
  rw [pushAll, pushLoop_cycle xs (o, d) hfill h]
  rfl

/-- Settles O45: the loop writes the samples from the fill on, and nothing else. -/
theorem shortPushOnlyStoresSamples : Obligations.ShortPushOnlyStoresSamples := by
  intro s n a hadm hrdy hlen hshort
  have hcycles : (s.ola n.toNat).pushCycles s.cfg a.toNat = 0 := Nat.div_eq_of_lt hshort
  have hroom : (s.ola n.toNat).overruns s.cfg a.toNat = false := by
    rw [Ola.overruns_eq_false_iff, hcycles]
    omega
  have hans := answers_olaPushed hadm hlen
  rw [hcycles] at hans
  refine ⟨_, execOlaPush_accepted hadm hrdy hlen hroom, onlySpectral_olaPushed _ _, hans, ?_⟩
  rw [State.ola_olaPushed hadm, pushAll_stored _ (hlen ▸ hshort), hlen]
  refine ⟨rfl, fun j hj => ?_, fun x hx => Mem.read_writeFrom_outside (hlen ▸ hx)⟩
  refine (Mem.read_writeFrom_of_lt (by omega)).trans ?_
  rw [if_neg (by omega), Nat.add_sub_cancel_left]

/-! ### The hop cycle -/

section HopWords

variable {c : Config} {o : Ola} {word : Nat → Option Word}
  (hhist : ∀ j < c.olaHist, (Mem.read o.hist j).isSome = true)
  (hhop : ∀ j < c.olaHop, (Mem.read o.hop j).isSome = true) (hword : ∀ j < c.olaHop, Mem.read o.hop j = word j)
include hhist hhop hword

/-- Word k of the frame, of a unit whose history and hop are defined (R303). -/
theorem Ola.some_frameWord {k : Nat} (hk : k < c.olaPad + c.olaHist + c.olaHop) :
    (if k < c.olaPad then some fZero else if k < c.olaPad + c.olaHist then Mem.read o.hist (k - c.olaPad)
      else word (k - c.olaPad - c.olaHist)) = some (o.frameWord c k) := by
  unfold Ola.frameWord
  split
  · rfl
  · split
    · exact Mem.read_eq_some_word (hhist _ (by omega))
    · rw [← hword _ (by omega)]
      exact Mem.read_eq_some_word (hhop _ (by omega))

/-- Word k of the rolled history, of a unit whose history and hop are defined (R308). -/
theorem Ola.read_rolledHist {k : Nat} (hk : k < c.olaHist) (hle : c.olaHop ≤ c.olaHist) :
    Mem.read (o.rolledHist c) k =
      if k < c.olaHist - c.olaHop then Mem.read o.hist (k + c.olaHop) else word (k - (c.olaHist - c.olaHop)) := by
  rw [Ola.rolledHist, Mem.read_tabulate, if_pos hk]
  split
  · exact (Mem.read_eq_some_word (hhist _ (by omega))).symm
  · rw [← hword _ (by omega)]
    exact (Mem.read_eq_some_word (hhop _ (by omega))).symm

end HopWords

theorem getElem?_windowed (c : Config) (base : Nat) (o : Ola) {k : Nat} (hk : k < c.olaN) :
    (o.windowed c base)[k]? = some (fmul (Config.nanDraw (base + 5 * k)) (o.frameWord c k) (hannAt c k)) := by
  simp [Ola.windowed, List.getElem?_range hk]

/-- Every word of a hop that new samples fill is defined (R302). -/
theorem SpectralInv.hopDefined_stored {c : Config} {o : Ola} (h : SpectralInv c o) {xs : List Word} {k : Nat}
    (hk : k < o.fill + xs.length) : (Mem.read (o.stored xs).hop k).isSome = true := by
  rw [Ola.stored, Mem.read_writeFrom_of_lt hk]
  split
  · exact h.hopDefined k ‹_›
  · rw [List.getElem?_eq_getElem (by omega)]; rfl

/-- Settles O46: the push stores its samples and runs one `hopCycle`, on arrays that the invariant says are defined. -/
theorem hopCycleOverlapAddsTheFrame : Obligations.HopCycleOverlapAddsTheFrame := by
  intro s t n a hinv hadm hrdy hlen hfull hroom hexec c o o' hopWord frame
  have hunit : SpectralInv c o := hinv.spectral _ (home_ola hadm.home).1
  have hN : c.olaN ≤ c.olaRing := hinv.legal.spectral_le_olaRing.1
  have hcell : ∀ k, (o.wo + k) % c.olaRing < c.olaRing := fun k => Nat.mod_lt _ (Nat.zero_lt_of_lt hunit.woRange)
  have hcycles : o.pushCycles c a.toNat = 1 :=
    (congrArg (· / c.olaHop) hfull).trans (Nat.div_self (Nat.zero_lt_of_lt hunit.fillRange))
  have haccepted : o.overruns c a.toNat = false := by
    rw [Ola.overruns_eq_false_iff, hcycles, Nat.sub_self, Nat.zero_mul]
    exact fun h => h.2.not_ge hroom
  obtain rfl := Host.Outcome.next.inj ((execOlaPush_accepted hadm hrdy hlen haccepted).symm.trans hexec)
  have hstored : o' = _ := (State.ola_olaPushed hadm).trans (pushAll_cycle s.draws hunit.fillRange (hlen ▸ hfull))
  have hlast : o.fill + s.cur.offered.length = c.olaHop := hlen ▸ hfull
  have hhop : ∀ k < c.olaHop, Mem.read (o.stored s.cur.offered).hop k = hopWord k :=
    fun k hk => Mem.read_writeFrom_of_lt (hlast ▸ hk)
  have hhopDefined : ∀ k < c.olaHop, (Mem.read (o.stored s.cur.offered).hop k).isSome = true :=
    fun k hk => hunit.hopDefined_stored (hlast ▸ hk)
  have hhist : ∀ k < c.olaHist, (Mem.read (o.stored s.cur.offered).hist k).isSome = true := hunit.histDefined hrdy
  rw [hstored]
  exact ⟨⟨(o.stored s.cur.offered).windowed c s.draws, by simp [Ola.windowed],
      fun k hk =>
        ⟨_, _, Ola.some_frameWord hhist hhopDefined hhop (hinv.legal.parts ▸ hk), getElem?_windowed _ _ _ hk⟩,
      fun k hk => ⟨_, _, _, Mem.read_eq_some_word (hunit.accDefined hrdy _ (hcell k)), read_accumulate_in hN hk⟩⟩,
    fun k hk => ⟨_, _, _, Mem.read_eq_some_word (hunit.nrmDefined hrdy _ (hcell k)), read_accumulate_in hN hk⟩,
    fun x hx => ⟨read_accumulate_out hx, read_accumulate_out hx⟩,
    fun k hk => Ola.read_rolledHist hhist hhopDefined hhop hk hinv.legal.hops.2⟩

/-! ### OLA.POP -/

theorem execOlaPop_accepted {s : State} {n : BitVec 4} (home : homeDomain s.cfg (.ola n.toNat) = some s.cur.dom)
    (hrdy : (s.ola n.toNat).rdy = true) (a : BitVec 24) :
    exec (.olaPop n a) s = .next
      ({ s.setOla n.toNat (popAll s.cfg s.draws ((s.ola n.toNat).popCount a.toNat) (s.ola n.toNat)).1 with
        draws := s.draws + (s.ola n.toNat).popCount a.toNat }.respond .ok
          (countVal ((s.ola n.toNat).popCount a.toNat)) 0
          (popAll s.cfg s.draws ((s.ola n.toNat).popCount a.toNat) (s.ola n.toNat)).2) :=
  (congrArg _ (State.onPort_home home)).trans (by simp [hrdy, count])

/-- Settles O48: the loop of the pop, over cells that the invariant says are defined. -/
theorem popDeliversNormalisedSamples : Obligations.PopDeliversNormalisedSamples := by
  intro s n a hinv hadm hrdy o m
  have hl := hinv.legal
  have hunit : SpectralInv s.cfg o := hinv.spectral _ (home_ola hadm.home).1
  have hm : m ≤ s.cfg.olaRing := (Nat.min_le_right _ _).trans (hunit.avail_lt hl).le
  have hpos : 0 < s.cfg.olaRing := Nat.zero_lt_of_lt hunit.roRange
  obtain ⟨hregs, hcount, hwords, hcleared, hframe, -, -⟩ := popLoop_spec s.cfg m hm hpos s.draws o hunit.roRange
  refine ⟨_, _, execOlaPop_accepted hadm.home hrdy a, onlySpectral_respond, answers_respond rfl rfl hadm.dom_lt, hcount,
    fun j hj => ?_, ?_⟩
  · have hcell : (o.ro + j) % s.cfg.olaRing < s.cfg.olaRing := Nat.mod_lt _ hpos
    exact ⟨_, _, _, Mem.read_eq_some_word (hunit.accDefined hrdy _ hcell),
      Mem.read_eq_some_word (hunit.nrmDefined hrdy _ hcell), hwords j hj⟩
  · rw [State.ola_setOla_respond hadm.sized (home_ola hadm.home).1]
    refine ⟨?_, hcleared, hframe⟩
    change (popAll s.cfg s.draws m o).1 = _
    rw [popAll, hregs]
    rfl

end Sys2Proof.Machine
end

section
/-! SUPPORT. The transform of silence (R311, R312): zeros of either sign stay zeros through every sum of zeros and every
product with a finite word, and so through the butterflies of R312. -/

namespace Sys2Proof.Machine

/-! ### Arithmetic on zeros -/

theorem isZero_iff (a : Word) : isZero a = true ↔ magBits a = 0 := by simp [isZero]

theorem isFinite_of_isZero {a : Word} (h : isZero a = true) : isFinite a = true := by
  simp [isFinite, (isZero_iff a).1 h, infBits]

theorem isFinite_iff (a : Word) : isFinite a = true ↔ isNaN a = false ∧ isInf a = false := by
  simp only [isFinite, isNaN, isInf, decide_eq_true_eq, decide_eq_false_iff_not]
  omega

theorem magOf_of_isZero {a : Word} (h : isZero a = true) : magOf a = 0 := by
  rw [magOf, (isZero_iff a).1 h]; rfl

theorem isZero_packF_zero (neg : Bool) : isZero (packF neg 0) = true := by cases neg <;> decide

theorem roundMag_zero (den : Nat) : roundMag 0 den = 0 := by simp [roundMag, roundDiv]

theorem isZero_addFinite {a b : Word} (ha : isZero a = true) (hb : isZero b = true) : isZero (addFinite a b) = true := by
  simp only [addFinite, magOf_of_isZero ha, magOf_of_isZero hb, lt_self_iff_false, if_false]
  split
  · rw [roundMag_zero]; exact isZero_packF_zero _
  · rfl

theorem isZero_fadd {a b : Word} (d : BitVec 32) (ha : isZero a = true) (hb : isZero b = true) :
    isZero (fadd d a b) = true := by
  obtain ⟨na, ia⟩ := (isFinite_iff a).1 (isFinite_of_isZero ha)
  obtain ⟨nb, ib⟩ := (isFinite_iff b).1 (isFinite_of_isZero hb)
  simpa [fadd, na, ia, nb, ib] using isZero_addFinite ha hb

theorem magBits_fneg (a : Word) : magBits (fneg a) = magBits a := by
  simp only [magBits, fneg, BitVec.toNat_xor, Nat.xor_mod_two_pow]
  exact Nat.xor_zero _

theorem isZero_fsub {a b : Word} (d : BitVec 32) (ha : isZero a = true) (hb : isZero b = true) :
    isZero (fsub d a b) = true :=
  isZero_fadd d ha ((isZero_iff _).2 ((magBits_fneg b).trans ((isZero_iff b).1 hb)))

theorem isZero_fmul {a b : Word} (d : BitVec 32) (ha : isZero a = true) (hb : isFinite b = true) :
    isZero (fmul d a b) = true := by
  obtain ⟨na, ia⟩ := (isFinite_iff a).1 (isFinite_of_isZero ha)
  obtain ⟨nb, ib⟩ := (isFinite_iff b).1 hb
  simpa [fmul, na, ia, nb, ib, magOf_of_isZero ha, roundMag_zero] using isZero_packF_zero _

/-- The final scale of R312 is finite: `1 / n` is far below the threshold of overflow. -/
theorem isFinite_reciprocal {n : Nat} (hn : 0 < n) : isFinite (reciprocal n) = true := by
  have hbits : roundBits (2 ^ 149) n < infBits := by
    rw [← not_le, infBits_le_roundBits_iff hn]
    omega
  have hmag : roundMag (2 ^ 149) n < infBits := by
    rw [roundMag_eq]
    exact (Nat.min_le_left _ _).trans_lt hbits
  rw [reciprocal, isFinite, magBits_packF (hmag.trans (by decide))]
  exact decide_eq_true hmag

/-! ### Complex zeros -/

/-- Both parts are zeros. -/
def CplxZero (z : Cplx) : Prop := isZero z.1 = true ∧ isZero z.2 = true

/-- Both parts are finite. -/
def CplxFinite (z : Cplx) : Prop := isFinite z.1 = true ∧ isFinite z.2 = true

theorem cplxZero_zero : CplxZero (fZero, fZero) := ⟨rfl, rfl⟩

theorem celem_of_forall {p : Cplx → Prop} (h0 : p (fZero, fZero)) {z : List Cplx} (h : ∀ w ∈ z, p w) (k : Nat) :
    p (celem z k) := by
  rw [celem, List.getD_eq_getElem?_getD]
  rcases hk : z[k]? with _ | w
  · exact h0
  · exact h w (List.mem_of_getElem? hk)

theorem CplxZero.cmul {x y : Cplx} (draw : Nat → BitVec 32) (n : Nat) (hx : CplxZero x) (hy : CplxFinite y) :
    CplxZero (cmul draw n x y) :=
  ⟨isZero_fsub _ (isZero_fmul _ hx.1 hy.1) (isZero_fmul _ hx.2 hy.2),
    isZero_fadd _ (isZero_fmul _ hx.1 hy.2) (isZero_fmul _ hx.2 hy.1)⟩

theorem CplxZero.cadd {x y : Cplx} (draw : Nat → BitVec 32) (n : Nat) (hx : CplxZero x) (hy : CplxZero y) :
    CplxZero (cadd draw n x y) :=
  ⟨isZero_fadd _ hx.1 hy.1, isZero_fadd _ hx.2 hy.2⟩

theorem CplxZero.csub {x y : Cplx} (draw : Nat → BitVec 32) (n : Nat) (hx : CplxZero x) (hy : CplxZero y) :
    CplxZero (csub draw n x y) :=
  ⟨isZero_fsub _ hx.1 hy.1, isZero_fsub _ hx.2 hy.2⟩

/-! ### The stages -/

theorem cplxZero_butterfly {tw z : List Cplx} (htw : ∀ w ∈ tw, CplxFinite w) (hz : ∀ w ∈ z, CplxZero w)
    (draw : Nat → BitVec 32) (n half lo : Nat) (upper : Bool) : CplxZero (butterfly draw n tw z half lo upper) := by
  have helem := celem_of_forall cplxZero_zero hz
  have hrotated := fun i => (helem (lo + half)).cmul draw n (celem_of_forall (p := CplxFinite) ⟨rfl, rfl⟩ htw i)
  cases upper with
  | false => exact (helem lo).cadd _ _ (hrotated _)
  | true => exact (helem lo).csub _ _ (hrotated _)

theorem cplxZero_fftStage {tw z : List Cplx} (htw : ∀ w ∈ tw, CplxFinite w) (hz : ∀ w ∈ z, CplxZero w)
    (draw : Nat → BitVec 32) (n half : Nat) : ∀ w ∈ fftStage draw n tw half z, CplxZero w := by
  refine List.forall_mem_map.2 fun p _ => ?_
  split
  · exact cplxZero_butterfly htw hz _ _ _ _ _
  · exact cplxZero_butterfly htw hz _ _ _ _ _

theorem length_fftStage (draw : Nat → BitVec 32) (n : Nat) (tw : List Cplx) (half : Nat) (z : List Cplx) :
    (fftStage draw n tw half z).length = z.length := by simp [fftStage]

/-- What the permutation and every stage keep, the stages keep. -/
theorem fftStages_induction {p : List Cplx → Prop} {draw : Nat → BitVec 32} {n : Nat} {tw z : List Cplx}
    (hz : p (bitReversed z)) (hstage : ∀ m half y, p y → p (fftStage draw m tw half y)) : p (fftStages draw n tw z) :=
  List.foldlRecOn _ _ hz fun _ hy _ _ => hstage _ _ _ hy

theorem length_fftStages (draw : Nat → BitVec 32) (n : Nat) (tw z : List Cplx) :
    (fftStages draw n tw z).length = z.length :=
  fftStages_induction (p := fun y => y.length = z.length) (by simp [bitReversed])
    fun _ _ _ hy => (length_fftStage _ _ _ _ _).trans hy

theorem cplxZero_fftStages {tw z : List Cplx} (htw : ∀ w ∈ tw, CplxFinite w) (hz : ∀ w ∈ z, CplxZero w)
    (draw : Nat → BitVec 32) (n : Nat) : ∀ w ∈ fftStages draw n tw z, CplxZero w :=
  fftStages_induction (p := fun y => ∀ w ∈ y, CplxZero w)
    (List.forall_mem_map.2 fun _ _ => celem_of_forall cplxZero_zero hz _)
    fun _ _ _ hy => cplxZero_fftStage htw hy _ _ _

theorem length_xformFft (fwd inv : List Cplx) (a : List Word) : (xformFft fwd inv a).length = a.length := by
  simp [xformFft, length_fftStages]

/-- Settles O50: every stage of both transforms takes zeros to zeros, and the scale is finite. -/
theorem referenceTransformOfSilenceIsZero : Obligations.ReferenceTransformOfSilenceIsZero := by
  intro fwd inv a htw ha
  obtain ⟨hfwd, hinv⟩ := List.forall_mem_append.1 htw
  have hframe : ∀ w ∈ a.map fun x => (x, fZero), CplxZero w :=
    List.forall_mem_map.2 fun x hx => ha x hx ▸ cplxZero_zero
  refine ⟨length_xformFft fwd inv a, List.forall_mem_map.2 fun k hk => ?_⟩
  have hpos : 0 < a.length := by
    simp only [length_fftStages, List.length_map, List.mem_range] at hk
    omega
  have hforward := cplxZero_fftStages hfwd hframe (Config.nanXform a) 0
  have hinverse := cplxZero_fftStages hinv hforward (Config.nanXform a) (10 * a.length * Nat.log2 a.length)
  exact isZero_fmul _ (celem_of_forall cplxZero_zero hinverse k).1 (isFinite_reciprocal hpos)

/-! ### The transform of a configuration -/

theorem length_xform (c : Config) (a : List Word) : (xform c a).length = a.length := by
  unfold xform
  split
  · simp
  · rfl
  · exact length_xformFft _ _ a

/-- The given transform keeps but a sign of its free value at an all +0.0 frame. -/
theorem isZero_xformGivenAt {a : List Word} (ha : ∀ x ∈ a, x = fZero) (k : Nat) : isZero (xformGivenAt a k) = true := by
  rw [xformGivenAt, if_pos (by simpa using ha), isZero_iff, magBits, BitVec.toNat_and, Nat.and_mod_two_pow]
  exact Nat.and_zero _

/-- Settles O49: X2 holds of XFORM_ID and of the given transform as they are, and a legal configuration has it. -/
theorem transformOfSilenceIsZero : Obligations.TransformOfSilenceIsZero := by
  refine fun c a => ⟨length_xform c a, fun hc ha => ?_⟩
  rcases hc with hgiven | hideal | ⟨hlegal, hlen⟩
  · rw [xform, hgiven]
    exact List.forall_mem_map.2 fun k _ => isZero_xformGivenAt ha k
  · rw [xform, hideal]
    exact fun y hy => ha y hy ▸ cplxZero_zero.1
  · rw [List.eq_replicate_of_mem ha, hlen]
    exact hlegal.transform

end Sys2Proof.Machine
end

section
/-! SUPPORT. The playback pull of the reference host: the words it delivers, and what it counts. -/

namespace Sys2Proof.Machine.Engine

/-! ### The words delivered -/

section Pull

variable {e : Duplex} {now n k : Nat} {data : List Word}

/-- The frames read and the missing frames make up the frames asked for. -/
theorem length_pullResult (hk : k ≤ n) (hdata : data.length = k * e.channels) :
    (pullResult e now n k data).2.length = n * e.channels := by
  rw [pullResult, List.length_append, List.length_replicate, hdata, ← Nat.add_mul, Nat.add_sub_of_le hk]

theorem getElem?_pullResult_of_read {x : Nat} (hx : x < data.length) :
    (pullResult e now n k data).2[x]? = data[x]? :=
  List.getElem?_append_left hx

/-- What lies within the frames asked for and past the words read is +0.0. -/
theorem getElem?_pullResult_of_missing (hdata : data.length = k * e.channels) {x : Nat}
    (hread : k * e.channels ≤ x) (hx : x < n * e.channels) : (pullResult e now n k data).2[x]? = some fZero := by
  have hmissing : x - data.length < (n - k) * e.channels := by
    rw [hdata, Nat.sub_mul]
    exact Nat.sub_lt_sub_right hread hx
  rw [pullResult, List.getElem?_append_right (hdata ▸ hread), List.getElem?_replicate_of_lt hmissing]

end Pull

/-! ### The statement -/

/-- Settles O60: the words are those read and then the zeros, and the warm-up window is 300 ms (R363). -/
theorem pullZeroFillsAndCounts : Obligations.PullZeroFillsAndCounts := by
  intro e now n k data hk hdata
  refine ⟨length_pullResult hk hdata, fun x hx => ?_, fun x hx hread => ?_, ?_⟩
  · exact getElem?_pullResult_of_read (hdata ▸ hx)
  · exact getElem?_pullResult_of_missing hdata hread hx
  · rw [pullResult, warmupMs]

end Sys2Proof.Machine.Engine
end

section
/-! SUPPORT. Raising a condition, register by register (R18, R58, R407). -/

namespace Sys2Proof.Machine

/-! ### The error registers after a bit is set -/

theorem State.ferr_setErr {s : State} (hdom : s.cur.dom < s.fabs.length) (e : ErrKind) (p : Option Port) (d : Nat) :
    ((s.setErr e p).fab d).ferr =
      if p = none ∧ d = s.cur.dom then (s.fab d).ferr ||| errBit e else (s.fab d).ferr := by
  match p with
  | none =>
    by_cases hd : d = s.cur.dom
    · simp [State.setErr, hd, State.fab_setFab_self s _ hdom]
    · simp [State.setErr, hd, State.fab_setFab_ne s _ hd]
  | some (.rbp _) | some (.rbc _) | some (.rs _) | some (.ola _) => simp [State.setErr]

section Charged

variable {s : State} {p : Option Port} (hz : Sized s) (home : ∀ q, p = some q → homeDomain s.cfg q = some s.cur.dom)

include hz home

theorem State.rb_setErr (e : ErrKind) (i : Nat) : (s.setErr e p).rb i = { s.rb i with
    perr := if p = some (.rbp i) then (s.rb i).perr ||| errBit e else (s.rb i).perr
    cerr := if p = some (.rbc i) then (s.rb i).cerr ||| errBit e else (s.rb i).cerr } := by
  match p with
  | none | some (.rs _) | some (.ola _) => simp [State.setErr]
  | some (.rbp n) =>
    have hn : n < s.rbs.length := hz.rbs ▸ (home_rbp (home _ rfl)).1
    by_cases hi : i = n
    · simp [State.setErr, hi, State.rb_setRb_self s _ hn]
    · simp [State.setErr, Ne.symm hi, State.rb_setRb_ne s _ hi]
  | some (.rbc n) =>
    have hn : n < s.rbs.length := hz.rbs ▸ (home_rbc (home _ rfl)).1
    by_cases hi : i = n
    · simp [State.setErr, hi, State.rb_setRb_self s _ hn]
    · simp [State.setErr, Ne.symm hi, State.rb_setRb_ne s _ hi]

theorem State.rs_setErr (e : ErrKind) (j : Nat) : (s.setErr e p).rs j = { s.rs j with
    err := if p = some (.rs j) then (s.rs j).err ||| errBit e else (s.rs j).err } := by
  match p with
  | none | some (.rbp _) | some (.rbc _) | some (.ola _) => simp [State.setErr]
  | some (.rs n) =>
    have hn : n < s.rss.length := hz.rss ▸ (home_rs (home _ rfl)).1
    by_cases hj : j = n
    · simp [State.setErr, hj, State.rs_setRs_self s _ hn]
    · simp [State.setErr, Ne.symm hj, State.rs_setRs_ne s _ hj]

theorem State.ola_setErr (e : ErrKind) (k : Nat) : (s.setErr e p).ola k = { s.ola k with
    err := if p = some (.ola k) then (s.ola k).err ||| errBit e else (s.ola k).err } := by
  match p with
  | none | some (.rbp _) | some (.rbc _) | some (.rs _) => simp [State.setErr]
  | some (.ola n) =>
    have hn : n < s.olas.length := hz.olas ▸ (home_ola (home _ rfl)).1
    by_cases hk : k = n
    · simp [State.setErr, hk, State.ola_setOla_self s _ hn]
    · simp [State.setErr, Ne.symm hk, State.ola_setOla_ne s _ hk]

end Charged

/-! ### The fault tuple and the response -/

theorem State.faults_raise (s : State) (e : ErrKind) (p : Option Port) :
    (s.raise e p).faults = s.faults ++ [{ kind := e, dom := s.cur.dom, port := p, word := s.cur.word }] := by
  obtain ⟨-, hcur, hfaults, -⟩ := s.setErr_keeps e p
  rw [State.raise, State.respond_faults, State.record_faults, hcur, hfaults]

theorem State.queue_raise (s : State) (e : ErrKind) (p : Option Port) (d : Nat) :
    ((s.raise e p).fab d).queue = (s.fab d).queue := by
  rw [State.raise, State.queue_respond, State.fab_record, State.queue_setErr]

theorem State.done_setErr (s : State) (e : ErrKind) (p : Option Port) (d : Nat) :
    ((s.setErr e p).fab d).done = (s.fab d).done := by
  match p with
  | none =>
    simp only [State.setErr, State.fab, State.setFab, getD_set]
    split
    · next h => rw [h.1]
    · rfl
  | some (.rbp _) | some (.rbc _) | some (.rs _) | some (.ola _) => rfl

theorem State.done_raise {s : State} (hdom : s.cur.dom < s.fabs.length) (e : ErrKind) (p : Option Port) (d : Nat) :
    ((s.raise e p).fab d).done = if d = s.cur.dom
      then (s.fab d).done ++ [{ st := errStatus e, val := 0, taken := 0, out := [] }] else (s.fab d).done := by
  obtain ⟨-, hcur, -, -, -, hlen⟩ := s.setErr_keeps e p
  rw [State.raise, State.respond, State.record_cur, hcur, State.done_complete _ _ (hlen ▸ hdom), State.fab_record,
    State.done_setErr]

theorem answers_raise {s : State} (hdom : s.cur.dom < s.fabs.length) (e : ErrKind) (p : Option Port) :
    Answers s (s.raise e p) { st := errStatus e, val := 0, taken := 0, out := [] } :=
  ⟨by rw [State.done_raise hdom, if_pos rfl], fun d hd => by rw [State.done_raise hdom, if_neg hd]⟩

theorem errStatus_eq (e : ErrKind) : errStatus e = if e = .illegal then .illegal else .error := by cases e <;> rfl

theorem errStatus_code (e : ErrKind) : (errStatus e).code = if e = .illegal then 2 else 3 := by cases e <;> rfl

/-- Settles O8: the completion, the fault tuple and each register after raising a condition. -/
theorem raiseRecordsAndRefuses : Obligations.RaiseRecordsAndRefuses := by
  intro s e p hz hdom home t bit
  have hbit : bit = errBit e := by cases e <;> rfl
  have hfab : s.cur.dom < s.fabs.length := hz.fabs ▸ hdom
  have hanswers := answers_raise hfab e p
  obtain ⟨hcfg, hcur, hsched, hdraws⟩ := s.raise_keeps e p
  rw [hbit, ← errStatus_eq, ← errStatus_code]
  refine ⟨hanswers, ?_, s.faults_raise e p, hcfg, hcur, hsched, hdraws, s.queue_raise e p, fun d => ?_,
    s.rb_setErr hz home e, s.rs_setErr hz home e, s.ola_setErr hz home e⟩
  · rw [hanswers.1, List.getLast?_concat]; rfl
  · exact (State.ferr_respond _ _ _ _ _ _).trans (s.ferr_setErr hfab e p d)

end Sys2Proof.Machine
end

section
/-! SUPPORT. The conditions a command raises (R402 to R404, R410): NOTINIT by the tabled commands, PROTO by the commands
with data-in, HAZARD by the consumer-port commands, each in the order of the checks. -/

namespace Sys2Proof.Machine

/-! ### The order of a command's checks -/

theorem State.onPort_first {s t u : State} {p : Port} {b : Prop} [Decidable b]
    (home : homeDomain s.cfg p = some s.cur.dom) (hb : b) : s.onPort p (if b then t else u) = t := by
  rw [State.onPort_home home, if_pos hb]

theorem State.onPort_second {s t u v : State} {p : Port} {b c : Prop} [Decidable b] [Decidable c]
    (home : homeDomain s.cfg p = some s.cur.dom) (hb : ¬ b) (hc : c) :
    s.onPort p (if b then t else if c then u else v) = u := by
  rw [State.onPort_home home, if_neg hb, if_pos hc]

/-- Settles O12: the pending bit is the first check of each consumer-port command. -/
theorem hazardWhileInitPending : Obligations.HazardWhileInitPending := by
  intro s n a home hp
  simp only [List.forall_mem_cons]
  exact ⟨congrArg _ (State.onPort_first home hp), congrArg _ (State.onPort_first home hp),
    congrArg _ (State.onPort_first home hp), nofun⟩

/-! ### What a command records -/

/-- From s to t nothing is recorded, or one fault, which is NOTINIT only where P holds. -/
def RecordsNotInitIf (P : Prop) (s t : State) : Prop :=
  t.faults = s.faults ∨ ∃ f, t.faults = s.faults ++ [f] ∧ (f.kind = .notInit → P)

section Records

variable {P : Prop} {s t u : State}

theorem RecordsNotInitIf.nothing (h : t.faults = s.faults) : RecordsNotInitIf P s t := .inl h

theorem RecordsNotInitIf.raise (e : ErrKind) (p : Option Port) (h : e = .notInit → P) :
    RecordsNotInitIf P s (s.raise e p) := .inr ⟨_, s.faults_raise e p, h⟩

theorem RecordsNotInitIf.ite {b : Prop} [Decidable b] (ht : b → RecordsNotInitIf P s t) (hu : RecordsNotInitIf P s u) :
    RecordsNotInitIf P s (if b then t else u) := by
  split
  · next hb => exact ht hb
  · exact hu

/-- The check of a command whose unit may be unconfigured. -/
theorem RecordsNotInitIf.unready {x : Bool} {p : Option Port} (hu : RecordsNotInitIf (x = false) s u) :
    RecordsNotInitIf (x = false) s (if !x then s.raise .notInit p else u) :=
  .ite (fun hx => .raise _ _ fun _ => (Bool.not_eq_true' x).mp hx) hu

/-- A check for any other condition. -/
theorem RecordsNotInitIf.other {b : Prop} [Decidable b] {e : ErrKind} {p : Option Port}
    (hu : RecordsNotInitIf P s u) (he : e ≠ .notInit := by decide) :
    RecordsNotInitIf P s (if b then s.raise e p else u) :=
  .ite (fun _ => .raise _ _ fun h => absurd h he) hu

theorem RecordsNotInitIf.onPort {p : Port} (ht : RecordsNotInitIf P s t) : RecordsNotInitIf P s (s.onPort p t) :=
  .ite (fun _ => ht) (.raise .illegal none nofun)

theorem RecordsNotInitIf.answerReg (p : Port) (r : Option Word64) : RecordsNotInitIf P s (s.answerReg p r) := by
  cases r with
  | none => exact .raise .illegal _ nofun
  | some v => exact .nothing rfl

end Records

/-- The table of R402: the states on which a command may raise NOTINIT. -/
def NotInitTabled (s : State) : Instr → Prop
  | .rbWrite m _ | .rbPavail m => (s.rb m.toNat).init = false
  | .rbRead m _ | .rbCavail m => (s.rb m.toNat).cinit = false
  | .rsRun m _ _ => (s.rs m.toNat).cfgd = false
  | .olaPush m _ | .olaPop m _ => (s.ola m.toNat).rdy = false
  | _ => False

/-- Every command records at most one fault, and NOTINIT only on a state of its row of R402. -/
theorem exec_records {i : Instr} {s t : State} (h : exec i s = .next t) : RecordsNotInitIf (NotInitTabled s i) s t := by
  cases i with
  | rbInit => cases h; exact .onPort (.ite (fun _ => .ite (fun _ => .nothing rfl) (.nothing rfl)) (.nothing rfl))
  | rbWrite | rsRun => cases h; exact .onPort (.unready (.other (.nothing rfl)))
  | rbPavail | olaPop => cases h; exact .onPort (.unready (.nothing rfl))
  | rbRead | rbCavail => cases h; exact .onPort (.other (.unready (.nothing rfl)))
  | olaPush => cases h; exact .onPort (.unready (.other (.other (.nothing rfl))))
  | rbCstat => cases h; exact .onPort (.other (.answerReg _ _))
  | rbPstat | rsStat | olaStat => cases h; exact .onPort (.answerReg _ _)
  | rsCfg | rsReset | olaReset => cases h; exact .onPort (.nothing rfl)

theorem exec_notInit_of_recorded {i : Instr} {s t : State} {f : FaultRecord} (h : exec i s = .next t)
    (hf : t.faults = s.faults ++ [f]) (hkind : f.kind = .notInit) : NotInitTabled s i := by
  rcases exec_records h with hnone | ⟨g, hg, hcause⟩
  · rw [hnone] at hf; exact absurd hf (by simp)
  · obtain rfl : g = f := by simpa using hg.symm.trans hf
    exact hcause hkind

theorem exec_no_notInit {i : Instr} {s t : State} (hi : ¬ NotInitTabled s i) (h : exec i s = .next t) :
    ∀ f ∈ t.faults, f ∈ s.faults ∨ f.kind ≠ .notInit := by
  intro f hf
  rcases exec_records h with hnone | ⟨g, hg, hcause⟩
  · exact .inl (hnone ▸ hf)
  · rw [hg, List.mem_append, List.mem_singleton] at hf
    rcases hf with hold | rfl
    · exact .inl hold
    · exact .inr fun hkind => hi (hcause hkind)

/-- Settles O10: the tabled commands check their unit first (after HAZARD, R410), and no other check raises NOTINIT. -/
theorem notInitAsTabled : Obligations.NotInitAsTabled := by
  intro s n a b
  refine ⟨fun home h => ?_, fun home hidle h => ?_, fun home h => ?_, fun home h => ?_, fun m i hi t ht => ?_,
    fun i t f ht hf hkind => ?_⟩
  · have hunready : (!(s.rb n.toNat).init) = true := (Bool.not_eq_true' _).mpr h
    exact ⟨congrArg _ (State.onPort_first home hunready), congrArg _ (State.onPort_first home hunready)⟩
  · have hunready : (!(s.rb n.toNat).cinit) = true := (Bool.not_eq_true' _).mpr h
    have hidle' : ¬ (s.rb n.toNat).pending = true := Bool.eq_false_iff.1 hidle
    exact ⟨congrArg _ (State.onPort_second home hidle' hunready), congrArg _ (State.onPort_second home hidle' hunready)⟩
  · exact congrArg _ (State.onPort_first home ((Bool.not_eq_true' _).mpr h))
  · have hunready : (!(s.ola n.toNat).rdy) = true := (Bool.not_eq_true' _).mpr h
    exact ⟨congrArg _ (State.onPort_first home hunready), congrArg _ (State.onPort_first home hunready)⟩
  · refine exec_no_notInit (fun hon => ?_) ht
    fin_cases hi <;> exact hon
  · have hon := exec_notInit_of_recorded ht hf hkind
    cases i <;> exact hon

/-! ### Offered words without a use -/

/-- The commands with data-in (R403). -/
def takesData : Instr → Bool
  | .rbWrite _ _ | .rsRun _ _ _ | .olaPush _ _ => true
  | _ => false

/-- A command that leads from s to t would lead to t' if it were offered xs: the same but for the words offered, and it
takes none of those. -/
structure IgnoresOffered (xs : List Word) (s t t' : State) : Prop where
  same : t' = t.offering xs
  taken : ∀ c, Answers s t c → c.taken = 0

section Ignores

variable {xs : List Word} {s t t' u u' : State}

/-- Where nothing is answered, as in the first phase of RB.INIT (R204). -/
theorem IgnoresOffered.silent (ht : t.fabs = s.fabs) : IgnoresOffered xs s t (t.offering xs) := by
  refine ⟨rfl, fun c ⟨hdone, _⟩ => ?_⟩
  simp [State.fab, ht] at hdone

theorem IgnoresOffered.respond (st : Status) (v : Word64) (out : List Word) (hdom : u.cur.dom = s.cur.dom := by rfl)
    (hu : ∀ d, (u.fab d).done = (s.fab d).done := by exact fun _ => rfl) :
    IgnoresOffered xs s (u.respond st v 0 out) ((u.offering xs).respond st v 0 out) := by
  refine ⟨rfl, fun c ⟨hdone, _⟩ => ?_⟩
  by_cases hlen : u.cur.dom < u.fabs.length
  · rw [State.respond, State.done_complete _ _ hlen, if_pos hdom.symm, hu] at hdone
    rw [← List.singleton_inj.1 (List.append_cancel_left hdone)]
  · rw [State.respond, State.complete, State.setFab, List.set_eq_of_length_le (Nat.le_of_not_lt hlen)] at hdone
    simp [hu] at hdone

theorem IgnoresOffered.raise (e : ErrKind) (p : Option Port) :
    IgnoresOffered xs s (s.raise e p) ((s.offering xs).raise e p) := by
  have hsame : (s.offering xs).raise e p =
      State.respond (((s.setErr e p).record e p).offering xs) (errStatus e) 0 0 [] := by
    match p with
    | none | some (.rbp _) | some (.rbc _) | some (.rs _) | some (.ola _) => rfl
  rw [hsame]
  exact .respond _ _ _ (congrArg Command.dom (s.setErr_keeps e p).2.1) (s.done_setErr e p)

theorem IgnoresOffered.ite {b : Prop} [Decidable b] (ht : IgnoresOffered xs s t t') (hu : IgnoresOffered xs s u u') :
    IgnoresOffered xs s (if b then t else u) (if b then t' else u') := by
  split
  · exact ht
  · exact hu

theorem IgnoresOffered.onPort {p : Port} (ht : IgnoresOffered xs s t t') :
    IgnoresOffered xs s (s.onPort p t) ((s.offering xs).onPort p t') := .ite ht (.raise _ _)

theorem IgnoresOffered.answerReg (p : Port) (r : Option Word64) :
    IgnoresOffered xs s (s.answerReg p r) ((s.offering xs).answerReg p r) := by
  cases r with
  | none => exact .raise _ _
  | some v => exact .respond _ _ _

end Ignores

theorem exec_ignoresOffered {i : Instr} {s t : State} (hi : takesData i = false) (xs : List Word)
    (h : exec i s = .next t) : ∃ t', exec i (s.offering xs) = .next t' ∧ IgnoresOffered xs s t t' := by
  cases i with
  | rbWrite | rsRun | olaPush => cases hi
  | rbInit n a b =>
    cases h
    exact ⟨_, rfl, .onPort (.ite (.ite (.respond _ _ _) (.silent rfl)) (.respond _ _ _))⟩
  | rbPavail | olaPop => cases h; exact ⟨_, rfl, .onPort (.ite (.raise _ _) (.respond _ _ _))⟩
  | rbRead | rbCavail =>
    cases h
    exact ⟨_, rfl, .onPort (.ite (.raise _ _) (.ite (.raise _ _) (.respond _ _ _)))⟩
  | rbCstat => cases h; exact ⟨_, rfl, .onPort (.ite (.raise _ _) (.answerReg _ _))⟩
  | rbPstat | rsStat | olaStat => cases h; exact ⟨_, rfl, .onPort (.answerReg _ _)⟩
  | rsCfg | rsReset | olaReset => cases h; exact ⟨_, rfl, .onPort (.respond _ _ _)⟩

/-- Settles O11: the length is the second check of the data-in commands, and no other command uses the offered words. -/
theorem protoOnWrongLength : Obligations.ProtoOnWrongLength := by
  intro s n a b
  have hwrong : ∀ {k}, s.cur.offered.length ≠ k → (!s.offers k) = true := fun h => by simp [State.offers, h]
  refine ⟨fun home h hlen => ?_, fun home h hlen => ?_, fun home h hlen => ?_, fun m i hi xs t ht => ?_⟩
  · exact congrArg _ (State.onPort_second home (by simp [h]) (hwrong hlen))
  · exact congrArg _ (State.onPort_second home (by simp [h]) (hwrong hlen))
  · exact congrArg _ (State.onPort_second home (by simp [h]) (hwrong hlen))
  · have hdata : takesData i = false := by fin_cases hi <;> rfl
    obtain ⟨_, ht', rfl, htaken⟩ := exec_ignoresOffered hdata xs ht
    exact ⟨ht', htaken⟩

end Sys2Proof.Machine
end

section
/-! SUPPORT. Error bits and recorded faults stay (R406): no agent's turn but the block reset clears an error bit, and
none removes a fault. -/

namespace Sys2Proof.Machine

/-! ### The bits of an error register -/

/-- Every bit set in e is set in e'. -/
def BitsKept (e e' : BitVec 32) : Prop := e &&& e' = e

theorem BitsKept.refl (e : BitVec 32) : BitsKept e e := BitVec.and_self

theorem BitsKept.or (e b : BitVec 32) : BitsKept e (e ||| b) := by
  refine BitVec.eq_of_getElem_eq fun i hi => ?_
  rw [BitVec.getElem_and, BitVec.getElem_or]
  cases e[i] <;> rfl

theorem BitsKept.trans {a b c : BitVec 32} (h : BitsKept a b) (h' : BitsKept b c) : BitsKept a c := by
  rw [BitsKept, ← h, BitVec.and_assoc, h']

/-- The same of the two error registers of a ring. -/
def Rb.ErrBitsKept (r r' : Rb) : Prop := BitsKept r.perr r'.perr ∧ BitsKept r.cerr r'.cerr

theorem Rb.ErrBitsKept.refl (r : Rb) : r.ErrBitsKept r := ⟨.refl _, .refl _⟩

/-- From s to t no error bit was cleared and no recorded fault removed. -/
structure ErrorsKept (s t : State) : Prop where
  fabrics : ∀ d, BitsKept (s.fab d).ferr (t.fab d).ferr
  rings : ∀ i, (s.rb i).ErrBitsKept (t.rb i)
  resamplers : ∀ j, BitsKept (s.rs j).err (t.rs j).err
  spectral : ∀ k, BitsKept (s.ola k).err (t.ola k).err
  faults : s.faults <+: t.faults

theorem ErrorsKept.refl (s : State) : ErrorsKept s s :=
  ⟨fun _ => .refl _, fun _ => .refl _, fun _ => .refl _, fun _ => .refl _, ⟨[], List.append_nil _⟩⟩

theorem ErrorsKept.trans {s t u : State} (h : ErrorsKept s t) (h' : ErrorsKept t u) : ErrorsKept s u where
  fabrics d := (h.fabrics d).trans (h'.fabrics d)
  rings i := ⟨(h.rings i).1.trans (h'.rings i).1, (h.rings i).2.trans (h'.rings i).2⟩
  resamplers j := (h.resamplers j).trans (h'.resamplers j)
  spectral k := (h.spectral k).trans (h'.spectral k)
  faults := h.faults.trans h'.faults

/-! ### One lemma per update of the state -/

/-- Replacing a unit of a list by one it is related to, or none where the index is past the end, relates all units. -/
theorem rel_getD_set {α : Type} {R : α → α → Prop} (hrefl : ∀ x, R x x) {l : List α} {i : Nat} {x d : α}
    (h : R (l.getD i d) x) (n : Nat) : R (l.getD n d) ((l.set i x).getD n d) := by
  rw [getD_set]
  split
  · next hn => exact hn.1 ▸ h
  · exact hrefl _

theorem ErrorsKept.setRb {s : State} {i : Nat} {r : Rb} (h : (s.rb i).ErrBitsKept r) : ErrorsKept s (s.setRb i r) :=
  { ErrorsKept.refl s with rings := rel_getD_set Rb.ErrBitsKept.refl h }

theorem ErrorsKept.setRs {s : State} {j : Nat} {r : Rs} (h : BitsKept (s.rs j).err r.err) :
    ErrorsKept s (s.setRs j r) :=
  { ErrorsKept.refl s with resamplers := rel_getD_set (R := fun x y : Rs => BitsKept x.err y.err) (fun _ => .refl _) h }

theorem ErrorsKept.setOla {s : State} {k : Nat} {o : Ola} (h : BitsKept (s.ola k).err o.err) :
    ErrorsKept s (s.setOla k o) :=
  { ErrorsKept.refl s with spectral := rel_getD_set (R := fun x y : Ola => BitsKept x.err y.err) (fun _ => .refl _) h }

theorem ErrorsKept.setFab {s : State} {d : Nat} {f : Fabric} (h : BitsKept (s.fab d).ferr f.ferr) :
    ErrorsKept s (s.setFab d f) :=
  { ErrorsKept.refl s with
    fabrics := rel_getD_set (R := fun x y : Fabric => BitsKept x.ferr y.ferr) (fun _ => .refl _) h }

theorem ErrorsKept.setDraws {s u : State} (h : ErrorsKept s u) (n : Nat) : ErrorsKept s { u with draws := n } :=
  { h with }

theorem ErrorsKept.complete {s u : State} (h : ErrorsKept s u) (d : Nat) (c : Completion) :
    ErrorsKept s (u.complete d c) :=
  { h with fabrics := fun n => (State.ferr_complete u d n c).symm ▸ h.fabrics n }

theorem ErrorsKept.respond {s u : State} (h : ErrorsKept s u) (st : Status) (v : Word64) (n : Nat) (out : List Word) :
    ErrorsKept s (u.respond st v n out) := h.complete _ _

theorem ErrorsKept.record {s u : State} (h : ErrorsKept s u) (e : ErrKind) (p : Option Port) :
    ErrorsKept s (u.record e p) :=
  { h with faults := h.faults.trans ⟨_, rfl⟩ }

theorem ErrorsKept.setErr (s : State) (e : ErrKind) (p : Option Port) : ErrorsKept s (s.setErr e p) := by
  match p with
  | none => exact .setFab (.or _ _)
  | some (.rbp i) => exact .setRb ⟨.or _ _, .refl _⟩
  | some (.rbc i) => exact .setRb ⟨.refl _, .or _ _⟩
  | some (.rs j) => exact .setRs (.or _ _)
  | some (.ola k) => exact .setOla (.or _ _)

theorem ErrorsKept.raise (s : State) (e : ErrKind) (p : Option Port) : ErrorsKept s (s.raise e p) :=
  ((ErrorsKept.setErr s e p).record e p).respond _ _ _ _

/-! ### Every command -/

theorem popLoop_err (c : Config) (m draw : Nat) (o : Ola) : (popLoop c m draw o).1.err = o.err := by
  induction m generalizing draw o with
  | zero => rfl
  | succ m ih => exact ih (draw + 1) (o.popCell c)

/-- Raising a condition is the one way to write an error register, and it sets a bit: RB.INIT (R204), RS.CFG (R261) and
OLA.RESET (R300) leave the error registers of the unit they configure. -/
theorem Effect.errorsKept {s t : State} (h : Effect s t) : ErrorsKept s t := by
  cases h with
  | raised e p charge home => exact .raise s e p
  | answered => exact (ErrorsKept.refl s).respond _ _ _ _
  | initCross i => exact .setRb (.refl (s.rb i))
  | initSame i | wrote i | readOut i =>
    refine ErrorsKept.respond (.setRb ?_) _ _ _ _
    exact .refl (s.rb i)
  | configured j =>
    refine ErrorsKept.respond (.setRs ?_) _ _ _ _
    exact .refl (s.rs j).err
  | streamReset k =>
    refine ErrorsKept.respond (.setOla ?_) _ _ _ _
    exact .refl (s.ola k).err
  | pushed k =>
    obtain ⟨-, -, -, -, herr⟩ := pushAll_keeps s.cfg (s.ola k) s.draws s.cur.offered
    exact ((ErrorsKept.setOla (herr.symm ▸ .refl _)).setDraws _).respond _ _ _ _
  | popped k a m =>
    have herr : (popAll s.cfg s.draws m (s.ola k)).1.err = (s.ola k).err := popLoop_err _ _ _ _
    exact ((ErrorsKept.setOla (herr.symm ▸ .refl _)).setDraws _).respond _ _ _ _

/-! ### Every turn -/

theorem ErrorsKept.takeRequest (s : State) (d : Nat) (r : Request) : ErrorsKept s (s.takeRequest d r) :=
  { ErrorsKept.setFab (f := { s.fab d with queue := (s.fab d).queue.tail }) (.refl (s.fab d).ferr) with }

theorem ErrorsKept.initAck (s : State) (i : Nat) : ErrorsKept s (s.initAck i) := by
  cases hp : (s.rb i).pending with
  | true =>
    rw [State.initAck_of_pending hp]
    refine ErrorsKept.complete (.setRb ?_) _ _
    exact .refl (s.rb i)
  | false => rw [State.initAck_of_not_pending hp]; exact .refl s

theorem ErrorsKept.syncW2R (s : State) (i draw : Nat) : ErrorsKept s (s.syncW2R i draw) := by
  cases he : s.w2rEnabled i with
  | true => rw [State.syncW2R_of_enabled he]; exact .setRb (.refl (s.rb i))
  | false => rw [State.syncW2R_of_disabled he]; exact .refl s

theorem ErrorsKept.syncR2W (s : State) (i draw : Nat) : ErrorsKept s (s.syncR2W i draw) := by
  cases he : s.r2wEnabled i with
  | true => rw [State.syncR2W_of_enabled he]; exact .setRb (.refl (s.rb i))
  | false => rw [State.syncR2W_of_disabled he]; exact .refl s

/-- Of the turns only the block reset clears error bits, and it keeps the fault set (log entry 15). -/
theorem Turn.errorsKept {s t : State} {e : Event} (h : Turn s e t) :
    ErrorsKept s t ∨ e = .blockReset ∧ t.faults = s.faults := by
  cases h with
  | idle => exact .inl (.refl s)
  | issued d r t next dom effect => exact .inl ((ErrorsKept.takeRequest s d r).trans effect.errorsKept)
  | initAck i ring => exact .inl (.initAck s i)
  | syncW2R i draw ring => exact .inl (.syncW2R s i draw)
  | syncR2W i draw ring => exact .inl (.syncR2W s i draw)
  | blockReset => exact .inr ⟨rfl, rfl⟩

/-- The fair choice never picks the block reset, so the step that clears error bits has it scheduled. -/
theorem step_errorsKept {s t : State} (h : step s = .next t) :
    ErrorsKept s t ∨ s.sched.head? = some .blockReset ∧ t.faults = s.faults := by
  rcases step_turn h with ⟨e, rest, hs, hturn⟩ | ⟨-, e, he, hturn⟩ | ⟨-, -, rfl⟩
  · rcases hturn.errorsKept with hkept | ⟨rfl, hfaults⟩
    · exact .inl { hkept with }
    · exact .inr ⟨by rw [hs]; rfl, hfaults⟩
  · rcases hturn.errorsKept with hkept | ⟨rfl, -⟩
    · exact .inl { hkept with }
    · exact absurd he s.fairEvent_ne_blockReset
  · exact .inl (.refl t)

theorem step_faults_extend {s t : State} (h : step s = .next t) : s.faults <+: t.faults := by
  rcases step_errorsKept h with hkept | ⟨-, hfaults⟩
  · exact hkept.faults
  · rw [hfaults]

/-- Settles O57: of the moves of a step, only the block reset writes an error register other than by setting a bit. -/
theorem errorBitsAndFaultsAreSticky : Obligations.ErrorBitsAndFaultsAreSticky := by
  intro s t hstep
  obtain ⟨new, hnew⟩ := step_faults_extend hstep
  refine ⟨⟨new, hnew.symm⟩, fun hne ⟨_, hnone⟩ => ?_, fun hreset => ?_⟩
  · exact hne (List.append_eq_nil_iff.1 (hnew.trans hnone)).1
  · obtain ⟨hfabrics, hrings, hresamplers, hspectral, -⟩ :=
      (step_errorsKept hstep).resolve_right fun h => hreset h.1
    exact ⟨hfabrics, hrings, hresamplers, hspectral⟩

end Sys2Proof.Machine
end

section
/-! SUPPORT. The turn of the block reset (R450). -/

namespace Sys2Proof.Machine

theorem step_blockReset {s : State} {rest : List Event} (hs : s.sched = .blockReset :: rest) :
    step s = .next { s with sched := rest }.blockReset :=
  (step_scheduled hs).trans rfl

/-- Settles O52: the scheduled turn is `State.blockReset` once the entry is spent, which leaves every unit and every
`ferr` at reset. -/
theorem blockResetResetsEveryUnit : Obligations.BlockResetResetsEveryUnit := by
  intro s rest hs
  exact ⟨_, step_blockReset hs, rfl, rfl, rfl, State.ferr_blockReset _, State.rb_blockReset _, State.rs_blockReset _,
    State.ola_blockReset _⟩

end Sys2Proof.Machine
end
